-- ==== Sys2Proof/Word.lean ====
section
/-! DEFINITION. The widths of the machine (R8, R21, R24, R28): 32-bit words and addresses, 8-bit bytes, 5-bit register numbers. -/

namespace Sys2Proof

/-- A register's contents, an address, an instruction word: 32 bits (R21, R24, R100). -/
abbrev Word := BitVec 32

/-- The unit of the `MemoryStore` (R28). -/
abbrev Byte := BitVec 8

/-- A register number, 0 to 31 (R21, R105). -/
abbrev RegNum := BitVec 5

end Sys2Proof
end

