-- ==== Sys2Proof/Machine/Flags.lean ====
section
/-! DEFINITION. The conditions the Executor computes (R130, R142). The hardware has no flags (R25): signed overflow is a condition
signalled to the pipeline, a comparison's outcome is a register value. -/

namespace Sys2Proof.Machine

/-- Overflow of the signed sum `a + b`: the operands agree in sign and the sum does not (R142). -/
def addOverflows (a b : Word) : Bool := a.msb == b.msb && (a + b).msb != a.msb

/-- Overflow of the signed difference `a - b`: the operands differ in sign and so do the difference and `a` (R142). -/
def subOverflows (a b : Word) : Bool := a.msb != b.msb && (a - b).msb != a.msb

/-- `signed(a) < signed(b)` (R138, R155). -/
def signedLess (a b : Word) : Bool := decide (a.toInt < b.toInt)

/-- `unsigned(a) < unsigned(b)` (R139, R156). -/
def unsignedLess (a b : Word) : Bool := decide (a.toNat < b.toNat)

/-- `signed(a) <= 0` (R193, R242). -/
def signedNonPositive (a : Word) : Bool := decide (a.toInt ≤ 0)

/-- `signed(a) > 0` (R194, R242). -/
def signedPositive (a : Word) : Bool := decide (0 < a.toInt)

/-- A comparison's register value: exactly 0 or 1 (R142). -/
def boolWord (b : Bool) : Word := if b then 1 else 0

end Sys2Proof.Machine
end

