-- ==== Sys2Proof/Config.lean ====
section
/-! DEFINITION. The parameters the model takes (R9, R43, R71) and their defaults. No rule depends on a default. -/

namespace Sys2Proof

/-- `associativityMode` of a `CacheConfig` (R71): the only two the configuration can select (R70). -/
inductive Associativity where
  | directMapped
  | twoWay
  deriving DecidableEq, Repr, Inhabited

/-- `CacheConfig` (R71): `B`, `S`, `L` and the associativity. -/
structure CacheConfig where
  blockSizeBytes : Nat
  totalSizeBytes : Nat
  missLatencyCycles : Nat
  associativityMode : Associativity
  deriving DecidableEq, Repr, Inhabited

/-- A run of byte addresses `base, ..., base + size - 1` that the `MemoryStore` accepts. A list of them is the predicate
`MEM_VALID` of R9 as plain data. -/
structure Region where
  base : Nat
  size : Nat
  deriving DecidableEq, Repr, Inhabited

/-- The parameters of R9 that are open. `init` binds them and nothing changes them afterwards (R43). -/
structure CoreConfig where
  haltWord : Word
  excVector : Word
  icfg : CacheConfig
  dcfg : CacheConfig
  memValid : List Region
  deriving DecidableEq, Repr, Inhabited

namespace Config

/-- `BUBBLE_WORD`, fixed at 0 (R9, R226, D6). -/
abbrev bubbleWord : Word := 0

/-- `RESET_PC`, fixed at 0 (R9, R311, D7). -/
abbrev resetPc : Word := 0

/-- The default of `HALT_WORD` (R9, D4). PRESUMED: general knowledge, log 4; unsafe only for a claim about this word. -/
abbrev haltWord : Word := 0xFEEDFEED

/-- The default of `EXC_VECTOR` (R9, D5). PRESUMED: general knowledge, log 5; unsafe only for a claim about this address. -/
abbrev excVector : Word := 0x00008000

/-- The instruction cache at reset: 64-byte blocks, 256 bytes, latency 2, direct-mapped. DESIGN CHOICE: the spec gives no
default (R9's row `ICFG`); this is the one `95_test_vectors.md` uses, log 6; unsafe for a claim about this geometry. -/
abbrev icfg : CacheConfig := ⟨64, 256, 2, .directMapped⟩

/-- The data cache at reset: 16-byte blocks, 64 bytes, latency 2, two ways. DESIGN CHOICE, log 6; unsafe as `icfg`. -/
abbrev dcfg : CacheConfig := ⟨16, 64, 2, .twoWay⟩

/-- The default of `MEM_VALID`: every address (R9, D22; log 7). -/
abbrev memValid : List Region := [⟨0, 4294967296⟩]

/-- The parameters of the core that `State.reset` describes. -/
abbrev default : CoreConfig := ⟨haltWord, excVector, icfg, dcfg, memValid⟩

end Config

end Sys2Proof
end

