-- ==== Sys2Proof/Machine/Geometry.lean ====
section
/-! DEFINITION. What a `CacheConfig` fixes: when it is valid (R71) and how it slices an address (R74). -/

namespace Sys2Proof

/-- The number of ways the associativity mode selects (R70, R71). -/
def CacheConfig.ways (g : CacheConfig) : Nat :=
  match g.associativityMode with
  | .directMapped => 1
  | .twoWay => 2

/-- `numSets = S / (B × ways)` (R71). -/
def CacheConfig.numSets (g : CacheConfig) : Nat := g.totalSizeBytes / (g.blockSizeBytes * g.ways)

/-- `o = log2(B)` (R74). -/
def CacheConfig.offsetBits (g : CacheConfig) : Nat := Nat.log2 g.blockSizeBytes

/-- `i = log2(numSets)` (R74). -/
def CacheConfig.indexBits (g : CacheConfig) : Nat := Nat.log2 g.numSets

/-- A valid configuration, conditions (a), (b), (c) and (e) of R71; (d), that `L` is a natural number, its type says. -/
def CacheConfig.valid (g : CacheConfig) : Bool :=
  g.blockSizeBytes == 2 ^ g.offsetBits &&
  g.totalSizeBytes % (g.blockSizeBytes * g.ways) == 0 &&
  decide (g.blockSizeBytes * g.ways ≤ g.totalSizeBytes) &&
  g.numSets == 2 ^ g.indexBits &&
  decide (g.offsetBits + g.indexBits ≤ 32)

/-- `offset(a) = a[o-1:0]` (R74). -/
def CacheConfig.offset (g : CacheConfig) (a : Word) : Nat := a.toNat % 2 ^ g.offsetBits

/-- `index(a) = a[o+i-1:o]` (R74). -/
def CacheConfig.index (g : CacheConfig) (a : Word) : Nat := a.toNat / 2 ^ g.offsetBits % 2 ^ g.indexBits

/-- `tag(a) = a[31:o+i]` (R74). -/
def CacheConfig.tag (g : CacheConfig) (a : Word) : Nat := a.toNat / 2 ^ (g.offsetBits + g.indexBits)

/-- The block-aligned address of `a`: `a` with its low `o` bits cleared (R74). -/
def CacheConfig.blockBase (g : CacheConfig) (a : Word) : Word :=
  BitVec.ofNat 32 (a.toNat / 2 ^ g.offsetBits * 2 ^ g.offsetBits)

/-- The address of the line with tag `t` in set `s`: `(t << (o+i)) | (s << o)` (R74). -/
def CacheConfig.lineBase (g : CacheConfig) (t s : Nat) : Word :=
  BitVec.ofNat 32 (t <<< (g.offsetBits + g.indexBits) ||| s <<< g.offsetBits)

/-- `MEM_VALID` (R9, R51): whether the store accepts the byte address `a`. -/
def memValidAt (valid : List Region) (a : Word) : Bool :=
  valid.any fun r => decide (r.base ≤ a.toNat) && decide (a.toNat < r.base + r.size)

end Sys2Proof
end

