-- ==== Sys2Proof/Machine/State.lean ====
section
/-! DEFINITION. The state of `CORE` (R20) and of the `MemoryStore` behind it, its values at reset (R42), and why a step can stop. -/

namespace Sys2Proof.Machine

/-- The two in-model exceptions; there is no payload (R280). -/
inductive Exception where
  | illegalInstruction
  | overflow
  deriving DecidableEq, Repr

/-- `status` (R35, R36). `aborted` carries the two diagnostic values `abort_addr` and `abort_cycle`, which exist in that status
only. -/
inductive Status where
  | notHalted
  | halted
  | aborted (abortAddr : Word) (abortCycle : Nat)
  deriving DecidableEq, Repr, Inhabited

/-- The two views of R12. The MODEL's own type: `cycle`, one step is one tick (R220); `instruction`, one step is one instruction
of the architectural view (R190). DESIGN CHOICE, log 1; safe: each view is modelled whole and a statement names its view. -/
inductive View where
  | cycle
  | instruction
  deriving DecidableEq, Repr, Inhabited

/-- A latch (R29): `op` is a function of `word` and is not stored; `wval = none` is the sentinel `NONE`, "no write". -/
structure Latch where
  word : Word
  pc : Word
  wval : Option Word
  dest : RegNum
  deriving DecidableEq, Repr, Inhabited

/-- `BUBBLE` (R226). -/
def Latch.bubble : Latch := ⟨Config.bubbleWord, 0, none, 0⟩

/-- A `CacheLine` and its byte block (R72). -/
structure CacheLine where
  valid : Bool
  dirty : Bool
  tag : Nat
  lru : Nat
  readyAt : Nat
  data : List Byte
  deriving DecidableEq, Repr, Inhabited

/-- A `Cache` (R73): its sets of lines, the recency counter of R80 and the two counters of R82. -/
structure Cache where
  sets : List (List CacheLine)
  stamp : Nat
  hits : Nat
  misses : Nat
  deriving DecidableEq, Repr, Inhabited

/-- A line right after `init`: invalid and clean. DESIGN CHOICE, log 10: `tag`, `lru`, `readyAt` and the bytes are unspecified
(R42, U5) and zero here; unsafe for a claim that names one of them: nothing else reads them while the line is invalid. -/
def CacheLine.reset (g : CacheConfig) : CacheLine := ⟨false, false, 0, 0, 0, List.replicate g.blockSizeBytes 0⟩

/-- A cache right after `init` (R42): every line invalid, the counters 0. -/
def Cache.reset (g : CacheConfig) : Cache :=
  ⟨List.replicate g.numSets (List.replicate g.ways (CacheLine.reset g)), 0, 0, 0⟩

/-- `M` (R51): the bytes of the `MemoryStore` in canonical form, addresses rising, no byte equal to `unlistedByte`. -/
abbrev Memory := List Host.Cell

/-- What a byte that nothing has written reads as. DESIGN CHOICE, log 11: the spec leaves it to the host's store (R51, U11);
unsafe for a claim that reads a byte nobody loaded. -/
def unlistedByte : Byte := 0

/-- The canonical form of `Memory`: addresses of 32 bits, strictly rising, and no entry that an unlisted address would equal. -/
abbrev Memory.wf (m : Memory) : Prop :=
  m.Pairwise (fun c d => c.1 < d.1) ∧ ∀ c ∈ m, c.1 < 2 ^ 32 ∧ c.2 ≠ unlistedByte

/-- The complete state (R20), the store's contents, the parameters the state is run under (R43) and the view. -/
structure State where
  /-- The MODEL's own field (log 1): which view of R12 the next step applies. -/
  view : View
  /-- The parameters of R9, bound by `init`; no step changes them (R43, log 3). -/
  cfg : CoreConfig
  /-- `x[0..31]` (R21). -/
  regs : Vector Word 32
  /-- `PC` (R24); in the architectural view the address of the current instruction (R190). -/
  pc : Word
  /-- The architectural view's next address (R190); in the cycle view kept at `PC + 4` (log 15). -/
  npc : Word
  /-- `IFID` (R30). -/
  ifid : Latch
  /-- `IDEX` (R31). -/
  idex : Latch
  /-- `EXMEM` (R32). -/
  exmem : Latch
  /-- `MEMWB` (R33). -/
  memwb : Latch
  /-- `halt_seen` (R34). -/
  haltSeen : Bool
  /-- `status` (R35, R36). -/
  status : Status
  /-- `if_wait` (R37). -/
  ifWait : Bool
  /-- `mem_wait` (R37). -/
  memWait : Bool
  /-- `cycle` (R38). -/
  cycle : Nat
  /-- `IC` (R39, R73). -/
  ic : Cache
  /-- `DC` (R39, R73). -/
  dc : Cache
  /-- `M`, the contents of the `MemoryStore` (R51). -/
  mem : Memory
  deriving DecidableEq, Repr, Inhabited

/-- Why a step stops with a fault. -/
inductive Fault where
  /-- Raised by a cache fill or a write-back that the `MemoryStore` refuses (R53, R258, R296): the refused byte address and the
  cycle, the diagnostic of `ABORTED`. Safe: after it the spec promises nothing (U8). -/
  | storeRefused (addr : Word) (cycle : Nat)
  deriving DecidableEq, Repr

/-- Why a step is refused. -/
inductive Refusal where
  /-- Raised by an arm of `exec` whose instruction has no meaning yet; no arm is so. Safe. -/
  | notModelled (mnemonic : String)
  /-- Raised by `step` and `init` on parameters that R9 and R71 exclude: "no tick is defined" (R71, R85, R313, U12, U13). Safe. -/
  | malformedConfiguration
  deriving DecidableEq, Repr

/-- The state after `init` with the parameters `cfg` and the store contents `mem` (R42, R310, R311). Register values: R42, D7,
log 9. -/
def State.initial (cfg : CoreConfig) (mem : Memory) : State where
  view := .cycle
  cfg := cfg
  regs := Vector.replicate 32 0
  pc := Config.resetPc
  npc := Config.resetPc + 4
  ifid := .bubble
  idex := .bubble
  exmem := .bubble
  memwb := .bubble
  haltSeen := false
  status := .notHalted
  ifWait := false
  memWait := false
  cycle := 0
  ic := .reset cfg.icfg
  dc := .reset cfg.dcfg
  mem := mem

/-- The machine right after reset (R42), with the default parameters and a store into which the host has loaded nothing. -/
def State.reset : State := .initial Config.default []

end Sys2Proof.Machine
end

