-- ==== Sys2Proof/Machine/Store.lean ====
section
/-! DEFINITION. The `MemoryStore` interface (R50 to R53) over the canonical list of bytes. -/

namespace Sys2Proof.Machine

/-- The byte of `M` at an address (R51). -/
def readByte : Memory → Nat → Byte
  | [], _ => unlistedByte
  | (a', b) :: m, a => if a = a' then b else readByte m a

/-- `M[a] <- b` (R51), keeping the canonical form. -/
def writeByte : Memory → Nat → Byte → Memory
  | [], a, b => if b = unlistedByte then [] else [(a, b)]
  | (a', b') :: m, a, b =>
    if a < a' then if b = unlistedByte then (a', b') :: m else (a, b) :: (a', b') :: m
    else if a = a' then if b = unlistedByte then m else (a, b) :: m
    else (a', b') :: writeByte m a b

/-- The granularities of the store interface and of an access (R50, R55). -/
inductive AccessSize where
  | byte
  | half
  | word
  deriving DecidableEq, Repr

/-- The number of bytes of a granularity (R55). -/
def AccessSize.bytes : AccessSize → Nat
  | .byte => 1
  | .half => 2
  | .word => 4

/-- The `n` byte addresses `a, a+1, ...`, each modulo 2^32 (R51). -/
def byteAddresses : Nat → Word → List Word
  | 0, _ => []
  | n + 1, a => a :: byteAddresses n (a + 1)

/-- The first address of a list that the store refuses (R51, R53). -/
def firstRefused (valid : List Region) (as : List Word) : Option Word := as.find? fun a => !memValidAt valid a

/-- `getValue(address, size)` (R50, R51): the bytes, the one at `a` first, or the refused address in place of a value. -/
def getValue (valid : List Region) (m : Memory) (a : Word) (sz : AccessSize) : Except Word (List Byte) :=
  match firstRefused valid (byteAddresses sz.bytes a) with
  | some bad => .error bad
  | none => .ok ((byteAddresses sz.bytes a).map fun x => readByte m x.toNat)

/-- Writing a list of bytes at ascending addresses. -/
def writeBytesAt : Memory → Word → List Byte → Memory
  | m, _, [] => m
  | m, a, b :: bs => writeBytesAt (writeByte m a.toNat b) (a + 1) bs

/-- `setValue(address, value, size)` (R50, R51), the value as its bytes, most significant first: status bad writes nothing. -/
def setValue (valid : List Region) (m : Memory) (a : Word) (bytes : List Byte) : Except Word Memory :=
  match firstRefused valid (byteAddresses bytes.length a) with
  | some bad => .error bad
  | none => .ok (writeBytesAt m a bytes)

/-- Filling a block: `n` one-byte `getValue` calls in ascending address order (R52, R76). -/
def fillBlock (valid : List Region) (m : Memory) : Nat → Word → Except Word (List Byte)
  | 0, _ => .ok []
  | n + 1, a =>
    match getValue valid m a .byte with
    | .error bad => .error bad
    | .ok bs =>
      match fillBlock valid m n (a + 1) with
      | .error bad => .error bad
      | .ok rest => .ok (bs ++ rest)

/-- Writing a block back: one one-byte `setValue` call for each byte, in ascending address order (R52, R76). -/
def writeBlock (valid : List Region) : Memory → Word → List Byte → Except Word Memory
  | m, _, [] => .ok m
  | m, a, b :: bs =>
    match setValue valid m a [b] with
    | .error bad => .error bad
    | .ok m' => writeBlock valid m' (a + 1) bs

/-- The bytes of an access as a 32-bit value, the first byte the most significant, zero-extended (R54, R55, R56). -/
def valueOfBytes (bs : List Byte) : Word := bs.foldl (fun v b => (v <<< 8) ||| b.setWidth 32) 0

/-- The low `8n` bits of `v` as `n` bytes, the most significant first (R54, R57). -/
def bytesOfValue (n : Nat) (v : Word) : List Byte := (List.range n).map fun k => v.extractLsb' (8 * (n - 1 - k)) 8

end Sys2Proof.Machine
end

