-- ==== Sys2Proof/Machine/Cache.lean ====
section
/-! DEFINITION. The cache (R70 to R86): lookup, recency, the miss procedure, read, write, counters and drain. Every function is
total; `Except.error` is the address of a store call with status bad (R53). -/

namespace Sys2Proof.Machine

/-- A cache with the store behind it (R73, "owns a back-reference to the MemoryStore"). -/
structure CacheStore where
  cache : Cache
  mem : Memory
  deriving DecidableEq, Repr, Inhabited

/-- What an access runs under: the geometry, `MEM_VALID` and the `cycle` argument (R38). -/
structure CacheEnv where
  cfg : CacheConfig
  valid : List Region
  cycle : Nat
  deriving DecidableEq, Repr, Inhabited

/-! ## Lines -/

/-- The ways of set `s` (R73). -/
def Cache.set (c : Cache) (s : Nat) : List CacheLine := c.sets.getD s []

/-- The line in way `w` of set `s`. -/
def Cache.line (c : Cache) (s w : Nat) : CacheLine := (c.set s).getD w default

/-- The cache with the line in way `w` of set `s` replaced. -/
def Cache.setLine (c : Cache) (s w : Nat) (l : CacheLine) : Cache :=
  { c with sets := c.sets.set s ((c.set s).set w l) }

/-- A line that holds tag `t`: valid, with that tag (R75). -/
def CacheLine.holds (t : Nat) (l : CacheLine) : Bool := l.valid && l.tag == t

/-- `find(a)` (R75): the way of set `index(a)` that holds `a`, if any. -/
def Cache.find (g : CacheConfig) (c : Cache) (a : Word) : Option Nat :=
  (c.set (g.index a)).findIdx? (CacheLine.holds (g.tag a))

/-- The byte a valid line holds for `a`, if one does (R56, R64). -/
def Cache.byte? (g : CacheConfig) (c : Cache) (a : Word) : Option Byte :=
  (c.find g a).map fun w => (c.line (g.index a) w).data.getD (g.offset a) 0

/-- The byte at `a` as seen through a cache over a store: the line's byte when a valid line contains `a`, else `M[a]`
(R56 for `DC`, R64 for `IC`). -/
def seenByte (g : CacheConfig) (p : CacheStore) (a : Word) : Byte := (p.cache.byte? g a).getD (readByte p.mem a.toNat)

/-- A *use* of the line in way `w` of set `s` (R80): the counter is incremented and copied into `lru`. -/
def Cache.use (c : Cache) (s w : Nat) : Cache :=
  { c with stamp := c.stamp + 1 }.setLine s w { c.line s w with lru := c.stamp + 1 }

/-- The way with the smallest `lru` among ways `w, w+1, ...` of `ls`, against the best way so far (R76). -/
def oldestWay : List CacheLine → Nat → Nat × Nat → Nat
  | [], _, best => best.1
  | l :: ls, w, best => oldestWay ls (w + 1) (if l.lru < best.2 then (w, l.lru) else best)

/-- The victim in a set (R76): the lowest-numbered invalid way if any, otherwise the way with the smallest `lru`. -/
def victimWay (ls : List CacheLine) : Nat :=
  match ls.findIdx? (fun l => !l.valid) with
  | some w => w
  | none =>
    match ls with
    | [] => 0
    | l :: ls => oldestWay ls 1 (0, l.lru)

/-! ## The miss procedure -/

/-- The write-back of a victim (R76): its block goes to the address rebuilt from its tag and set, when it is valid and dirty. -/
def writeBackLine (e : CacheEnv) (s : Nat) (l : CacheLine) (m : Memory) : Except Word Memory :=
  if l.valid && l.dirty then writeBlock e.valid m (e.cfg.lineBase l.tag s) l.data else .ok m

/-- `missproc(a, cycle)` (R76): write the victim back if dirty, fill the whole block, mark it ready `L` cycles later and most
recently used. -/
def missProc (e : CacheEnv) (a : Word) (p : CacheStore) : Except Word CacheStore :=
  let s := e.cfg.index a
  let w := victimWay (p.cache.set s)
  match writeBackLine e s (p.cache.line s w) p.mem with
  | .error bad => .error bad
  | .ok m =>
    match fillBlock e.valid m e.cfg.blockSizeBytes (e.cfg.blockBase a) with
    | .error bad => .error bad
    | .ok block =>
      let l : CacheLine := ⟨true, false, e.cfg.tag a, (p.cache.line s w).lru, e.cycle + e.cfg.missLatencyCycles, block⟩
      .ok ⟨(p.cache.setLine s w l).use s w, m⟩

/-! ## Access -/

/-- `hit` or `miss`, the status of every access (R77). -/
inductive AccessStatus where
  | hit
  | miss
  deriving DecidableEq, Repr

/-- The three cases of the first-byte rule (R77). -/
inductive FirstByte where
  | ready
  | pending
  | absent
  deriving DecidableEq, Repr

/-- Which case of R77 the first byte `a` is in. All latency comparisons are made here (R81). -/
def firstByte (e : CacheEnv) (c : Cache) (a : Word) : FirstByte :=
  match c.find e.cfg a with
  | none => .absent
  | some w => if (c.line (e.cfg.index a) w).readyAt ≤ e.cycle then .ready else .pending

/-- The counters of R82: an access presented with `first = true` counts once, by its status; a retry does not count. -/
def Cache.count (c : Cache) (first : Bool) : AccessStatus → Cache
  | .hit => if first then { c with hits := c.hits + 1 } else c
  | .miss => if first then { c with misses := c.misses + 1 } else c

/-- One byte's line made present and, when it was, used (the loop bodies of R78 and of R79 on a hit). -/
def touch (e : CacheEnv) (a : Word) (p : CacheStore) : Except Word CacheStore :=
  match p.cache.find e.cfg a with
  | none => missProc e a p
  | some w => .ok { p with cache := p.cache.use (e.cfg.index a) w }

/-- One byte's line made present, not used (the loop body of R79 on a miss). -/
def ensure (e : CacheEnv) (a : Word) (p : CacheStore) : Except Word CacheStore :=
  match p.cache.find e.cfg a with
  | none => missProc e a p
  | some _ => .ok p

/-- `find(a).data[offset(a)] <- b; find(a).dirty <- 1` (R79). -/
def Cache.putByte (g : CacheConfig) (c : Cache) (a : Word) (b : Byte) : Cache :=
  match c.find g a with
  | none => c
  | some w =>
    let l := c.line (g.index a) w
    c.setLine (g.index a) w { l with data := l.data.set (g.offset a) b, dirty := true }

/-- The ready case of `read` (R78): `n` bytes from `a`, each from its own line, whether or not that line's latency has passed. -/
def readLoop (e : CacheEnv) : Nat → Word → CacheStore → Except Word (List Byte × CacheStore)
  | 0, _, p => .ok ([], p)
  | n + 1, a, p =>
    match touch e a p with
    | .error bad => .error bad
    | .ok p₁ =>
      match readLoop e n (a + 1) p₁ with
      | .error bad => .error bad
      | .ok (bs, p₂) => .ok ((p₁.cache.byte? e.cfg a).getD 0 :: bs, p₂)

/-- "Write the bytes" (R79), each into its own line; a present line is used only when the status is hit. -/
def writeLoop (e : CacheEnv) (status : AccessStatus) : List Byte → Word → CacheStore → Except Word CacheStore
  | [], _, p => .ok p
  | b :: bs, a, p =>
    match (if status = .hit then touch e a p else ensure e a p) with
    | .error bad => .error bad
    | .ok p₁ => writeLoop e status bs (a + 1) { p₁ with cache := p₁.cache.putByte e.cfg a b }

/-- What `read` answers (R78): the bytes when the status is hit; on a miss "value is not defined" and there is none (U4). -/
structure ReadResult where
  store : CacheStore
  value : Option (List Byte)
  deriving DecidableEq, Repr

/-- `read(a, n, cycle, first)` (R78). -/
def Cache.read (e : CacheEnv) (a : Word) (n : Nat) (first : Bool) (p : CacheStore) : Except Word ReadResult :=
  match firstByte e p.cache a with
  | .pending => .ok ⟨{ p with cache := p.cache.count first .miss }, none⟩
  | .absent =>
    match missProc e a { p with cache := p.cache.count first .miss } with
    | .error bad => .error bad
    | .ok p' => .ok ⟨p', none⟩
  | .ready =>
    match readLoop e n a { p with cache := p.cache.count first .hit } with
    | .error bad => .error bad
    | .ok (bs, p') => .ok ⟨p', some bs⟩

/-- What `write` answers (R79). -/
structure WriteResult where
  store : CacheStore
  status : AccessStatus
  deriving DecidableEq, Repr

/-- `write(a, v, n, cycle, first)` (R79), the value as its `n` bytes, most significant first. -/
def Cache.write (e : CacheEnv) (a : Word) (bytes : List Byte) (first : Bool) (p : CacheStore) : Except Word WriteResult :=
  match firstByte e p.cache a with
  | .pending => .ok ⟨{ p with cache := p.cache.count first .miss }, .miss⟩
  | .absent =>
    match missProc e a { p with cache := p.cache.count first .miss } with
    | .error bad => .error bad
    | .ok p' =>
      match writeLoop e .miss bytes a p' with
      | .error bad => .error bad
      | .ok p'' => .ok ⟨p'', .miss⟩
  | .ready =>
    match writeLoop e .hit bytes a { p with cache := p.cache.count first .hit } with
    | .error bad => .error bad
    | .ok p' => .ok ⟨p', .hit⟩

/-! ## The access seen without time

The architectural view (R12) performs an access whole, as the requester that presents it until it hits would see it (R56, R81):
a line is made present where it is absent and the bytes are then served; the access counts once, as it was first met (R82).
DESIGN CHOICE, log 2: latency plays no part, a present line counts as a hit even while its latency runs; unsafe only for a claim
about the counters of the instruction view. -/

/-- How a whole access counts: a hit when its first byte's line was present. -/
def Cache.countWhole (g : CacheConfig) (c : Cache) (a : Word) : Cache :=
  c.count true (if (c.find g a).isSome then .hit else .miss)

/-- A whole read: `MemRead(a, n)` of R56 with the data cache's own effects. -/
def Cache.serveRead (e : CacheEnv) (a : Word) (n : Nat) (p : CacheStore) : Except Word (List Byte × CacheStore) :=
  readLoop e n a { p with cache := p.cache.countWhole e.cfg a }

/-- A whole write: `MemWrite(a, n, v)` of R57 with the data cache's own effects. -/
def Cache.serveWrite (e : CacheEnv) (a : Word) (bytes : List Byte) (p : CacheStore) : Except Word CacheStore :=
  writeLoop e .hit bytes a { p with cache := p.cache.countWhole e.cfg a }

/-! ## Drain -/

/-- One set drained, ways ascending: a valid dirty line's block is written back and the line is clean afterwards (R84). -/
def drainWays (e : CacheEnv) (s : Nat) : List CacheLine → Memory → Except Word (List CacheLine × Memory)
  | [], m => .ok ([], m)
  | l :: ls, m =>
    match writeBackLine e s l m with
    | .error bad => .error bad
    | .ok m₁ =>
      match drainWays e s ls m₁ with
      | .error bad => .error bad
      | .ok (ls', m₂) => .ok ({ l with dirty := l.dirty && !l.valid } :: ls', m₂)

/-- The sets `s, s+1, ...` drained in ascending order (R84). -/
def drainSets (e : CacheEnv) : Nat → List (List CacheLine) → Memory → Except Word (List (List CacheLine) × Memory)
  | _, [], m => .ok ([], m)
  | s, ls :: sets, m =>
    match drainWays e s ls m with
    | .error bad => .error bad
    | .ok (ls', m₁) =>
      match drainSets e (s + 1) sets m₁ with
      | .error bad => .error bad
      | .ok (sets', m₂) => .ok (ls' :: sets', m₂)

/-- `drain()` (R84): `valid`, `tag`, `lru`, `readyAt`, the data and the counters are unchanged. -/
def Cache.drain (e : CacheEnv) (p : CacheStore) : Except Word CacheStore :=
  match drainSets e 0 p.cache.sets p.mem with
  | .error bad => .error bad
  | .ok (sets, m) => .ok ⟨{ p.cache with sets := sets }, m⟩

end Sys2Proof.Machine
end

