-- ==== Sys2Proof/Syntax.lean ====
section
/-! DEFINITION. The instructions: one constructor for each row of `spec/opcode_table.json`, in the table's order (R108).
An operand that an instruction ignores (R111) is no field of its constructor. -/

namespace Sys2Proof

/-- The recognised set of R108 with its operands (R105, R115): `rd`, `rs`, `rt` register numbers, `sa` the shift amount,
`imm` the raw 16-bit immediate, `target` the raw 26-bit jump target. Operands stand in the assembler order of R115, the
destination first. -/
inductive Instr where
  | halt
  | sll (rd rt sa : RegNum)
  | srl (rd rt sa : RegNum)
  | jr (rs : RegNum)
  | add (rd rs rt : RegNum)
  | addu (rd rs rt : RegNum)
  | sub (rd rs rt : RegNum)
  | subu (rd rs rt : RegNum)
  | and (rd rs rt : RegNum)
  | or (rd rs rt : RegNum)
  | nor (rd rs rt : RegNum)
  | slt (rd rs rt : RegNum)
  | sltu (rd rs rt : RegNum)
  | j (target : BitVec 26)
  | jal (target : BitVec 26)
  | beq (rs rt : RegNum) (imm : BitVec 16)
  | bne (rs rt : RegNum) (imm : BitVec 16)
  | blez (rs : RegNum) (imm : BitVec 16)
  | bgtz (rs : RegNum) (imm : BitVec 16)
  | addi (rt rs : RegNum) (imm : BitVec 16)
  | addiu (rt rs : RegNum) (imm : BitVec 16)
  | slti (rt rs : RegNum) (imm : BitVec 16)
  | sltiu (rt rs : RegNum) (imm : BitVec 16)
  | andi (rt rs : RegNum) (imm : BitVec 16)
  | ori (rt rs : RegNum) (imm : BitVec 16)
  | lui (rt : RegNum) (imm : BitVec 16)
  | lw (rt rs : RegNum) (imm : BitVec 16)
  | lbu (rt rs : RegNum) (imm : BitVec 16)
  | lhu (rt rs : RegNum) (imm : BitVec 16)
  | sb (rt rs : RegNum) (imm : BitVec 16)
  | sh (rt rs : RegNum) (imm : BitVec 16)
  | sw (rt rs : RegNum) (imm : BitVec 16)
  deriving DecidableEq, Repr

/-- The three formats of R101, and the sentinel of R107. -/
inductive Format where
  | registerOp
  | immediateOp
  | jumpOp
  | sentinel
  deriving DecidableEq, Repr

/-- The format each instruction is written in (R101, R108, R109). -/
def Instr.format : Instr → Format
  | .halt => .sentinel
  | .sll .. | .srl .. | .jr .. | .add .. | .addu .. | .sub .. | .subu .. | .and .. | .or .. | .nor .. | .slt ..
  | .sltu .. => .registerOp
  | .j .. | .jal .. => .jumpOp
  | .beq .. | .bne .. | .blez .. | .bgtz .. | .addi .. | .addiu .. | .slti .. | .sltiu .. | .andi .. | .ori .. | .lui ..
  | .lw .. | .lbu .. | .lhu .. | .sb .. | .sh .. | .sw .. => .immediateOp

/-- Why the decoder rejects (R106, R112). -/
inductive DecodeError where
  /-- An opcode in none of the tables of R109. -/
  | unknownOpcode (opcode : BitVec 6)
  /-- Opcode 0 with a function code that is not in the R table of R109. -/
  | unknownFunction (funct : BitVec 6)
  /-- Fewer than the four bytes of an instruction (R100). -/
  | truncated
  deriving DecidableEq, Repr

end Sys2Proof
end

