-- ==== Sys2Proof/Decode.lean ====
section
/-! DEFINITION. The decoder (R100 to R112) and, after it, the encoder: the words of an instruction, from the same tables. -/

namespace Sys2Proof

/-! ## Fields of a word (R101 to R105) -/

/-- Bits 31:26, in all three formats (R101). -/
def opcodeField (w : Word) : BitVec 6 := w.extractLsb' 26 6
/-- Bits 25:21 (R102, R103). -/
def rsField (w : Word) : RegNum := w.extractLsb' 21 5
/-- Bits 20:16 (R102, R103). -/
def rtField (w : Word) : RegNum := w.extractLsb' 16 5
/-- Bits 15:11 (R102). -/
def rdField (w : Word) : RegNum := w.extractLsb' 11 5
/-- Bits 10:6, the shift amount (R102). -/
def shamtField (w : Word) : RegNum := w.extractLsb' 6 5
/-- Bits 5:0, the function code (R102). -/
def functField (w : Word) : BitVec 6 := w.extractLsb' 0 6
/-- Bits 15:0 (R103). -/
def immField (w : Word) : BitVec 16 := w.extractLsb' 0 16
/-- Bits 25:0 (R104). -/
def targetField (w : Word) : BitVec 26 := w.extractLsb' 0 26

/-! ## The decoder -/

/-- The R table of R109: the instruction that a word of opcode 0 with function code `f` is. Ignored fields are not looked at
(R111). -/
def classifyFunct (f : BitVec 6) (w : Word) : Except DecodeError Instr :=
  match f with
  | 0x00#6 => .ok (.sll (rdField w) (rtField w) (shamtField w))
  | 0x02#6 => .ok (.srl (rdField w) (rtField w) (shamtField w))
  | 0x08#6 => .ok (.jr (rsField w))
  | 0x20#6 => .ok (.add (rdField w) (rsField w) (rtField w))
  | 0x21#6 => .ok (.addu (rdField w) (rsField w) (rtField w))
  | 0x22#6 => .ok (.sub (rdField w) (rsField w) (rtField w))
  | 0x23#6 => .ok (.subu (rdField w) (rsField w) (rtField w))
  | 0x24#6 => .ok (.and (rdField w) (rsField w) (rtField w))
  | 0x25#6 => .ok (.or (rdField w) (rsField w) (rtField w))
  | 0x27#6 => .ok (.nor (rdField w) (rsField w) (rtField w))
  | 0x2A#6 => .ok (.slt (rdField w) (rsField w) (rtField w))
  | 0x2B#6 => .ok (.sltu (rdField w) (rsField w) (rtField w))
  | f => .error (.unknownFunction f)

/-- The tables of R109, by opcode, without the sentinel test: "classifies by the instruction's opcode field" (R101, R106). -/
def classifyOpcode (op : BitVec 6) (w : Word) : Except DecodeError Instr :=
  match op with
  | 0x00#6 => classifyFunct (functField w) w
  | 0x02#6 => .ok (.j (targetField w))
  | 0x03#6 => .ok (.jal (targetField w))
  | 0x04#6 => .ok (.beq (rsField w) (rtField w) (immField w))
  | 0x05#6 => .ok (.bne (rsField w) (rtField w) (immField w))
  | 0x06#6 => .ok (.blez (rsField w) (immField w))
  | 0x07#6 => .ok (.bgtz (rsField w) (immField w))
  | 0x08#6 => .ok (.addi (rtField w) (rsField w) (immField w))
  | 0x09#6 => .ok (.addiu (rtField w) (rsField w) (immField w))
  | 0x0A#6 => .ok (.slti (rtField w) (rsField w) (immField w))
  | 0x0B#6 => .ok (.sltiu (rtField w) (rsField w) (immField w))
  | 0x0C#6 => .ok (.andi (rtField w) (rsField w) (immField w))
  | 0x0D#6 => .ok (.ori (rtField w) (rsField w) (immField w))
  | 0x0F#6 => .ok (.lui (rtField w) (immField w))
  | 0x23#6 => .ok (.lw (rtField w) (rsField w) (immField w))
  | 0x24#6 => .ok (.lbu (rtField w) (rsField w) (immField w))
  | 0x25#6 => .ok (.lhu (rtField w) (rsField w) (immField w))
  | 0x28#6 => .ok (.sb (rtField w) (rsField w) (immField w))
  | 0x29#6 => .ok (.sh (rtField w) (rsField w) (immField w))
  | 0x2B#6 => .ok (.sw (rtField w) (rsField w) (immField w))
  | op => .error (.unknownOpcode op)

/-- The instruction of a word, the sentinel test left out. -/
def classify (w : Word) : Except DecodeError Instr := classifyOpcode (opcodeField w) w

/-- `decode(w)` (R106), for the sentinel `haltWord`: the sentinel is tested first, on the whole word (R107); an error is the
outcome `Illegal` (R112). -/
def decode (haltWord w : Word) : Except DecodeError Instr :=
  if w = haltWord then .ok .halt else classify w

/-- The word of four bytes, big-endian (R54, R100). -/
def wordOfBytes (b0 b1 b2 b3 : Byte) : Word := b0 ++ b1 ++ b2 ++ b3

/-- The four bytes of a word as the store holds them, the first at the lowest address (R54). -/
def bytesOfWord (w : Word) : List Byte :=
  [w.extractLsb' 24 8, w.extractLsb' 16 8, w.extractLsb' 8 8, w.extractLsb' 0 8]

/-- Decoding from a list of bytes: the instruction and the bytes after it. -/
def decodeBytes (haltWord : Word) : List Byte → Except DecodeError (Instr × List Byte)
  | b0 :: b1 :: b2 :: b3 :: rest =>
    match decode haltWord (wordOfBytes b0 b1 b2 b3) with
    | .ok i => .ok (i, rest)
    | .error e => .error e
  | _ => .error .truncated

/-- The instruction that the decoder reads from an instruction whose low `nbits` bits are `w` and whose other bits are 0,
laid out as the hardware stores it, under the default sentinel. -/
def decodeTableWord (nbits w : Nat) : Option Instr :=
  match decodeBytes Config.haltWord (bytesOfWord (BitVec.ofNat 32 (w % 2 ^ nbits))) with
  | .ok (i, _) => some i
  | .error _ => none

/-! ## The encoder -/

/-- A word of the R format, opcode 0 (R102). -/
def encodeR (rs rt rd sa : RegNum) (funct : BitVec 6) : Word := (0 : BitVec 6) ++ rs ++ rt ++ rd ++ sa ++ funct
/-- A word of the I format (R103). -/
def encodeI (opcode : BitVec 6) (rs rt : RegNum) (imm : BitVec 16) : Word := opcode ++ rs ++ rt ++ imm
/-- A word of the J format (R104). -/
def encodeJ (opcode : BitVec 6) (target : BitVec 26) : Word := opcode ++ target

/-- The word of an instruction (R109), zeros in the fields it ignores (R111); the sentinel's word is the parameter. -/
def encode (haltWord : Word) : Instr → Word
  | .halt => haltWord
  | .sll rd rt sa => encodeR 0 rt rd sa 0x00
  | .srl rd rt sa => encodeR 0 rt rd sa 0x02
  | .jr rs => encodeR rs 0 0 0 0x08
  | .add rd rs rt => encodeR rs rt rd 0 0x20
  | .addu rd rs rt => encodeR rs rt rd 0 0x21
  | .sub rd rs rt => encodeR rs rt rd 0 0x22
  | .subu rd rs rt => encodeR rs rt rd 0 0x23
  | .and rd rs rt => encodeR rs rt rd 0 0x24
  | .or rd rs rt => encodeR rs rt rd 0 0x25
  | .nor rd rs rt => encodeR rs rt rd 0 0x27
  | .slt rd rs rt => encodeR rs rt rd 0 0x2A
  | .sltu rd rs rt => encodeR rs rt rd 0 0x2B
  | .j target => encodeJ 0x02 target
  | .jal target => encodeJ 0x03 target
  | .beq rs rt imm => encodeI 0x04 rs rt imm
  | .bne rs rt imm => encodeI 0x05 rs rt imm
  | .blez rs imm => encodeI 0x06 rs 0 imm
  | .bgtz rs imm => encodeI 0x07 rs 0 imm
  | .addi rt rs imm => encodeI 0x08 rs rt imm
  | .addiu rt rs imm => encodeI 0x09 rs rt imm
  | .slti rt rs imm => encodeI 0x0A rs rt imm
  | .sltiu rt rs imm => encodeI 0x0B rs rt imm
  | .andi rt rs imm => encodeI 0x0C rs rt imm
  | .ori rt rs imm => encodeI 0x0D rs rt imm
  | .lui rt imm => encodeI 0x0F 0 rt imm
  | .lw rt rs imm => encodeI 0x23 rs rt imm
  | .lbu rt rs imm => encodeI 0x24 rs rt imm
  | .lhu rt rs imm => encodeI 0x25 rs rt imm
  | .sb rt rs imm => encodeI 0x28 rs rt imm
  | .sh rt rs imm => encodeI 0x29 rs rt imm
  | .sw rt rs imm => encodeI 0x2B rs rt imm

/-- A word is recognised when an opcode row of R109 selects it (R112): the sentinel row is not among them. -/
def recognised (w : Word) : Bool := (classify w).toOption.isSome

end Sys2Proof
end

