-- ==== Sys2Proof/Machine/Operands.lean ====
section
/-! DEFINITION. How operands are assembled (R105), and which registers each instruction writes and reads (R110). -/

namespace Sys2Proof.Machine

/-- `simm = sext_32(imm)` (R105). -/
def simm (imm : BitVec 16) : Word := imm.signExtend 32

/-- `zimm = zext_32(imm)` (R105). -/
def zimm (imm : BitVec 16) : Word := imm.setWidth 32

/-- `uimm = imm ++ 0x0000` (R105). -/
def uimm (imm : BitVec 16) : Word := imm ++ (0 : BitVec 16)

/-- `boff = sext_32(imm) << 2`, low 32 bits (R105). -/
def boff (imm : BitVec 16) : Word := simm imm <<< 2

/-- The target of a conditional branch at `pc`: `pc + 4 + boff` (R105, R242). -/
def branchTarget (pc : Word) (imm : BitVec 16) : Word := pc + 4 + boff imm

/-- The target of `J` and `JAL` at `pc`: `(pc + 4)[31:28] ++ target ++ 00` (R105, R195, R196). -/
def jumpTarget (pc : Word) (target : BitVec 26) : Word := (pc + 4).extractLsb' 28 4 ++ target ++ (0 : BitVec 2)

/-- The link value of `JAL` at `pc`: the address after the delay slot (R196). -/
def linkValue (pc : Word) : Word := pc + 8

/-- The effective address of a load or store: base plus signed displacement, wrapping (R170). -/
def effectiveAddress (base : Word) (imm : BitVec 16) : Word := base + simm imm

/-- `dest` (R110): the register an instruction writes, 0 when it writes none. -/
def destOf : Instr → RegNum
  | .halt => 0
  | .sll rd _ _ | .srl rd _ _ => rd
  | .add rd _ _ | .addu rd _ _ | .sub rd _ _ | .subu rd _ _ | .and rd _ _ | .or rd _ _ | .nor rd _ _ | .slt rd _ _
  | .sltu rd _ _ => rd
  | .addi rt _ _ | .addiu rt _ _ | .slti rt _ _ | .sltiu rt _ _ | .andi rt _ _ | .ori rt _ _ => rt
  | .lui rt _ => rt
  | .lw rt _ _ | .lbu rt _ _ | .lhu rt _ _ => rt
  | .jal _ => 31
  | .jr _ | .j _ | .beq .. | .bne .. | .blez .. | .bgtz .. | .sb .. | .sh .. | .sw .. => 0

/-- `srcs` (R110): the registers whose values an instruction needs; a store's data register counts (D14). -/
def srcsOf : Instr → List RegNum
  | .halt => []
  | .sll _ rt _ | .srl _ rt _ => [rt]
  | .add _ rs rt | .addu _ rs rt | .sub _ rs rt | .subu _ rs rt | .and _ rs rt | .or _ rs rt | .nor _ rs rt | .slt _ rs rt
  | .sltu _ rs rt => [rs, rt]
  | .addi _ rs _ | .addiu _ rs _ | .slti _ rs _ | .sltiu _ rs _ | .andi _ rs _ | .ori _ rs _ => [rs]
  | .lui _ _ => []
  | .lw _ rs _ | .lbu _ rs _ | .lhu _ rs _ => [rs]
  | .sb rt rs _ | .sh rt rs _ | .sw rt rs _ => [rs, rt]
  | .beq rs rt _ | .bne rs rt _ => [rs, rt]
  | .blez rs _ | .bgtz rs _ => [rs]
  | .jr rs => [rs]
  | .j _ | .jal _ => []

/-- The loads, as the hazard unit sees them (R234, R235). -/
def isLoad : Instr → Bool
  | .lw .. | .lbu .. | .lhu .. => true
  | _ => false

/-- The control transfers that resolve on a register, the ones that can stall on an operand (R235). -/
def resolvesOnRegister : Instr → Bool
  | .beq .. | .bne .. | .blez .. | .bgtz .. | .jr .. => true
  | _ => false

/-- The decoder's result for a latch's word, `Illegal` as `none` (R29, R106). -/
def opOf (haltWord w : Word) : Option Instr := (decode haltWord w).toOption

/-- `dest(decode(w))`, 0 for `Illegal` (R110). -/
def destOfWord (haltWord w : Word) : RegNum := ((opOf haltWord w).map destOf).getD 0

/-- `srcs(decode(w))`, empty for `Illegal` (R110). -/
def srcsOfWord (haltWord w : Word) : List RegNum := ((opOf haltWord w).map srcsOf).getD []

/-- Whether a word is a load (R234). -/
def isLoadWord (haltWord w : Word) : Bool := ((opOf haltWord w).map isLoad).getD false

end Sys2Proof.Machine
end

