-- ==== Sys2Proof/Machine/Ops.lean ====
section
/-! DEFINITION. The named operations over the state: registers, the program counter, the data cache, taking an exception. -/

namespace Sys2Proof.Machine

/-- A step's answer. -/
abbrev Result := Host.Outcome State Fault Refusal

/-! ## Registers -/

/-- `x[r]` (R11, R22): register 0 reads zero. -/
def State.reg (s : State) (r : RegNum) : Word := if r = 0 then 0 else s.regs[r.toNat]'r.isLt

/-- `x[r] <- v` (R11, R22): a write to register 0 is discarded. -/
def State.setReg (s : State) (r : RegNum) (v : Word) : State :=
  if r = 0 then s else { s with regs := s.regs.set r.toNat v r.isLt }

/-! ## The program counter -/

/-- `(pc, npc) <- (npc, npc + 4)`: an instruction that is not a taken control transfer (R190). -/
def State.advance (s : State) : State := { s with pc := s.npc, npc := s.npc + 4 }

/-- `(pc, npc) <- (npc, target)`: a taken control transfer, effective after the delay slot (R190). -/
def State.transfer (s : State) (target : Word) : State := { s with pc := s.npc, npc := target }

/-- `(pc, npc) <- (target, target + 4)`; in a tick, `PC' = target` (R250). -/
def State.redirect (s : State) (target : Word) : State := { s with pc := target, npc := target + 4 }

/-! ## Exceptions -/

/-- Taking an exception: control goes to `EXC_VECTOR`, whichever of the two it is (R285, R287), and nothing is saved: no register,
no memory, no cause, no status, no mode (R286). There is no return from it (R288) and no level to nest (R289). -/
def State.takeException (s : State) (_ : Exception) : State := s.redirect s.cfg.excVector

/-! ## The caches of a state -/

/-- What `IC` runs under in this state (R41, R240). -/
def State.icEnv (s : State) : CacheEnv := ⟨s.cfg.icfg, s.cfg.memValid, s.cycle⟩

/-- What `DC` runs under in this state (R41, R245). -/
def State.dcEnv (s : State) : CacheEnv := ⟨s.cfg.dcfg, s.cfg.memValid, s.cycle⟩

/-- `DC` over the store. -/
def State.dataSide (s : State) : CacheStore := ⟨s.dc, s.mem⟩

/-- `IC` over the store. -/
def State.fetchSide (s : State) : CacheStore := ⟨s.ic, s.mem⟩

/-- `D[a]`, the architectural data memory (R56, R62). -/
def State.dataByte (s : State) (a : Word) : Byte := seenByte s.cfg.dcfg s.dataSide a

/-- The byte an instruction fetch of `a` sees (R64). -/
def State.fetchByte (s : State) (a : Word) : Byte := seenByte s.cfg.icfg s.fetchSide a

/-- The state with `DC` and the store after an access. -/
def State.withData (s : State) (p : CacheStore) : State := { s with dc := p.cache, mem := p.mem }

/-- The state with `IC` and the store after a fetch. -/
def State.withFetch (s : State) (p : CacheStore) : State := { s with ic := p.cache, mem := p.mem }

/-- The fatal host error of a refused store call (R53, R258). -/
def State.fatal (s : State) (addr : Word) : Result := .fault (.storeRefused addr s.cycle)

/-! ## The shapes of an instruction in the architectural view (R190) -/

/-- One register write, then the next instruction (R130, R150). -/
def State.writeResult (s : State) (rd : RegNum) (v : Word) : Result := .next (s.setReg rd v).advance

/-- A trapping add or subtract (R131, R133, R151): on overflow the destination is not written and the exception is taken. -/
def State.writeTrapping (s : State) (rd : RegNum) (overflows : Bool) (v : Word) : Result :=
  if overflows then .next (s.takeException .overflow) else s.writeResult rd v

/-- `pc <- target` when the condition holds, after the delay slot either way (R190). -/
def State.branchIf (s : State) (taken : Bool) (target : Word) : Result :=
  if taken then .next (s.transfer target) else .next s.advance

/-- A load of `n` bytes, zero-extended, from base register plus displacement (R55, R56, R170). -/
def State.load (s : State) (sz : AccessSize) (rt rs : RegNum) (imm : BitVec 16) : Result :=
  match Cache.serveRead s.dcEnv (effectiveAddress (s.reg rs) imm) sz.bytes s.dataSide with
  | .error bad => s.fatal bad
  | .ok (bs, p) => (s.withData p).writeResult rt (valueOfBytes bs)

/-- A store of the low bytes of a register to base register plus displacement (R55, R57, R170). -/
def State.store (s : State) (sz : AccessSize) (rt rs : RegNum) (imm : BitVec 16) : Result :=
  match Cache.serveWrite s.dcEnv (effectiveAddress (s.reg rs) imm) (bytesOfValue sz.bytes (s.reg rt)) s.dataSide with
  | .error bad => s.fatal bad
  | .ok p => .next (s.withData p).advance

end Sys2Proof.Machine
end

