-- ==== Sys2Proof/Machine/AluImmediate.lean ====
section
/-! DEFINITION. The immediate-format ALU instructions (R150 to R157). -/

namespace Sys2Proof.Machine

/-- `ADDI Rt, Rs, imm` (R151). -/
def execAddi (rt rs : RegNum) (imm : BitVec 16) (s : State) : Result :=
  s.writeTrapping rt (addOverflows (s.reg rs) (simm imm)) (s.reg rs + simm imm)

/-- `ADDIU Rt, Rs, imm` (R152): the immediate is sign-extended. -/
def execAddiu (rt rs : RegNum) (imm : BitVec 16) (s : State) : Result := s.writeResult rt (s.reg rs + simm imm)

/-- `SLTI Rt, Rs, imm` (R155). -/
def execSlti (rt rs : RegNum) (imm : BitVec 16) (s : State) : Result :=
  s.writeResult rt (boolWord (signedLess (s.reg rs) (simm imm)))

/-- `SLTIU Rt, Rs, imm` (R156): the immediate is sign-extended and then read as unsigned. -/
def execSltiu (rt rs : RegNum) (imm : BitVec 16) (s : State) : Result :=
  s.writeResult rt (boolWord (unsignedLess (s.reg rs) (simm imm)))

/-- `ANDI Rt, Rs, imm` (R153). -/
def execAndi (rt rs : RegNum) (imm : BitVec 16) (s : State) : Result := s.writeResult rt (s.reg rs &&& zimm imm)

/-- `ORI Rt, Rs, imm` (R154). -/
def execOri (rt rs : RegNum) (imm : BitVec 16) (s : State) : Result := s.writeResult rt (s.reg rs ||| zimm imm)

/-- `LUI Rt, imm` (R157). -/
def execLui (rt : RegNum) (imm : BitVec 16) (s : State) : Result := s.writeResult rt (uimm imm)

end Sys2Proof.Machine
end

