-- ==== Sys2Proof/Machine/AluRegister.lean ====
section
/-! DEFINITION. The register-format ALU instructions (R130 to R142). -/

namespace Sys2Proof.Machine

/-- `ADD Rd, Rs, Rt` (R131). -/
def execAdd (rd rs rt : RegNum) (s : State) : Result :=
  s.writeTrapping rd (addOverflows (s.reg rs) (s.reg rt)) (s.reg rs + s.reg rt)

/-- `ADDU Rd, Rs, Rt` (R132). -/
def execAddu (rd rs rt : RegNum) (s : State) : Result := s.writeResult rd (s.reg rs + s.reg rt)

/-- `SUB Rd, Rs, Rt` (R133). -/
def execSub (rd rs rt : RegNum) (s : State) : Result :=
  s.writeTrapping rd (subOverflows (s.reg rs) (s.reg rt)) (s.reg rs - s.reg rt)

/-- `SUBU Rd, Rs, Rt` (R134). -/
def execSubu (rd rs rt : RegNum) (s : State) : Result := s.writeResult rd (s.reg rs - s.reg rt)

/-- `AND Rd, Rs, Rt` (R135). -/
def execAnd (rd rs rt : RegNum) (s : State) : Result := s.writeResult rd (s.reg rs &&& s.reg rt)

/-- `OR Rd, Rs, Rt` (R136). -/
def execOr (rd rs rt : RegNum) (s : State) : Result := s.writeResult rd (s.reg rs ||| s.reg rt)

/-- `NOR Rd, Rs, Rt` (R137). -/
def execNor (rd rs rt : RegNum) (s : State) : Result := s.writeResult rd (~~~(s.reg rs ||| s.reg rt))

/-- `SLT Rd, Rs, Rt` (R138). -/
def execSlt (rd rs rt : RegNum) (s : State) : Result := s.writeResult rd (boolWord (signedLess (s.reg rs) (s.reg rt)))

/-- `SLTU Rd, Rs, Rt` (R139). -/
def execSltu (rd rs rt : RegNum) (s : State) : Result := s.writeResult rd (boolWord (unsignedLess (s.reg rs) (s.reg rt)))

/-- `SLL Rd, Rt, sa` (R140). -/
def execSll (rd rt sa : RegNum) (s : State) : Result := s.writeResult rd (s.reg rt <<< sa.toNat)

/-- `SRL Rd, Rt, sa` (R141): a logical shift. -/
def execSrl (rd rt sa : RegNum) (s : State) : Result := s.writeResult rd (s.reg rt >>> sa.toNat)

end Sys2Proof.Machine
end

