-- ==== Sys2Proof/Machine/Control.lean ====
section
/-! DEFINITION. The control transfers (R190 to R201), each effective after its delay slot (R190). -/

namespace Sys2Proof.Machine

/-- `BEQ Rs, Rt, imm` (R191). -/
def execBeq (rs rt : RegNum) (imm : BitVec 16) (s : State) : Result :=
  s.branchIf (decide (s.reg rs = s.reg rt)) (branchTarget s.pc imm)

/-- `BNE Rs, Rt, imm` (R192). -/
def execBne (rs rt : RegNum) (imm : BitVec 16) (s : State) : Result :=
  s.branchIf (decide (s.reg rs ≠ s.reg rt)) (branchTarget s.pc imm)

/-- `BLEZ Rs, imm` (R193). -/
def execBlez (rs : RegNum) (imm : BitVec 16) (s : State) : Result :=
  s.branchIf (signedNonPositive (s.reg rs)) (branchTarget s.pc imm)

/-- `BGTZ Rs, imm` (R194). -/
def execBgtz (rs : RegNum) (imm : BitVec 16) (s : State) : Result :=
  s.branchIf (signedPositive (s.reg rs)) (branchTarget s.pc imm)

/-- `J addr` (R195). -/
def execJ (target : BitVec 26) (s : State) : Result := .next (s.transfer (jumpTarget s.pc target))

/-- `JAL addr` (R196): the link value goes to `R31`. -/
def execJal (target : BitVec 26) (s : State) : Result :=
  .next ((s.setReg 31 (linkValue s.pc)).transfer (jumpTarget s.pc target))

/-- `JR Rs` (R197): all 32 bits, no alignment check (R199). -/
def execJr (rs : RegNum) (s : State) : Result := .next (s.transfer (s.reg rs))

end Sys2Proof.Machine
end

