-- ==== Sys2Proof/Machine/LoadStore.lean ====
section
/-! DEFINITION. The loads and stores (R170 to R178). No alignment is asked for and none is checked (R58). -/

namespace Sys2Proof.Machine

/-- `LW Rt, off(Rs)` (R172). -/
def execLw (rt rs : RegNum) (imm : BitVec 16) (s : State) : Result := s.load .word rt rs imm

/-- `LBU Rt, off(Rs)` (R173). -/
def execLbu (rt rs : RegNum) (imm : BitVec 16) (s : State) : Result := s.load .byte rt rs imm

/-- `LHU Rt, off(Rs)` (R174). -/
def execLhu (rt rs : RegNum) (imm : BitVec 16) (s : State) : Result := s.load .half rt rs imm

/-- `SB Rt, off(Rs)` (R175). -/
def execSb (rt rs : RegNum) (imm : BitVec 16) (s : State) : Result := s.store .byte rt rs imm

/-- `SH Rt, off(Rs)` (R176). -/
def execSh (rt rs : RegNum) (imm : BitVec 16) (s : State) : Result := s.store .half rt rs imm

/-- `SW Rt, off(Rs)` (R177). -/
def execSw (rt rs : RegNum) (imm : BitVec 16) (s : State) : Result := s.store .word rt rs imm

end Sys2Proof.Machine
end

