-- ==== Sys2Proof/Machine/System.lean ====
section
/-! DEFINITION. The sentinel and the illegal words (R210 to R213). -/

namespace Sys2Proof.Machine

/-- `HALT` (R210): it ends the program, `status` is `HALTED` and nothing more is fetched (`halt_seen`). No register or memory byte
changes; the program counter moves as past any instruction (R250), also out of a delay slot. DEDUCED, log 26; safe: nothing is
fetched from it. -/
def execHalt (s : State) : Result := .next { s.advance with haltSeen := true, status := .halted }

/-- An illegal word (R212): `raise IllegalInstruction`. -/
def execIllegal (s : State) : Result := .next (s.takeException .illegalInstruction)

end Sys2Proof.Machine
end

