-- ==== Sys2Proof/Machine/Architectural.lean ====
section
/-! DEFINITION. One instruction of the architectural view (R12, R190): fetch, decode, execute whole. -/

namespace Sys2Proof.Machine

/-- Fetch in the architectural view: the four bytes at `pc` through `IC` (R59, R64), with `IC`'s own effects; no latency (log 2). -/
def State.fetchWhole (s : State) : Except Word (Word × State) :=
  match Cache.serveRead s.icEnv s.pc 4 s.fetchSide with
  | .error bad => .error bad
  | .ok (bs, p) => .ok (valueOfBytes bs, s.withFetch p)

/-- One word executed: the instruction it decodes to, or the exception of an illegal word (R212, R285). -/
def State.runWord (s : State) (w : Word) : Result :=
  match decode s.cfg.haltWord w with
  | .ok i => exec i s
  | .error _ => execIllegal s

/-- One instruction (R190); a core that has stopped does nothing (R255). -/
def instructionStep (s : State) : Result :=
  match s.status with
  | .notHalted =>
    match s.fetchWhole with
    | .error bad => s.fatal bad
    | .ok (w, s') => s'.runWord w
  | .halted => .next s
  | .aborted _ _ => .next s

end Sys2Proof.Machine
end

