-- ==== Sys2Proof/Machine/Hazard.lean ====
section
/-! DEFINITION. The HazardUnit (R230 to R237): forwarding and the stall conditions, and the decode and execute results they feed
(R242, R243). The state here is the one after write-back (step 1 of R220), as R221 (a) says. -/

namespace Sys2Proof.Machine

/-- A latch forwards its pending value for register `r` (R22, R233). -/
def Latch.forwards (l : Latch) (r : RegNum) : Option Word := if l.dest = r then l.wval else none

/-- `IdOperand(r)` (R230). -/
def State.idOperand (s : State) (r : RegNum) : Word :=
  if r = 0 then 0
  else
    match s.exmem.forwards r with
    | some v => v
    | none =>
      match s.memwb.forwards r with
      | some v => v
      | none => s.reg r

/-- `ExOperand(r)` (R231): `EXMEM`, the more recent producer, wins. -/
def State.exOperand (s : State) (r : RegNum) : Word :=
  if r = 0 then 0
  else
    match s.exmem.forwards r with
    | some v => v
    | none =>
      match s.memwb.forwards r with
      | some v => v
      | none => s.reg r

/-- `MemOperand(r)` (R232). -/
def State.memOperand (s : State) (r : RegNum) : Word :=
  if r = 0 then 0
  else
    match s.memwb.forwards r with
    | some v => v
    | none => s.reg r

/-- The load-use stall (R234). -/
def State.loadUse (s : State) : Bool :=
  isLoadWord s.cfg.haltWord s.idex.word && decide (s.idex.dest ≠ 0) &&
    (srcsOfWord s.cfg.haltWord s.ifid.word).contains s.idex.dest

/-- The branch-operand stall (R235). -/
def State.branchStall (s : State) : Bool :=
  ((opOf s.cfg.haltWord s.ifid.word).map resolvesOnRegister).getD false &&
    (srcsOfWord s.cfg.haltWord s.ifid.word).any fun r =>
      decide (r ≠ 0) &&
        (decide (s.idex.dest = r) || (isLoadWord s.cfg.haltWord s.exmem.word && decide (s.exmem.dest = r)))

/-- Control resolution in decode (R242): the target of a taken transfer at address `p` with operands `x`, `none` when the
instruction is no control transfer or is not taken. -/
def resolve (i : Instr) (p : Word) (x : RegNum → Word) : Option Word :=
  match i with
  | .beq rs rt imm => if x rs = x rt then some (branchTarget p imm) else none
  | .bne rs rt imm => if x rs ≠ x rt then some (branchTarget p imm) else none
  | .blez rs imm => if signedNonPositive (x rs) then some (branchTarget p imm) else none
  | .bgtz rs imm => if signedPositive (x rs) then some (branchTarget p imm) else none
  | .j target => some (jumpTarget p target)
  | .jal target => some (jumpTarget p target)
  | .jr rs => some (x rs)
  | .halt => none
  | .sll .. | .srl .. | .add .. | .addu .. | .sub .. | .subu .. | .and .. | .or .. | .nor .. | .slt .. | .sltu .. => none
  | .addi .. | .addiu .. | .slti .. | .sltiu .. | .andi .. | .ori .. | .lui .. => none
  | .lw .. | .lbu .. | .lhu .. | .sb .. | .sh .. | .sw .. => none

/-- The execute stage's outcome (R243): no result, a result, or the overflow condition. -/
inductive ExOutcome where
  | none
  | value (v : Word)
  | overflow
  deriving DecidableEq, Repr

/-- A trapping result (R243). -/
def ExOutcome.trapping (overflows : Bool) (v : Word) : ExOutcome := if overflows then .overflow else .value v

/-- The Executor (R243): the result of instruction `i` at address `p` with operands `x`. -/
def executor (i : Instr) (p : Word) (x : RegNum → Word) : ExOutcome :=
  match i with
  | .add _ rs rt => .trapping (addOverflows (x rs) (x rt)) (x rs + x rt)
  | .addi _ rs imm => .trapping (addOverflows (x rs) (simm imm)) (x rs + simm imm)
  | .sub _ rs rt => .trapping (subOverflows (x rs) (x rt)) (x rs - x rt)
  | .addu _ rs rt => .value (x rs + x rt)
  | .addiu _ rs imm => .value (x rs + simm imm)
  | .subu _ rs rt => .value (x rs - x rt)
  | .and _ rs rt => .value (x rs &&& x rt)
  | .or _ rs rt => .value (x rs ||| x rt)
  | .nor _ rs rt => .value (~~~(x rs ||| x rt))
  | .andi _ rs imm => .value (x rs &&& zimm imm)
  | .ori _ rs imm => .value (x rs ||| zimm imm)
  | .slt _ rs rt => .value (boolWord (signedLess (x rs) (x rt)))
  | .sltu _ rs rt => .value (boolWord (unsignedLess (x rs) (x rt)))
  | .slti _ rs imm => .value (boolWord (signedLess (x rs) (simm imm)))
  | .sltiu _ rs imm => .value (boolWord (unsignedLess (x rs) (simm imm)))
  | .sll _ rt sa => .value (x rt <<< sa.toNat)
  | .srl _ rt sa => .value (x rt >>> sa.toNat)
  | .lui _ imm => .value (uimm imm)
  | .jal _ => .value (linkValue p)
  | .lw .. | .lbu .. | .lhu .. | .sb .. | .sh .. | .sw .. => .none
  | .beq .. | .bne .. | .blez .. | .bgtz .. | .j _ | .jr _ => .none
  | .halt => .none

/-- The data-cache access an instruction makes in the memory stage (R245). -/
inductive MemAccess where
  | none
  | load (sz : AccessSize) (rs : RegNum) (imm : BitVec 16)
  | store (sz : AccessSize) (rt rs : RegNum) (imm : BitVec 16)
  deriving DecidableEq, Repr

/-- Which access each instruction makes, with its width (R55, R245). -/
def memAccess : Instr → MemAccess
  | .lw _ rs imm => .load .word rs imm
  | .lhu _ rs imm => .load .half rs imm
  | .lbu _ rs imm => .load .byte rs imm
  | .sw rt rs imm => .store .word rt rs imm
  | .sh rt rs imm => .store .half rt rs imm
  | .sb rt rs imm => .store .byte rt rs imm
  | .halt => .none
  | .sll .. | .srl .. | .add .. | .addu .. | .sub .. | .subu .. | .and .. | .or .. | .nor .. | .slt .. | .sltu .. => .none
  | .addi .. | .addiu .. | .slti .. | .sltiu .. | .andi .. | .ori .. | .lui .. => .none
  | .beq .. | .bne .. | .blez .. | .bgtz .. | .j _ | .jal _ | .jr _ => .none

end Sys2Proof.Machine
end

