-- ==== Sys2Proof/Machine/Pipeline.lean ====
section
/-! DEFINITION. The PipelineEngine: the tick (R220), its stages and its commit (R221 to R259). -/

namespace Sys2Proof.Machine

/-- `Latch(w, p, wval = v)` (R220). -/
def mkLatch (haltWord w p : Word) (v : Option Word) : Latch := ⟨w, p, v, destOfWord haltWord w⟩

/-! ## Step 1, write-back (R223) -/

/-- The register file after write-back: the only write of a tick (R223, R256). -/
def State.writeBack (s : State) : State :=
  match s.memwb.wval with
  | none => s
  | some v => s.setReg s.memwb.dest v

/-- `halt_now` (R220, R255). -/
def State.haltNow (s : State) : Bool := decide (s.memwb.word = s.cfg.haltWord)

/-! ## Step 2, fetch (R240) -/

/-- What the fetch stage answers: `IC` and the store after the call, `presented`, and the word when the status is hit. -/
structure FetchResult where
  side : CacheStore
  presented : Bool
  word : Option Word
  deriving DecidableEq, Repr

/-- Fetch (R240): one `IC.read` at `PC` in every tick until the sentinel has been seen. -/
def State.fetchStage (s : State) : Except Word FetchResult :=
  if s.haltSeen then .ok ⟨s.fetchSide, false, none⟩
  else
    match Cache.read s.icEnv s.pc 4 (!s.ifWait) s.fetchSide with
    | .error bad => .error bad
    | .ok r => .ok ⟨r.store, true, r.value.map valueOfBytes⟩

/-! ## Step 3, decode and hazard checks (R241, R234 to R237, R242) -/

/-- What the decode stage answers. `taken` is the target of a taken transfer. -/
structure DecodeResult where
  illegal : Bool
  loadUse : Bool
  branchStall : Bool
  taken : Option Word
  slotWait : Bool
  deriving DecidableEq, Repr

/-- `id_stall` (R237). -/
def DecodeResult.stalls (d : DecodeResult) : Bool := d.loadUse || d.branchStall || d.slotWait

/-- Decode (R241): `fetchOk` says whether this tick's fetch hit (R236). -/
def State.decodeStage (s : State) (fetchOk : Bool) : DecodeResult :=
  let op := opOf s.cfg.haltWord s.ifid.word
  let stall := s.branchStall
  let taken := if stall then none else op.bind fun i => resolve i s.ifid.pc s.idOperand
  ⟨op.isNone, s.loadUse, stall, taken, taken.isSome && !fetchOk && !s.haltSeen⟩

/-! ## Step 4, execute (R243) -/

/-- Execute (R243). `Illegal` in `IDEX`, which no run reaches, does nothing. -/
def State.executeStage (s : State) : ExOutcome :=
  match opOf s.cfg.haltWord s.idex.word with
  | none => .none
  | some i => executor i s.idex.pc s.exOperand

/-! ## Step 5, memory (R245) -/

/-- What the memory stage answers: `DC` and the store after the call, `mres` and `mem_stall`. -/
structure MemResult where
  side : CacheStore
  result : Option Word
  stalls : Bool
  deriving DecidableEq, Repr

/-- Memory (R245), over the store as the fetch of this tick left it (R68). -/
def State.memoryStage (s : State) (mem : Memory) : Except Word MemResult :=
  match (opOf s.cfg.haltWord s.exmem.word).map memAccess with
  | some (.load sz rs imm) =>
    match Cache.read s.dcEnv (effectiveAddress (s.memOperand rs) imm) sz.bytes (!s.memWait) ⟨s.dc, mem⟩ with
    | .error bad => .error bad
    | .ok r => .ok ⟨r.store, r.value.map valueOfBytes, r.value.isNone⟩
  | some (.store sz rt rs imm) =>
    match Cache.write s.dcEnv (effectiveAddress (s.memOperand rs) imm) (bytesOfValue sz.bytes (s.memOperand rt)) (!s.memWait)
        ⟨s.dc, mem⟩ with
    | .error bad => .error bad
    | .ok r => .ok ⟨r.store, none, decide (r.status = .miss)⟩
  | _ => .ok ⟨⟨s.dc, mem⟩, s.exmem.wval, false⟩

/-! ## Steps 6 and 7, commit (R246 to R255) -/

/-- What every tick updates, stalled or not: the caches, the store, `cycle'` and `status'` (R220 step 6, R255). -/
def State.endOfTick (s : State) (ic : Cache) (data : CacheStore) : State :=
  { s with
    ic := ic
    dc := data.cache
    mem := data.mem
    cycle := s.cycle + 1
    status := if s.haltNow then .halted else s.status }

/-- The tail of the commit (R220 step 7, last case): the instruction in `ID` advances; the fetched word, if any, enters `IFID`.
`if_wait` is false after every tick that changed `PC` (R252), `halt_seen` is set when the sentinel is latched (R251). -/
def State.commitAdvance (s : State) (f : FetchResult) (d : DecodeResult) : State :=
  let idex := mkLatch s.cfg.haltWord s.ifid.word s.ifid.pc none
  match f.word with
  | some w =>
    { s.redirect (d.taken.getD (s.pc + 4)) with
      idex := idex
      ifid := mkLatch s.cfg.haltWord w s.pc none
      ifWait := false
      haltSeen := s.haltSeen || decide (w = s.cfg.haltWord) }
  | none =>
    match d.taken with
    | some target => { s.redirect target with idex := idex, ifid := .bubble, ifWait := false }
    | none => { s with idex := idex, ifid := .bubble, ifWait := f.presented || s.ifWait }

/-- The commit below the overflow case (R220 step 7): an illegal word, a decode stall, or the advance (R253, R254). -/
def State.commitDecode (s : State) (f : FetchResult) (d : DecodeResult) : State :=
  if d.illegal then { s.takeException .illegalInstruction with idex := .bubble, ifid := .bubble, ifWait := false }
  else if d.stalls then { s with idex := .bubble, ifWait := f.presented || s.ifWait }
  else s.commitAdvance f d

/-- The commit of a tick whose memory stage does not stall (R248, R249): overflow first, by program order (R246). -/
def State.commitExecute (s : State) (f : FetchResult) (d : DecodeResult) (e : ExOutcome) (mres : Option Word) : State :=
  let s₁ := { s with memwb := mkLatch s.cfg.haltWord s.exmem.word s.exmem.pc mres, memWait := false }
  let exmem (res : Option Word) := mkLatch s.cfg.haltWord s.idex.word s.idex.pc res
  match e with
  | .overflow => { s₁.takeException .overflow with exmem := .bubble, idex := .bubble, ifid := .bubble, ifWait := false }
  | .value v => { s₁ with exmem := exmem (some v) }.commitDecode f d
  | .none => { s₁ with exmem := exmem none }.commitDecode f d

/-- The commit (R220 step 7): a memory stall holds everything behind it (R238). -/
def State.commit (s : State) (f : FetchResult) (d : DecodeResult) (e : ExOutcome) (m : MemResult) : State :=
  if m.stalls then { s with memwb := .bubble, memWait := true, ifWait := f.presented || s.ifWait }
  else s.commitExecute f d e m.result

/-! ## The tick -/

/-- The tick of a core that is not halted (R220). -/
def State.liveTick (s : State) : Result :=
  let w := s.writeBack
  match w.fetchStage with
  | .error bad => s.fatal bad
  | .ok f =>
    match w.memoryStage f.side.mem with
    | .error bad => s.fatal bad
    | .ok m => .next ((w.endOfTick f.side.cache m.side).commit f (w.decodeStage f.word.isSome) w.executeStage m)

/-- `tick` (R220): one clock edge. In `HALTED` and `ABORTED` it changes nothing (R255). -/
def tick (s : State) : Result :=
  match s.status with
  | .notHalted => s.liveTick
  | .halted => .next s
  | .aborted _ _ => .next s

/-! ## The snapshot of a tick (R40, R259) -/

/-- `PipeState` (R40): the instruction word in each stage and the tick's number. -/
structure PipeState where
  ifInstr : Word
  idInstr : Word
  exInstr : Word
  memInstr : Word
  wbInstr : Word
  cycle : Nat
  deriving DecidableEq, Repr

/-- The snapshot of the tick that starts in this state (R259): none once the core has stopped, and none when the tick aborts in
its fetch. -/
def State.snapshot (s : State) : Option PipeState :=
  match s.status with
  | .notHalted =>
    match s.fetchStage with
    | .error _ => none
    | .ok f => some ⟨f.word.getD Config.bubbleWord, s.ifid.word, s.idex.word, s.exmem.word, s.memwb.word, s.cycle⟩
  | .halted => none
  | .aborted _ _ => none

end Sys2Proof.Machine
end

