-- ==== Sys2Proof/WellFormed.lean ====
section
/-! DEFINITION. What must hold of an instruction and of the parameters before the machine runs (R9, R71, R107, D32).
The operands of an instruction carry their ranges in their types. -/

namespace Sys2Proof

/-- `i` is well formed under the sentinel `haltWord` when the sentinel does not hide it: the sentinel is tested first (R107), so
an instruction whose word is the sentinel cannot be written. -/
def Instr.wellFormed (haltWord : Word) (i : Instr) : Bool := decide (i = .halt) || decide (encode haltWord i ≠ haltWord)

/-- `HALT_WORD` hides no instruction and is not the bubble (R9, R107, D32, U13). -/
def haltWordFree (haltWord : Word) : Bool := !recognised haltWord && decide (haltWord ≠ Config.bubbleWord)

/-- `EXC_VECTOR` is a multiple of 4 (R9). -/
def excVectorAligned (v : Word) : Bool := v.toNat % 4 == 0

/-- The parameters with which `init` produces a core (R9, R71, R313). -/
def CoreConfig.wellFormed (c : CoreConfig) : Bool :=
  haltWordFree c.haltWord && excVectorAligned c.excVector && c.icfg.valid && c.dcfg.valid

end Sys2Proof
end

