-- ==== Sys2Proof/Machine/HostOps.lean ====
section
/-! DEFINITION. The host's operations on the core (R41): initialization, bounded running, finalization and the outputs (R40). -/

namespace Sys2Proof.Machine

/-- `init(ICFG, DCFG, mem)` (R41, R310, R313): no core for malformed parameters. -/
def init (cfg : CoreConfig) (mem : Memory) : Result :=
  if cfg.wellFormed then .next (.initial cfg mem) else .refused .malformedConfiguration

/-- Everything of the state that R258 leaves unconstrained after a fatal error: a FREE VALUE, with no body (U8, log 12). -/
opaque stateAfterFatalError : State → State

/-- `ABORTED` with its two diagnostic values (R36, R258); every other piece of state is free. -/
def State.abort (s : State) (addr : Word) (cycle : Nat) : State :=
  { stateAfterFatalError s with status := .aborted addr cycle }

/-- The host's `tick()` (R41): the tick as a total function, a refused store call giving `ABORTED` (R258, R296). -/
def hostTick (s : State) : State :=
  match tick s with
  | .next s' => s'
  | .fault (.storeRefused addr cycle) => s.abort addr cycle
  | .refused _ => s

/-- `runCycles(N)` (R41): at most `N` ticks, stopping as soon as the core has; the state and whether it is `HALTED`.
`runTillHalt` is this with no bound. -/
def runCycles : Nat → State → State × Bool
  | 0, s => (s, decide (s.status = .halted))
  | n + 1, s => if s.status = .notHalted then runCycles n (hostTick s) else (s, decide (s.status = .halted))

/-- `runTillHalt()` (R41): from `s` it returns in `t`. It may never return (R264, U16), and then there is no such `t` (log 22). -/
def runTillHalt (s t : State) : Prop := ∃ n, (runCycles n s).1 = t ∧ t.status ≠ .notHalted

/-- `SimulationStats` (R40). -/
structure SimulationStats where
  totalCycles : Nat
  icHits : Nat
  icMisses : Nat
  dcHits : Nat
  dcMisses : Nat
  deriving DecidableEq, Repr

/-- The statistics of a state (R40, R293). -/
def State.stats (s : State) : SimulationStats := ⟨s.cycle, s.ic.hits, s.ic.misses, s.dc.hits, s.dc.misses⟩

/-- The register dump (R40): `x[0..31]`, with `x[0] = 0`. -/
def State.registerDump (s : State) : List Word := (List.range 32).map fun r => s.reg (BitVec.ofNat 5 r)

/-- The state after the drains of `finalize` (R316): `IC` first, then `DC` (R84). -/
def State.drained (s : State) : Except Word State :=
  match Cache.drain s.icEnv s.fetchSide with
  | .error bad => .error bad
  | .ok p =>
    match Cache.drain s.dcEnv ⟨s.dc, p.mem⟩ with
    | .error bad => .error bad
    | .ok q => .ok ((s.withFetch p).withData q)

/-- `finalize()` (R316): it may be called in any status; a drain write that the store refuses is fatal. -/
def finalize (s : State) : State × SimulationStats × List Word :=
  match s.drained with
  | .ok s' => (s', s'.stats, s'.registerDump)
  | .error bad => (s.abort bad s.cycle, s.stats, s.registerDump)

/-- Loading an image (R60, R314): words placed big-endian at ascending addresses. The host's doing, before the first tick. -/
def loadWords (m : Memory) (a : Word) : List Word → Memory
  | [] => m
  | w :: ws => loadWords (writeBytesAt m a (bytesOfWord w)) (a + 4) ws

end Sys2Proof.Machine
end

