-- ==== Sys2Proof/Machine/Loader.lean ====
section
/-! DEFINITION. Placing one instruction where the next step fetches it (log 17). -/

namespace Sys2Proof.Machine

/-- The data byte of `a` in a cache's line replaced, where a valid line contains `a`; nothing else of the line changes. -/
def Cache.pokeByte (g : CacheConfig) (c : Cache) (a : Word) (b : Byte) : Cache :=
  match c.find g a with
  | none => c
  | some w =>
    let l := c.line (g.index a) w
    c.setLine (g.index a) w { l with data := l.data.set (g.offset a) b }

/-- Bytes replaced in a cache where its valid lines contain them, at ascending addresses. -/
def Cache.pokeBytes (g : CacheConfig) : Cache → Word → List Byte → Cache
  | c, _, [] => c
  | c, a, b :: bs => Cache.pokeBytes g (c.pokeByte g a b) (a + 1) bs

/-- The word `w` placed at `pc`, in the store and in any `IC` line that contains it, so that a fetch sees it (R64); the view is the
architectural one and the core is live, so that the next step executes it whole. -/
def State.placeWord (s : State) (w : Word) : State :=
  { s with
    view := .instruction
    status := .notHalted
    ic := Cache.pokeBytes s.cfg.icfg s.ic s.pc (bytesOfWord w)
    mem := writeBytesAt s.mem s.pc (bytesOfWord w) }

end Sys2Proof.Machine
end

