-- ==== Sys2Proof/Machine/Step.lean ====
section
/-! DEFINITION. The step: a tick or an instruction, by the state's view (R12). -/

namespace Sys2Proof.Machine

/-- One step. Parameters that `init` would not accept give no step (R71, R313). -/
def step (s : State) : Host.Outcome State Fault Refusal :=
  if s.cfg.wellFormed then
    match s.view with
    | .cycle => tick s
    | .instruction => instructionStep s
  else .refused .malformedConfiguration

/-- The state in which the next step fetches and runs the instruction whose low `nbits` bits are `w`, the other bits 0. -/
def State.withFetchWord (s : State) (nbits w : Nat) : State := s.placeWord (BitVec.ofNat 32 (w % 2 ^ nbits))

end Sys2Proof.Machine
end

