-- ==== Sys2Proof/Safety.lean ====
section
/-! DEFINITION. What the claims mean by a well-formed state and a safe step (R83, R263, R296). -/

namespace Sys2Proof.Machine

/-- A line keeps the geometry: a whole block of data, and a tag of `32-o-i` bits once it is valid (R72). -/
abbrev CacheLine.wf (g : CacheConfig) (l : CacheLine) : Prop :=
  l.data.length = g.blockSizeBytes ∧ (l.valid = true → l.tag < 2 ^ (32 - g.offsetBits - g.indexBits))

/-- A set keeps the invariants of R83: its ways are well formed, no two valid lines share a tag or a recency marker, and no valid
line is newer than the recency counter (R80). -/
abbrev waysWf (g : CacheConfig) (stamp : Nat) (ls : List CacheLine) : Prop :=
  ls.length = g.ways ∧ (∀ l ∈ ls, l.wf g ∧ (l.valid = true → l.lru ≤ stamp)) ∧
    ls.Pairwise (fun a b => a.valid = true → b.valid = true → a.tag ≠ b.tag ∧ a.lru ≠ b.lru)

/-- A cache keeps its shape and the invariants of R83 in every set. -/
abbrev Cache.wf (g : CacheConfig) (c : Cache) : Prop :=
  c.sets.length = g.numSets ∧ ∀ ls ∈ c.sets, waysWf g c.stamp ls

/-- No line is dirty: what R83 says of `IC`. -/
abbrev Cache.clean (c : Cache) : Prop := ∀ ls ∈ c.sets, ∀ l ∈ ls, l.dirty = false

/-- A valid clean line holds what the store holds: "flags indicating that a line's contents differ from memory" (R13, R62). -/
abbrev Cache.coherent (g : CacheConfig) (c : Cache) (m : Memory) : Prop :=
  ∀ s < c.sets.length, ∀ l ∈ c.set s, l.valid = true → l.dirty = false →
    l.data = (byteAddresses g.blockSizeBytes (g.lineBase l.tag s)).map fun x => readByte m x.toNat

/-- A well-formed state: parameters that `init` accepts (R71), `x[0] = 0` (R22), the store in canonical form, both caches well formed
and `IC` clean (R83, R263 (g), (h)), the clean lines of `DC` as the store (R62). -/
abbrev State.wf (s : State) : Prop :=
  s.cfg.wellFormed = true ∧ s.regs[0] = 0 ∧ s.mem.wf ∧ s.ic.wf s.cfg.icfg ∧ s.ic.clean ∧ s.dc.wf s.cfg.dcfg ∧
    s.dc.coherent s.cfg.dcfg s.mem

/-- A word that makes a data-cache access in the memory stage (R245). -/
def accessesData (haltWord w : Word) : Bool := ((opOf haltWord w).map fun i => decide (memAccess i ≠ .none)).getD false

/-- The registers an instruction reads in the execute stage (R110, last column `EX`). -/
def exSrcs (haltWord w : Word) : List RegNum :=
  match opOf haltWord w with
  | none => []
  | some i => if memAccess i = .none ∧ resolvesOnRegister i = false then srcsOf i else []

/-- The number of latches that hold the sentinel (R263 (i)). -/
def State.sentinels (s : State) : Nat :=
  ([s.ifid, s.idex, s.exmem, s.memwb].filter fun l => decide (l.word = s.cfg.haltWord)).length

/-- The invariants (a) to (f) and (i) of R263, of the latches and the wait bit; (g) and (h) are in `State.wf`. -/
abbrev State.pipelineWf (s : State) : Prop :=
  (s.ifid.wval = none ∧ s.idex.wval = none) ∧
  (∀ l ∈ [s.ifid, s.idex, s.exmem, s.memwb], l.dest = destOfWord s.cfg.haltWord l.word) ∧
  (∀ l ∈ [s.idex, s.exmem, s.memwb], opOf s.cfg.haltWord l.word ≠ none) ∧
  (s.haltSeen = true → s.ifid.word = s.cfg.haltWord ∨ s.ifid.word = Config.bubbleWord) ∧
  (isLoadWord s.cfg.haltWord s.exmem.word = true → s.exmem.dest ≠ 0 →
    s.exmem.dest ∉ exSrcs s.cfg.haltWord s.idex.word) ∧
  (s.memWait = true → accessesData s.cfg.haltWord s.exmem.word = true) ∧
  (s.sentinels ≤ 1 ∧ (s.haltSeen = false → s.sentinels = 0))

/-- `MEM_VALID` is every address, its default (R9, D22). -/
def acceptsAll (valid : List Region) : Prop := ∀ a : Word, memValidAt valid a = true

/-- A safe answer: a next state, neither the fatal error of R296 nor a refusal. -/
def isNext : Result → Bool
  | .next _ => true
  | .fault _ => false
  | .refused _ => false

/-! ## The words of the claims

What an instruction leaves behind, said once. Each predicate names everything of the state: what it does not name is as before. -/

/-- The bits `lo + n - 1` down to `lo` of a word (R10). -/
def fieldAt (w : Word) (lo n : Nat) : BitVec n := BitVec.ofNat n (w.toNat / 2 ^ lo)

/-- Every word of opcode 0 with this function code, the sentinel apart, is the instruction `mk` gives (R102, R106, R109). -/
def encodedByFunct (funct : Nat) (mk : Word → Instr) : Prop :=
  ∀ hw w : Word, w ≠ hw → w.toNat / 2 ^ 26 = 0 → w.toNat % 2 ^ 6 = funct → decode hw w = .ok (mk w)

/-- Every word of this opcode, the sentinel apart, is the instruction `mk` gives (R103, R104, R106, R109). -/
def encodedByOpcode (opcode : Nat) (mk : Word → Instr) : Prop :=
  ∀ hw w : Word, w ≠ hw → w.toNat / 2 ^ 26 = opcode → decode hw w = .ok (mk w)

/-- The bits of a word that an instruction's decoding does not look at (R111). -/
def ignoredBits : Instr → Word
  | .sll .. | .srl .. => 0x03E00000
  | .jr _ => 0x001FFFC0
  | .add .. | .addu .. | .sub .. | .subu .. | .and .. | .or .. | .nor .. | .slt .. | .sltu .. => 0x000007C0
  | .blez .. | .bgtz .. => 0x001F0000
  | .lui .. => 0x03E00000
  | .halt | .j _ | .jal _ | .beq .. | .bne .. | .addi .. | .addiu .. | .slti .. | .sltiu .. | .andi .. | .ori ..
  | .lw .. | .lbu .. | .lhu .. | .sb .. | .sh .. | .sw .. => 0

/-- `t` is `s` with `v` in register `rd`, discarded when `rd` is 0, and the program counter moved from `(pc, npc)` to `(npc, next)`
(R22, R130, R190); no other register, no byte of data memory and nothing else is changed. -/
def Effect (s t : State) (rd : RegNum) (v next : Word) : Prop :=
  (∀ r, t.reg r = if r = rd ∧ r ≠ 0 then v else s.reg r) ∧ t.regs[0] = s.regs[0] ∧ t.pc = s.npc ∧ t.npc = next ∧
    (∀ a, t.dataByte a = s.dataByte a) ∧ t = { s with regs := t.regs, pc := t.pc, npc := t.npc }

/-- Instruction `i` runs to completion in `s`: `v` goes to `rd` and control goes on in sequence. -/
def writes (i : Instr) (s : State) (rd : RegNum) (v : Word) : Prop := ∃ t, exec i s = .next t ∧ Effect s t rd v (s.npc + 4)

/-- Instruction `i` runs to completion in `s`, writes no register, and control goes to `next` after the instruction at `npc`. -/
def goesTo (i : Instr) (s : State) (next : Word) : Prop := ∃ t, exec i s = .next t ∧ Effect s t 0 0 next

/-- `t` is `s` with the exception taken: the program counter at `EXC_VECTOR` and nothing else changed, no register, no byte of data
memory, nothing saved (R285, R286). -/
def Trapped (s t : State) : Prop :=
  (∀ r, t.reg r = s.reg r) ∧ (∀ a, t.dataByte a = s.dataByte a) ∧
    t = { s with pc := s.cfg.excVector, npc := s.cfg.excVector + 4 }

/-- The `n` bytes of data memory from `a`, the byte at `a` the most significant (R54, R56). -/
def bigEndian (s : State) (a : Word) : Nat → Nat
  | 0 => 0
  | n + 1 => bigEndian s a n * 256 + (s.dataByte (a + BitVec.ofNat 32 n)).toNat

/-- `t` is `s` after a load of `v` into `rt`: no byte of data memory has another value, no instruction-side state changed (R56). -/
def Loaded (s t : State) (rt : RegNum) (v : Nat) : Prop :=
  (∀ r, t.reg r = if r = rt ∧ r ≠ 0 then BitVec.ofNat 32 v else s.reg r) ∧ t.regs[0] = s.regs[0] ∧ t.pc = s.npc ∧
    t.npc = s.npc + 4 ∧ (∀ a, t.dataByte a = s.dataByte a) ∧
    t = { s with regs := t.regs, pc := t.pc, npc := t.npc, dc := t.dc, mem := t.mem }

/-- `t` is `s` after a store of the low `8n` bits of `v` to `a`: the most significant of them goes to `a`, every byte of data memory
outside the `n` bytes from `a` and every register is as before (R57). -/
def StoredTo (s t : State) (a : Word) (n : Nat) (v : Word) : Prop :=
  (∀ k < n, t.dataByte (a + BitVec.ofNat 32 k) = v.extractLsb' (8 * (n - 1 - k)) 8) ∧
    (∀ x, (∀ k < n, x ≠ a + BitVec.ofNat 32 k) → t.dataByte x = s.dataByte x) ∧ (∀ r, t.reg r = s.reg r) ∧
    t.pc = s.npc ∧ t.npc = s.npc + 4 ∧ t = { s with pc := t.pc, npc := t.npc, dc := t.dc, mem := t.mem }

/-- Instruction `i` loads into `rt` the `n` bytes at `a`: in every run of it that ends in a next state, and it ends in one when the
store accepts every address. -/
def loads (i : Instr) (s : State) (rt : RegNum) (a : Word) (n : Nat) : Prop :=
  (∀ t, exec i s = .next t → Loaded s t rt (bigEndian s a n)) ∧ (acceptsAll s.cfg.memValid → ∃ t, exec i s = .next t)

/-- Instruction `i` stores the low `8n` bits of `v` at `a`, as `loads` says it of a load. -/
def stores (i : Instr) (s : State) (a : Word) (n : Nat) (v : Word) : Prop :=
  (∀ t, exec i s = .next t → StoredTo s t a n v) ∧ (acceptsAll s.cfg.memValid → ∃ t, exec i s = .next t)

/-- Every line of `IC` holds what the store holds: no byte that `IC` holds has been overwritten in the store since it was fetched
(R62, R64, R262 (a)). -/
abbrev State.codeCoherent (s : State) : Prop := s.ic.coherent s.cfg.icfg s.mem

/-- `i` is the load of `n` bytes at base register `rs` and displacement `imm` (R55, R172, R173, R174). -/
def loadsBytes (i : Instr) (n : Nat) (rs : RegNum) (imm : BitVec 16) : Prop :=
  ∃ rt, n = 4 ∧ i = .lw rt rs imm ∨ n = 2 ∧ i = .lhu rt rs imm ∨ n = 1 ∧ i = .lbu rt rs imm

/-- `i` is the store of the low `n` bytes of `rt` at base register `rs` and displacement `imm` (R55, R175, R176, R177). -/
def storesBytes (i : Instr) (n : Nat) (rt rs : RegNum) (imm : BitVec 16) : Prop :=
  n = 4 ∧ i = .sw rt rs imm ∨ n = 2 ∧ i = .sh rt rs imm ∨ n = 1 ∧ i = .sb rt rs imm

/-- `i` is a load or a store. -/
def accesses (i : Instr) : Prop := (∃ n rs imm, loadsBytes i n rs imm) ∨ ∃ n rt rs imm, storesBytes i n rt rs imm

/-- `i` is a control transfer (R13) other than `JAL`, so that it produces no value (R243). -/
def silentTransfer (i : Instr) : Prop :=
  (∃ rs rt imm, i = .beq rs rt imm ∨ i = .bne rs rt imm) ∨ (∃ rs imm, i = .blez rs imm ∨ i = .bgtz rs imm) ∨
    (∃ target, i = .j target) ∨ ∃ rs, i = .jr rs

/-- `c` holds a line for `a` whose latency has passed in tick `cycle`: case (a), *ready*, of R77. -/
def Cache.holdsReady (g : CacheConfig) (c : Cache) (cycle : Nat) (a : Word) : Prop :=
  ∃ w, c.find g a = some w ∧ (c.line (g.index a) w).readyAt ≤ cycle

/-- Way `w` of set `st` is valid and has been used after every other valid line of its set (R80). -/
def Cache.newest (c : Cache) (st w : Nat) : Prop :=
  (c.line st w).valid = true ∧
    ∀ v < (c.set st).length, v ≠ w → (c.line st v).valid = true → (c.line st v).lru < (c.line st w).lru

/-- The `n` bytes from `a` have been used one after the other (R80): of those in one set the line of the last is held and the newest. -/
def Cache.usedBytes (g : CacheConfig) (c : Cache) (a : Word) (n : Nat) : Prop :=
  ∀ k < n, (∀ j < n, k < j → g.index (a + BitVec.ofNat 32 j) ≠ g.index (a + BitVec.ofNat 32 k)) →
    ∃ w, c.find g (a + BitVec.ofNat 32 k) = some w ∧ c.newest (g.index (a + BitVec.ofNat 32 k)) w

/-- From `p` to `q` the line of `a`, in way `w`, stays its line and is the only one that may change; the store does not change. -/
def CacheStore.onlyLine (g : CacheConfig) (p q : CacheStore) (a : Word) (w : Nat) : Prop :=
  p.cache.find g a = some w ∧ q.cache.find g a = some w ∧ q.mem = p.mem ∧
    ∀ st v, st ≠ g.index a ∨ v ≠ w → q.cache.line st v = p.cache.line st v

/-- From `p` to `q` a read or a write of at least one byte from `a`, inside its block, hits (R78, R79). -/
def Cache.accessed (e : CacheEnv) (a : Word) (p q : CacheStore) : Prop :=
  firstByte e p.cache a = .ready ∧
    ((∃ n first r, 0 < n ∧ e.cfg.offset a + n ≤ e.cfg.blockSizeBytes ∧ Cache.read e a n first p = .ok r ∧ q = r.store) ∨
      ∃ bs first r, bs ≠ [] ∧ e.cfg.offset a + bs.length ≤ e.cfg.blockSizeBytes ∧ Cache.write e a bs first p = .ok r ∧ q = r.store)

/-- From `c` to `c'` lines are filled and bytes are put, and no line is used but by its fill (R79, R80): a line of `c'` is ready `L`
ticks after this one, as a fill leaves it, or it is a line of `c` with the same recency, its data and dirty flag apart. -/
def Cache.onlyFills (e : CacheEnv) (c c' : Cache) : Prop :=
  ∀ st, ∀ l ∈ c'.set st, l.readyAt = e.cycle + e.cfg.missLatencyCycles ∨
    ∃ l₀ ∈ c.set st, l = { l₀ with data := l.data, dirty := l.dirty }

/-- From `p` to `q` the line of `a` is filled into way `w` (R76): the line that was there is written back if it was valid and dirty,
then the way holds the block of the store, clean, ready `L` ticks later and the newest; no other line and no other byte changes. -/
def CacheStore.filled (e : CacheEnv) (a : Word) (p q : CacheStore) (w : Nat) : Prop :=
  q.cache.find e.cfg a = some w ∧ q.cache.newest (e.cfg.index a) w ∧
    q.cache.line (e.cfg.index a) w = ⟨true, false, e.cfg.tag a, (q.cache.line (e.cfg.index a) w).lru,
      e.cycle + e.cfg.missLatencyCycles,
      (byteAddresses e.cfg.blockSizeBytes (e.cfg.blockBase a)).map fun x => readByte q.mem x.toNat⟩ ∧
    (∀ st v, st ≠ e.cfg.index a ∨ v ≠ w → q.cache.line st v = p.cache.line st v) ∧
    ∀ x : Word, readByte q.mem x.toNat =
      if (p.cache.line (e.cfg.index a) w).valid = true ∧ (p.cache.line (e.cfg.index a) w).dirty = true ∧
          e.cfg.tag x = (p.cache.line (e.cfg.index a) w).tag ∧ e.cfg.index x = e.cfg.index a then
        (p.cache.line (e.cfg.index a) w).data.getD (e.cfg.offset x) 0
      else readByte p.mem x.toNat

/-- A live tick from `s` to `t`, with what its fetch stage (`f`) and its memory stage (`m`) answered (R220). -/
structure Ticked (s t : State) (f : FetchResult) (m : MemResult) : Prop where
  live : s.status = .notHalted
  fetch : s.writeBack.fetchStage = .ok f
  memory : s.writeBack.memoryStage f.side.mem = .ok m
  ends : tick s = .next t

/-- What the decode stage answers in the tick from `s` (R241), `f` being what its fetch answered. -/
def State.decoded (s : State) (f : FetchResult) : DecodeResult := s.writeBack.decodeStage f.word.isSome

/-- `ex_exc` in the tick from `s` (R243). -/
def State.overflows (s : State) : Bool := decide (s.writeBack.executeStage = .overflow)

end Sys2Proof.Machine
end

