-- ==== Sys2Proof/Certificates/Slice0/Obligations.lean ====
section
/-! DEFINITION. The statements for the provers, each from the numbered rules of `spec/` that its docstring cites. -/

open Sys2Proof Sys2Proof.Machine

/-! ## Encoding -/

/-- R106, R109: the decoder reads back every well-formed instruction, from its word and from its bytes in memory order. -/
def Obligations.DecodeEncodeAgree : Prop :=
  ∀ (hw : Word) (i : Instr) (rest : List Byte), i.wellFormed hw = true →
    decode hw (encode hw i) = .ok i ∧ decodeBytes hw (bytesOfWord (encode hw i) ++ rest) = .ok (i, rest)

/-- R111: a decoded word differs from its instruction's encoding in ignored bits alone, and decodes as the encoding does. -/
def Obligations.EncodeDecodeAgree : Prop :=
  ∀ (hw w : Word) (i : Instr), decode hw w = .ok i → i ≠ .halt →
    w &&& ~~~ignoredBits i = encode hw i ∧ (encode hw i ≠ hw → decode hw (encode hw i) = .ok i)

/-- R112: the illegal encodings are exactly the listed opcodes and function codes, and each raises in the decode stage. -/
def Obligations.IllegalWordsExactly : Prop :=
  ∀ (s : State) (w : Word) (fetchOk : Bool), s.ifid.word = w →
    (((s.decodeStage fetchOk).illegal = true ↔ ∃ e, decode s.cfg.haltWord w = .error e) ∧
      ((∃ e, decode s.cfg.haltWord w = .error e) ↔ w ≠ s.cfg.haltWord ∧
        (w.toNat / 2 ^ 26 ∈ [0x01, 0x0E] ∨ 0x10 ≤ w.toNat / 2 ^ 26 ∧ w.toNat / 2 ^ 26 ≤ 0x22 ∨
          w.toNat / 2 ^ 26 ∈ [0x26, 0x27, 0x2A] ∨ 0x2C ≤ w.toNat / 2 ^ 26 ∨
          w.toNat / 2 ^ 26 = 0 ∧ (w.toNat % 2 ^ 6 = 0x01 ∨ 0x03 ≤ w.toNat % 2 ^ 6 ∧ w.toNat % 2 ^ 6 ≤ 0x07 ∨
            0x09 ≤ w.toNat % 2 ^ 6 ∧ w.toNat % 2 ^ 6 ≤ 0x1F ∨ w.toNat % 2 ^ 6 ∈ [0x26, 0x28, 0x29] ∨
            0x2C ≤ w.toNat % 2 ^ 6))))

/-- R107: the whole-word sentinel test comes first; the sentinel has no destination and no sources, executes, accesses and
redirects nothing; the default sentinel steals no recognised encoding. -/
def Obligations.SentinelDrainsHarmlessly : Prop :=
  (∀ hw : Word, decode hw hw = .ok .halt ∧ destOfWord hw hw = 0 ∧ srcsOfWord hw hw = []) ∧
    (∀ (p : Word) (x : RegNum → Word), executor .halt p x = .none ∧ resolve .halt p x = none ∧ memAccess .halt = .none) ∧
    haltWordFree Config.haltWord = true

/-- R109: words written out from the encoding tables decode to their instructions under the default sentinel. -/
def Obligations.DecodedWordsOfTheTables : Prop :=
  decode Config.haltWord 0x00221820 = .ok (.add 3 1 2) ∧ decode Config.haltWord 0x00021902 = .ok (.srl 3 2 4) ∧
    decode Config.haltWord 0x03E00008 = .ok (.jr 31) ∧ decode Config.haltWord 0x0C000040 = .ok (.jal 0x40) ∧
    decode Config.haltWord 0x1420FFFE = .ok (.bne 1 0 0xFFFE) ∧ decode Config.haltWord 0x2022FFFD = .ok (.addi 2 1 0xFFFD) ∧
    decode Config.haltWord 0x3C017FFF = .ok (.lui 1 0x7FFF) ∧ decode Config.haltWord 0x94410002 = .ok (.lhu 1 2 2) ∧
    decode Config.haltWord 0xAC410004 = .ok (.sw 1 2 4) ∧ decode Config.haltWord 0xFEEDFEED = .ok .halt ∧
    decode Config.haltWord 0 = .ok (.sll 0 0 0)

/-! ## The register-format ALU instructions -/

/-- R131, R133: `ADD` and `SUB` write the exact integer result when it fits in 32 signed bits; otherwise they raise `Overflow`, which
the execute stage detects, whatever the destination. -/
def Obligations.AddSubExactOrOverflow : Prop :=
  encodedByFunct 0x20 (fun w => .add (fieldAt w 11 5) (fieldAt w 21 5) (fieldAt w 16 5)) ∧
    encodedByFunct 0x22 (fun w => .sub (fieldAt w 11 5) (fieldAt w 21 5) (fieldAt w 16 5)) ∧
    ∀ (s : State) (rd rs rt : RegNum) (p : Word),
      (if -2 ^ 31 ≤ (s.reg rs).toInt + (s.reg rt).toInt ∧ (s.reg rs).toInt + (s.reg rt).toInt < 2 ^ 31 then
        writes (.add rd rs rt) s rd (BitVec.ofInt 32 ((s.reg rs).toInt + (s.reg rt).toInt))
      else (∃ t, exec (.add rd rs rt) s = .next t ∧ Trapped s t) ∧ executor (.add rd rs rt) p s.reg = .overflow) ∧
      (if -2 ^ 31 ≤ (s.reg rs).toInt - (s.reg rt).toInt ∧ (s.reg rs).toInt - (s.reg rt).toInt < 2 ^ 31 then
        writes (.sub rd rs rt) s rd (BitVec.ofInt 32 ((s.reg rs).toInt - (s.reg rt).toInt))
      else (∃ t, exec (.sub rd rs rt) s = .next t ∧ Trapped s t) ∧ executor (.sub rd rs rt) p s.reg = .overflow)

/-- R132, R134: `ADDU` and `SUBU` write the sum and the difference modulo 2^32 and raise nothing. -/
def Obligations.AdduSubuModulo : Prop :=
  encodedByFunct 0x21 (fun w => .addu (fieldAt w 11 5) (fieldAt w 21 5) (fieldAt w 16 5)) ∧
    encodedByFunct 0x23 (fun w => .subu (fieldAt w 11 5) (fieldAt w 21 5) (fieldAt w 16 5)) ∧
    ∀ (s : State) (rd rs rt : RegNum),
      writes (.addu rd rs rt) s rd (BitVec.ofNat 32 ((s.reg rs).toNat + (s.reg rt).toNat)) ∧
        writes (.subu rd rs rt) s rd (BitVec.ofInt 32 ((s.reg rs).toNat - (s.reg rt).toNat : Int))

/-- R135, R136, R137: `AND`, `OR` and `NOR`, bit by bit. -/
def Obligations.BitwiseResults : Prop :=
  encodedByFunct 0x24 (fun w => .and (fieldAt w 11 5) (fieldAt w 21 5) (fieldAt w 16 5)) ∧
    encodedByFunct 0x25 (fun w => .or (fieldAt w 11 5) (fieldAt w 21 5) (fieldAt w 16 5)) ∧
    encodedByFunct 0x27 (fun w => .nor (fieldAt w 11 5) (fieldAt w 21 5) (fieldAt w 16 5)) ∧
    ∀ (s : State) (rd rs rt : RegNum), ∃ v₁ v₂ v₃ : Word,
      writes (.and rd rs rt) s rd v₁ ∧ writes (.or rd rs rt) s rd v₂ ∧ writes (.nor rd rs rt) s rd v₃ ∧
        ∀ k < 32, v₁.getLsbD k = ((s.reg rs).getLsbD k && (s.reg rt).getLsbD k) ∧
          v₂.getLsbD k = ((s.reg rs).getLsbD k || (s.reg rt).getLsbD k) ∧
          v₃.getLsbD k = !((s.reg rs).getLsbD k || (s.reg rt).getLsbD k)

/-- R138, R139: `SLT` and `SLTU` write exactly 0 or 1 by the signed and the unsigned comparison. -/
def Obligations.CompareResults : Prop :=
  encodedByFunct 0x2A (fun w => .slt (fieldAt w 11 5) (fieldAt w 21 5) (fieldAt w 16 5)) ∧
    encodedByFunct 0x2B (fun w => .sltu (fieldAt w 11 5) (fieldAt w 21 5) (fieldAt w 16 5)) ∧
    ∀ (s : State) (rd rs rt : RegNum),
      writes (.slt rd rs rt) s rd (if (s.reg rs).toInt < (s.reg rt).toInt then 1 else 0) ∧
        writes (.sltu rd rs rt) s rd (if (s.reg rs).toNat < (s.reg rt).toNat then 1 else 0)

/-- R140, R141: `SLL` and `SRL` multiply and divide the unsigned value by 2^sa. -/
def Obligations.ShiftResults : Prop :=
  encodedByFunct 0x00 (fun w => .sll (fieldAt w 11 5) (fieldAt w 16 5) (fieldAt w 6 5)) ∧
    encodedByFunct 0x02 (fun w => .srl (fieldAt w 11 5) (fieldAt w 16 5) (fieldAt w 6 5)) ∧
    ∀ (s : State) (rd rt sa : RegNum),
      writes (.sll rd rt sa) s rd (BitVec.ofNat 32 ((s.reg rt).toNat * 2 ^ sa.toNat)) ∧
        writes (.srl rd rt sa) s rd (BitVec.ofNat 32 ((s.reg rt).toNat / 2 ^ sa.toNat))

/-! ## The immediate-format ALU instructions -/

/-- R151: `ADDI` writes the exact sum with the signed immediate when it fits; otherwise it raises `Overflow` in `EX`. -/
def Obligations.AddiExactOrOverflow : Prop :=
  encodedByOpcode 0x08 (fun w => .addi (fieldAt w 16 5) (fieldAt w 21 5) (fieldAt w 0 16)) ∧
    ∀ (s : State) (rt rs : RegNum) (imm : BitVec 16) (p : Word),
      if -2 ^ 31 ≤ (s.reg rs).toInt + imm.toInt ∧ (s.reg rs).toInt + imm.toInt < 2 ^ 31 then
        writes (.addi rt rs imm) s rt (BitVec.ofInt 32 ((s.reg rs).toInt + imm.toInt))
      else (∃ t, exec (.addi rt rs imm) s = .next t ∧ Trapped s t) ∧ executor (.addi rt rs imm) p s.reg = .overflow

/-- R152: `ADDIU` adds the sign-extended immediate modulo 2^32 and raises nothing. -/
def Obligations.AddiuModulo : Prop :=
  encodedByOpcode 0x09 (fun w => .addiu (fieldAt w 16 5) (fieldAt w 21 5) (fieldAt w 0 16)) ∧
    ∀ (s : State) (rt rs : RegNum) (imm : BitVec 16),
      writes (.addiu rt rs imm) s rt (BitVec.ofInt 32 ((s.reg rs).toNat + imm.toInt))

/-- R153, R154: `ANDI` and `ORI` with the zero-extended immediate, bit by bit. -/
def Obligations.ImmediateBitwiseResults : Prop :=
  encodedByOpcode 0x0C (fun w => .andi (fieldAt w 16 5) (fieldAt w 21 5) (fieldAt w 0 16)) ∧
    encodedByOpcode 0x0D (fun w => .ori (fieldAt w 16 5) (fieldAt w 21 5) (fieldAt w 0 16)) ∧
    ∀ (s : State) (rt rs : RegNum) (imm : BitVec 16), ∃ v₁ v₂ : Word,
      writes (.andi rt rs imm) s rt v₁ ∧ writes (.ori rt rs imm) s rt v₂ ∧
        ∀ k < 32, v₁.getLsbD k = ((s.reg rs).getLsbD k && (decide (k < 16) && imm.getLsbD k)) ∧
          v₂.getLsbD k = ((s.reg rs).getLsbD k || (decide (k < 16) && imm.getLsbD k))

/-- R155, R156: `SLTI` compares with the signed immediate; `SLTIU` reads the sign-extended immediate as unsigned. -/
def Obligations.ImmediateCompareResults : Prop :=
  encodedByOpcode 0x0A (fun w => .slti (fieldAt w 16 5) (fieldAt w 21 5) (fieldAt w 0 16)) ∧
    encodedByOpcode 0x0B (fun w => .sltiu (fieldAt w 16 5) (fieldAt w 21 5) (fieldAt w 0 16)) ∧
    ∀ (s : State) (rt rs : RegNum) (imm : BitVec 16),
      writes (.slti rt rs imm) s rt (if (s.reg rs).toInt < imm.toInt then 1 else 0) ∧
        writes (.sltiu rt rs imm) s rt (if ((s.reg rs).toNat : Int) < imm.toInt % 2 ^ 32 then 1 else 0)

/-- R157: `LUI` puts the immediate in bits 31 to 16, zeros below; it has no source register. -/
def Obligations.LuiResult : Prop :=
  encodedByOpcode 0x0F (fun w => .lui (fieldAt w 16 5) (fieldAt w 0 16)) ∧
    ∀ (s : State) (rt : RegNum) (imm : BitVec 16),
      writes (.lui rt imm) s rt (BitVec.ofNat 32 (imm.toNat * 2 ^ 16)) ∧ srcsOf (.lui rt imm) = []

/-! ## Control transfers -/

/-- R191, R192: `BEQ` and `BNE` go to `pc + 4 + 4 * imm` after the delay slot when taken, on in sequence when not. -/
def Obligations.BranchOnEquality : Prop :=
  encodedByOpcode 0x04 (fun w => .beq (fieldAt w 21 5) (fieldAt w 16 5) (fieldAt w 0 16)) ∧
    encodedByOpcode 0x05 (fun w => .bne (fieldAt w 21 5) (fieldAt w 16 5) (fieldAt w 0 16)) ∧
    ∀ (s : State) (rs rt : RegNum) (imm : BitVec 16),
      goesTo (.beq rs rt imm) s
          (if (s.reg rs).toNat = (s.reg rt).toNat then BitVec.ofInt 32 (s.pc.toNat + 4 + 4 * imm.toInt) else s.npc + 4) ∧
        goesTo (.bne rs rt imm) s
          (if (s.reg rs).toNat = (s.reg rt).toNat then s.npc + 4 else BitVec.ofInt 32 (s.pc.toNat + 4 + 4 * imm.toInt))

/-- R193, R194: `BLEZ` and `BGTZ` by the sign of the register. -/
def Obligations.BranchOnSign : Prop :=
  encodedByOpcode 0x06 (fun w => .blez (fieldAt w 21 5) (fieldAt w 0 16)) ∧
    encodedByOpcode 0x07 (fun w => .bgtz (fieldAt w 21 5) (fieldAt w 0 16)) ∧
    ∀ (s : State) (rs : RegNum) (imm : BitVec 16),
      goesTo (.blez rs imm) s
          (if (s.reg rs).toInt ≤ 0 then BitVec.ofInt 32 (s.pc.toNat + 4 + 4 * imm.toInt) else s.npc + 4) ∧
        goesTo (.bgtz rs imm) s
          (if (s.reg rs).toInt ≤ 0 then s.npc + 4 else BitVec.ofInt 32 (s.pc.toNat + 4 + 4 * imm.toInt))

/-- R195, R196: `J` and `JAL` go to `target * 4` inside the 256 MiB region of the delay slot; `JAL` links `pc + 8` in `R31`. -/
def Obligations.JumpAndLink : Prop :=
  encodedByOpcode 0x02 (fun w => .j (fieldAt w 0 26)) ∧ encodedByOpcode 0x03 (fun w => .jal (fieldAt w 0 26)) ∧
    ∀ (s : State) (target : BitVec 26),
      goesTo (.j target) s (BitVec.ofNat 32 ((s.pc + 4).toNat / 2 ^ 28 * 2 ^ 28 + target.toNat * 4)) ∧
        ∃ t, exec (.jal target) s = .next t ∧
          Effect s t 31 (BitVec.ofNat 32 (s.pc.toNat + 8))
            (BitVec.ofNat 32 ((s.pc + 4).toNat / 2 ^ 28 * 2 ^ 28 + target.toNat * 4))

/-- R197, R199: `JR` goes to the register's value, all 32 bits, aligned or not; `JR R0` goes to address 0. -/
def Obligations.JumpRegister : Prop :=
  encodedByFunct 0x08 (fun w => .jr (fieldAt w 21 5)) ∧
    ∀ (s : State) (rs : RegNum), goesTo (.jr rs) s (if rs = 0 then 0 else s.regs[rs.toNat]'rs.isLt)

/-! ## The sentinel, the no-op, illegal words -/

/-- R210: the sentinel completes; no register and no byte of memory changes, nothing is fetched after it, the run is `HALTED`. Where
the program counter goes is the model's choice (log 26). -/
def Obligations.HaltEndsTheRun : Prop :=
  ∀ s : State, ∃ t, exec .halt s = .next t ∧ t.status = .halted ∧ t.haltSeen = true ∧ (∀ r, t.reg r = s.reg r) ∧
    t.regs[0] = s.regs[0] ∧ (∀ a, t.dataByte a = s.dataByte a) ∧ (∀ a, t.fetchByte a = s.fetchByte a) ∧
    t = { s with pc := t.pc, npc := t.npc, haltSeen := true, status := .halted } ∧
    (∀ u, instructionStep t = .next u → u = t) ∧ instructionStep t = .next t

/-- R212, R285: in the architectural view an illegal word takes the exception, with no effect on registers or memory. -/
def Obligations.IllegalWordTraps : Prop :=
  ∀ (s s' : State) (w : Word) (e : DecodeError), s.cfg.wellFormed = true → s.view = .instruction → s.status = .notHalted →
    s.fetchWhole = .ok (w, s') → decode s.cfg.haltWord w = .error e → ∃ t, step s = .next t ∧ Trapped s' t

/-! ## Loads and stores -/

/-- R172, R173, R174: `LW`, `LBU` and `LHU` write the zero-extended big-endian value of the bytes at base plus displacement. -/
def Obligations.LoadsReadDataMemory : Prop :=
  encodedByOpcode 0x23 (fun w => .lw (fieldAt w 16 5) (fieldAt w 21 5) (fieldAt w 0 16)) ∧
    encodedByOpcode 0x24 (fun w => .lbu (fieldAt w 16 5) (fieldAt w 21 5) (fieldAt w 0 16)) ∧
    encodedByOpcode 0x25 (fun w => .lhu (fieldAt w 16 5) (fieldAt w 21 5) (fieldAt w 0 16)) ∧
    ∀ (s : State) (rt rs : RegNum) (imm : BitVec 16), s.wf →
      effectiveAddress (s.reg rs) imm = BitVec.ofInt 32 ((s.reg rs).toNat + imm.toInt) ∧
        loads (.lw rt rs imm) s rt (effectiveAddress (s.reg rs) imm) 4 ∧
        loads (.lbu rt rs imm) s rt (effectiveAddress (s.reg rs) imm) 1 ∧
        loads (.lhu rt rs imm) s rt (effectiveAddress (s.reg rs) imm) 2

/-- R175, R176, R177: `SB`, `SH` and `SW` write the low bytes of the register at base plus displacement and no other byte. -/
def Obligations.StoresWriteDataMemory : Prop :=
  encodedByOpcode 0x28 (fun w => .sb (fieldAt w 16 5) (fieldAt w 21 5) (fieldAt w 0 16)) ∧
    encodedByOpcode 0x29 (fun w => .sh (fieldAt w 16 5) (fieldAt w 21 5) (fieldAt w 0 16)) ∧
    encodedByOpcode 0x2B (fun w => .sw (fieldAt w 16 5) (fieldAt w 21 5) (fieldAt w 0 16)) ∧
    ∀ (s : State) (rt rs : RegNum) (imm : BitVec 16), s.wf →
      effectiveAddress (s.reg rs) imm = BitVec.ofInt 32 ((s.reg rs).toNat + imm.toInt) ∧
        stores (.sb rt rs imm) s (effectiveAddress (s.reg rs) imm) 1 (s.reg rt) ∧
        stores (.sh rt rs imm) s (effectiveAddress (s.reg rs) imm) 2 (s.reg rt) ∧
        stores (.sw rt rs imm) s (effectiveAddress (s.reg rs) imm) 4 (s.reg rt)

/-- R54, R63 (a): after `SW` the same address read back gives the word, and each of its four bytes and three halves reads back as
big-endian placement puts it there, also through another base register. -/
def Obligations.StoredWordReadsBackBigEndian : Prop :=
  ∀ (s t u : State) (rt rs rd rb : RegNum) (imm off : BitVec 16), s.wf → exec (.sw rt rs imm) s = .next t → rd ≠ 0 →
    (effectiveAddress (s.reg rb) off = effectiveAddress (s.reg rs) imm → exec (.lw rd rb off) t = .next u → u.reg rd = s.reg rt) ∧
      (∀ k < 4, effectiveAddress (s.reg rb) off = effectiveAddress (s.reg rs) imm + BitVec.ofNat 32 k →
        exec (.lbu rd rb off) t = .next u → u.reg rd = (s.reg rt >>> (8 * (3 - k))) &&& 0xFF) ∧
      ∀ k < 3, effectiveAddress (s.reg rb) off = effectiveAddress (s.reg rs) imm + BitVec.ofNat 32 k →
        exec (.lhu rd rb off) t = .next u → u.reg rd = (s.reg rt >>> (8 * (2 - k))) &&& 0xFFFF

/-- R64, R178 (f): a store does not change what a fetch sees at an address that `IC` holds. -/
def Obligations.StoresDoNotReachCachedCode : Prop :=
  ∀ (s t : State) (rt rs : RegNum) (imm : BitVec 16) (a : Word),
    exec (.sb rt rs imm) s = .next t ∨ exec (.sh rt rs imm) s = .next t ∨ exec (.sw rt rs imm) s = .next t →
      s.ic.find s.cfg.icfg a ≠ none → t.fetchByte a = s.fetchByte a

/-! ## Rules about every instruction -/

/-- R110, R22: an instruction writes its `dest` register and no other, never register 0, and changes no latch, wait bit, view,
parameter or instruction-side state; only the sentinel changes `status` and `halt_seen`; only a load or store changes `DC`, its
counters with it, and the store. That `cycle` stands still in `exec` is the model's choice (log 2). -/
def Obligations.OnlyTheDestinationIsWritten : Prop :=
  ∀ (i : Instr) (s t : State), exec i s = .next t →
    (∀ r, r ≠ destOf i → t.reg r = s.reg r) ∧ t.regs[0] = s.regs[0] ∧ t.ic = s.ic ∧
      (memAccess i = .none → t.dc = s.dc ∧ t.mem = s.mem) ∧ (i ≠ .halt → t.status = s.status ∧ t.haltSeen = s.haltSeen) ∧
      t = { s with regs := t.regs, pc := t.pc, npc := t.npc, dc := t.dc, mem := t.mem, status := t.status, haltSeen := t.haltSeen }

/-- R110: a register that is neither a source nor the destination plays no part in what an instruction does. -/
def Obligations.UnreadRegisterPlaysNoPart : Prop :=
  ∀ (i : Instr) (s t : State) (r : RegNum) (v : Word), r ∉ srcsOf i → r ≠ destOf i → exec i s = .next t →
    exec i (s.setReg r v) = .next (t.setReg r v)

/-- R56, R57: only `SB`, `SH` and `SW` change a byte of data memory; a load moves lines between cache and store and changes none. -/
def Obligations.OnlyStoresChangeDataMemory : Prop :=
  ∀ (i : Instr) (s t : State), s.wf → (∀ sz rt rs imm, memAccess i ≠ .store sz rt rs imm) → exec i s = .next t →
    ∀ a, t.dataByte a = s.dataByte a

/-- R12, R242, R243: the tables of the decode and execute stages say what the instruction rules say: an instruction writes the
execute stage's result, raises when it signals overflow, and goes where the decode stage resolves it; the execute stage gives
no result exactly for loads, stores, the transfers other than `JAL`, and the sentinel. Where the program counter stands after the
sentinel (last clause, `i = halt`) is the model's choice (log 26). -/
def Obligations.StageTablesAgreeWithInstructionRules : Prop :=
  ∀ (i : Instr) (s t : State), exec i s = .next t →
    (executor i s.pc s.reg = .overflow → Trapped s t) ∧
      (executor i s.pc s.reg = .none ↔ i = .halt ∨ accesses i ∨ silentTransfer i) ∧
      (∀ v, executor i s.pc s.reg = .value v → destOf i ≠ 0 → t.reg (destOf i) = v) ∧
      (∀ target, resolve i s.pc s.reg = some target → t.pc = s.npc ∧ t.npc = target) ∧
      (resolve i s.pc s.reg = none → executor i s.pc s.reg ≠ .overflow → t.pc = s.npc ∧ t.npc = s.npc + 4)

/-! ## Reset, configuration, parameters -/

/-- R42, R310, R311: what `init` leaves, for every pair of valid cache configurations, every other parameter and every content of
the store. -/
def Obligations.ResetLeavesTheTable : Prop :=
  ∀ (cfg : CoreConfig) (mem : Memory), cfg.wellFormed = true → ∃ s, init cfg mem = .next s ∧
    (∀ r, s.reg r = 0) ∧ s.pc = 0 ∧ s.npc = 4 ∧ s.ifid = .bubble ∧ s.idex = .bubble ∧ s.exmem = .bubble ∧ s.memwb = .bubble ∧
    s.haltSeen = false ∧ s.status = .notHalted ∧ s.ifWait = false ∧ s.memWait = false ∧ s.cycle = 0 ∧
    (∀ ls ∈ s.ic.sets, ∀ l ∈ ls, l.valid = false ∧ l.dirty = false) ∧
    (∀ ls ∈ s.dc.sets, ∀ l ∈ ls, l.valid = false ∧ l.dirty = false) ∧
    s.ic.hits = 0 ∧ s.ic.misses = 0 ∧ s.dc.hits = 0 ∧ s.dc.misses = 0 ∧ s.mem = mem ∧ s.cfg = cfg

/-- R71, R313: `init` produces a core exactly for the valid configurations; a malformed one is no core and no step. -/
def Obligations.MalformedConfigurationIsNoCore : Prop :=
  (∀ g : CacheConfig, g.valid = true ↔
    (∃ o, g.blockSizeBytes = 2 ^ o ∧ g.totalSizeBytes % (2 ^ o * g.ways) = 0 ∧ 2 ^ o * g.ways ≤ g.totalSizeBytes ∧
      ∃ k, g.totalSizeBytes / (2 ^ o * g.ways) = 2 ^ k ∧ o + k ≤ 32)) ∧
    (∀ (cfg : CoreConfig) (mem : Memory), cfg.icfg.valid = false ∨ cfg.dcfg.valid = false →
      init cfg mem = .refused .malformedConfiguration) ∧
    ∀ s : State, s.cfg.wellFormed = false → step s = .refused .malformedConfiguration

/-- R43: no step changes the parameters, and none changes the view. -/
def Obligations.ParametersNeverChange : Prop :=
  ∀ s t : State, step s = .next t → t.cfg = s.cfg ∧ t.view = s.view

/-! ## The step -/

/-- R12, R190: in the architectural view, when the word that the fetch at the program counter gives decodes to `i`, the step is
`exec i` in the state the fetch leaves; in the cycle view the step is the tick. -/
def Obligations.StepRunsTheDecodedInstruction : Prop :=
  (∀ (s s' : State) (w : Word) (i : Instr), s.cfg.wellFormed = true → s.view = .instruction → s.status = .notHalted →
    s.fetchWhole = .ok (w, s') → decode s.cfg.haltWord w = .ok i →
      step s = exec i s' ∧ s'.pc = s.pc ∧ s'.npc = s.npc ∧ s' = { s with ic := s'.ic, mem := s'.mem }) ∧
    ∀ s : State, s.cfg.wellFormed = true → s.view = .cycle → step s = tick s

/-- R54, R59, R64: a fetch gives the four bytes that `IC` over the store shows at the program counter, the first the most
significant, whatever its low two bits; it changes no byte that fetches or loads see, nor the store. -/
def Obligations.FetchReadsTheCodeBytes : Prop :=
  ∀ s : State, s.wf → s.codeCoherent →
    (∀ w s', s.fetchWhole = .ok (w, s') →
      w = s.fetchByte s.pc ++ s.fetchByte (s.pc + 1) ++ s.fetchByte (s.pc + 2) ++ s.fetchByte (s.pc + 3) ∧
        s'.mem = s.mem ∧ (∀ a, s'.fetchByte a = s.fetchByte a) ∧ (∀ a, s'.dataByte a = s.dataByte a) ∧
        s' = { s with ic := s'.ic }) ∧
      (acceptsAll s.cfg.memValid → ∃ w s', s.fetchWhole = .ok (w, s'))

/-- R35, R36, R255: in `HALTED` and in `ABORTED` a step changes nothing, not even the cycle counter. -/
def Obligations.StoppedCoreIgnoresSteps : Prop :=
  ∀ s : State, s.cfg.wellFormed = true → s.status ≠ .notHalted → step s = .next s ∧ hostTick s = s

/-- R53, R296: a step faults only because the store refuses an address, in the cycle of the fault. -/
def Obligations.FaultsOnlyWhereTheStoreRefuses : Prop :=
  ∀ (s : State) (a : Word) (c : Nat), step s = .fault (.storeRefused a c) →
    memValidAt s.cfg.memValid a = false ∧ c = s.cycle ∧ s.status = .notHalted

/-- R258: with a store that accepts every address every step, tick and instruction answers a next state. -/
def Obligations.AcceptingStoreNeverStops : Prop :=
  ∀ s : State, acceptsAll s.cfg.memValid →
    isNext (tick s) = true ∧ isNext (instructionStep s) = true ∧ (s.cfg.wellFormed = true → isNext (step s) = true) ∧
      ∀ i, isNext (exec i s) = true

/-! ## Invariants -/

/-- R22, R42, R83, R263: what `init` leaves is well formed and keeps the invariants of the latches, for all parameters that it accepts
and every store; the reset state is one of these. -/
def Obligations.ResetIsWellFormed : Prop :=
  (∀ (cfg : CoreConfig) (mem : Memory), cfg.wellFormed = true → mem.wf →
    (State.initial cfg mem).wf ∧ (State.initial cfg mem).pipelineWf) ∧ State.reset.wf ∧ State.reset.pipelineWf

/-- R22, R62, R83, R263 (g), (h): every step, in either view, keeps the state well formed: register 0, the canonical store, the
cache invariants, a never dirty `IC`, the clean lines of `DC` as the store. -/
def Obligations.EveryStepKeepsTheStateWellFormed : Prop :=
  ∀ s t : State, s.wf → step s = .next t → t.wf

/-- R263 (a) to (f), (i): every tick keeps the invariants of the latches and the wait bit. -/
def Obligations.EveryTickKeepsThePipelineInvariants : Prop :=
  ∀ s t : State, s.cfg.wellFormed = true → s.pipelineWf → tick s = .next t → t.pipelineWf

/-- R264, R322: once a sentinel has been seen and no latch holds one, no tick halts the core or opens the fetch stage. -/
def Obligations.SquashedSentinelNeverHalts : Prop :=
  ∀ s t : State, s.cfg.wellFormed = true → s.haltSeen = true → s.sentinels = 0 → s.status = .notHalted → tick s = .next t →
    t.haltSeen = true ∧ t.sentinels = 0 ∧ t.status = .notHalted ∧ t.cycle = s.cycle + 1 ∧ t.ic = s.ic

/-! ## The tick -/

/-- R223, R256: the register file after a tick is the one before it but for the single write of `MEMWB`. -/
def Obligations.TickWritesOneRegister : Prop :=
  ∀ (s t : State) (f : FetchResult) (m : MemResult), Ticked s t f m →
    (∀ r, t.reg r = if r = s.memwb.dest ∧ r ≠ 0 then s.memwb.wval.getD (s.reg r) else s.reg r) ∧ t.regs[0] = s.regs[0]

/-- R255: every live tick counts, and `HALTED` follows exactly the sentinel in write-back. -/
def Obligations.TickCountsAndHalts : Prop :=
  ∀ (s t : State) (f : FetchResult) (m : MemResult), Ticked s t f m →
    t.cycle = s.cycle + 1 ∧ t.status = (if s.memwb.word = s.cfg.haltWord then .halted else .notHalted)

/-- R247, R248: `MEMWB'` and `mem_wait'`. -/
def Obligations.TickMemoryLatch : Prop :=
  ∀ (s t : State) (f : FetchResult) (m : MemResult), Ticked s t f m →
    t.memWait = m.stalls ∧ (m.stalls = true → t.memwb = .bubble) ∧
      (m.stalls = false → t.memwb.word = s.exmem.word ∧ t.memwb.pc = s.exmem.pc ∧ t.memwb.wval = m.result ∧
        (s.pipelineWf → t.memwb.dest = s.exmem.dest))

/-- R249, R253, R254: `EXMEM'`, `IDEX'` and `IFID'`, each with the first condition that holds (R246); R243: what the execute stage
answers is the Executor's outcome for the instruction in `IDEX`, at its own address, with the forwarded operands. -/
def Obligations.TickFrontLatches : Prop :=
  ∀ (s t : State) (f : FetchResult) (m : MemResult), Ticked s t f m →
    (∀ i, opOf s.cfg.haltWord s.idex.word = some i →
      s.writeBack.executeStage = executor i s.idex.pc s.writeBack.exOperand) ∧
    (opOf s.cfg.haltWord s.idex.word = none → s.writeBack.executeStage = .none) ∧
    (if m.stalls then t.exmem = s.exmem ∧ t.idex = s.idex ∧ t.ifid = s.ifid
    else if s.overflows then t.exmem = .bubble ∧ t.idex = .bubble ∧ t.ifid = .bubble
    else t.exmem.word = s.idex.word ∧ t.exmem.pc = s.idex.pc ∧
      t.exmem.dest = destOfWord s.cfg.haltWord s.idex.word ∧
      (∀ v, t.exmem.wval = some v ↔ s.writeBack.executeStage = .value v) ∧
      (if (s.decoded f).illegal then t.idex = .bubble ∧ t.ifid = .bubble
      else if (s.decoded f).stalls then t.idex = .bubble ∧ t.ifid = s.ifid
      else t.idex.word = s.ifid.word ∧ t.idex.pc = s.ifid.pc ∧ t.idex.wval = none ∧
        t.idex.dest = destOfWord s.cfg.haltWord s.ifid.word ∧
        (match f.word with
        | some w => t.ifid.word = w ∧ t.ifid.pc = s.pc ∧ t.ifid.wval = none ∧ t.ifid.dest = destOfWord s.cfg.haltWord w
        | none => t.ifid = .bubble)))

/-- R250: `PC'`, the complete next-PC function; R236, R237, R242: what the decode stage answers is the resolution of the instruction in
`IFID`, at its own address, with the forwarded operands, none under a branch-operand stall, and the wait for the delay slot. -/
def Obligations.TickProgramCounter : Prop :=
  ∀ (s t : State) (f : FetchResult) (m : MemResult), Ticked s t f m →
    ((s.decoded f).illegal = true ↔ opOf s.cfg.haltWord s.ifid.word = none) ∧
    (s.decoded f).taken = (if s.branchStall then none
      else (opOf s.cfg.haltWord s.ifid.word).bind fun i => resolve i s.ifid.pc s.writeBack.idOperand) ∧
    ((s.decoded f).slotWait = true ↔ (s.decoded f).taken.isSome = true ∧ f.word = none ∧ s.haltSeen = false) ∧
    (s.decoded f).stalls = (s.loadUse || s.branchStall || (s.decoded f).slotWait) ∧
    t.pc = if m.stalls then s.pc else if s.overflows || (s.decoded f).illegal then s.cfg.excVector
      else if (s.decoded f).stalls then s.pc
      else match (s.decoded f).taken with
        | some target => target
        | none => if f.word.isSome then s.pc + 4 else s.pc

/-- R251, R252: `halt_seen'` is set exactly when a sentinel is latched into `IFID`; `if_wait'` is false after a tick that changed
`PC`, true after a presented fetch that did not, and kept otherwise. -/
def Obligations.TickHaltSeenAndFetchWait : Prop :=
  ∀ (s t : State) (f : FetchResult) (m : MemResult), Ticked s t f m →
    (let advances := !m.stalls && !s.overflows && !(s.decoded f).illegal && !(s.decoded f).stalls
    t.haltSeen = (s.haltSeen || (advances && decide (f.word = some s.cfg.haltWord))) ∧
      t.ifWait = (if !m.stalls && (s.overflows || (s.decoded f).illegal) then false
        else if advances && (f.word.isSome || (s.decoded f).taken.isSome) then false
        else f.presented || s.ifWait))

/-- R240, R251: once the sentinel has been seen no fetch is made; until then each tick makes exactly one, at `PC`, counted when it is
the first presentation, and `IC` after the tick is what that read leaves. R54, R59, R64, R78: the word it delivers is the four bytes that fetches see at `PC`, the first the most
significant, and a byte that the store holds up to date and the tick does not store to is seen by fetches as before. -/
def Obligations.FetchStopsAtTheSentinel : Prop :=
  ∀ (s t : State) (f : FetchResult) (m : MemResult), Ticked s t f m →
    (s.haltSeen = true → f.presented = false ∧ f.word = none ∧ t.ic = s.ic) ∧
      (s.haltSeen = false → f.presented = true ∧
        t.ic.hits + t.ic.misses = s.ic.hits + s.ic.misses + (if s.ifWait then 0 else 1) ∧
        (f.word.isSome = true ↔ s.ic.holdsReady s.cfg.icfg s.cycle s.pc) ∧
        ∃ r, Cache.read s.icEnv s.pc 4 (!s.ifWait) s.fetchSide = .ok r ∧ t.ic = r.store.cache) ∧
      (s.wf → s.codeCoherent →
        (∀ w, f.word = some w →
          w = s.fetchByte s.pc ++ s.fetchByte (s.pc + 1) ++ s.fetchByte (s.pc + 2) ++ s.fetchByte (s.pc + 3)) ∧
        ∀ a, s.dataByte a = readByte s.mem a.toNat → t.dataByte a = s.dataByte a → t.fetchByte a = s.fetchByte a)

/-- R245: when the memory stage stalls and what it delivers. Nothing accessed: no stall, and `EXMEM.wval` passes through. A load or
store stalls unless `DC` holds a ready line for its address (R77) and is counted once (R82). A load that does not stall gives the
bytes of data memory; a store has its bytes in data memory when it does not stall, and already in the tick in which its line was
absent (R57, R79). No other byte changes. `DC` and the store after the tick are what that read or write leaves. -/
def Obligations.TickMemoryStage : Prop :=
  ∀ (s t : State) (f : FetchResult) (m : MemResult), s.wf → Ticked s t f m →
    ((∀ i, opOf s.cfg.haltWord s.exmem.word = some i → ¬ accesses i) →
      m.stalls = false ∧ m.result = s.exmem.wval ∧ t.dc = s.dc ∧ t.mem = s.mem) ∧
      (∀ i n rs imm, opOf s.cfg.haltWord s.exmem.word = some i → loadsBytes i n rs imm →
        (m.stalls = false ↔ s.dc.holdsReady s.cfg.dcfg s.cycle (effectiveAddress (s.writeBack.memOperand rs) imm)) ∧
          (∀ a, t.dataByte a = s.dataByte a) ∧
          (∃ r, Cache.read s.dcEnv (effectiveAddress (s.writeBack.memOperand rs) imm) n (!s.memWait) s.dataSide = .ok r ∧
            t.dc = r.store.cache ∧ t.mem = r.store.mem) ∧
          t.dc.hits + t.dc.misses = s.dc.hits + s.dc.misses + (if s.memWait then 0 else 1) ∧
          (m.stalls = false → m.result = some (BitVec.ofNat 32
            (bigEndian s (effectiveAddress (s.writeBack.memOperand rs) imm) n)))) ∧
      ∀ i n rt rs imm, opOf s.cfg.haltWord s.exmem.word = some i → storesBytes i n rt rs imm →
        (m.stalls = false ↔ s.dc.holdsReady s.cfg.dcfg s.cycle (effectiveAddress (s.writeBack.memOperand rs) imm)) ∧
          (∃ r, Cache.write s.dcEnv (effectiveAddress (s.writeBack.memOperand rs) imm)
              (bytesOfValue n (s.writeBack.memOperand rt)) (!s.memWait) s.dataSide = .ok r ∧
            t.dc = r.store.cache ∧ t.mem = r.store.mem) ∧
          t.dc.hits + t.dc.misses = s.dc.hits + s.dc.misses + (if s.memWait then 0 else 1) ∧ m.result = none ∧
          (m.stalls = false ∨ s.dc.find s.cfg.dcfg (effectiveAddress (s.writeBack.memOperand rs) imm) = none →
            ∀ k < n, t.dataByte (effectiveAddress (s.writeBack.memOperand rs) imm + BitVec.ofNat 32 k) =
              (s.writeBack.memOperand rt).extractLsb' (8 * (n - 1 - k)) 8) ∧
          ∀ x, (∀ k < n, x ≠ effectiveAddress (s.writeBack.memOperand rs) imm + BitVec.ofNat 32 k) →
            t.dataByte x = s.dataByte x

/-- R230, R231, R232, R233: the operands that decode, execute and memory use are the registers after the pending writes of the older
instructions: of `MEMWB` and `EXMEM` for decode and execute, of `MEMWB` for memory. -/
def Obligations.OperandsAreTheYoungestOlderWrites : Prop :=
  ∀ (s : State) (r : RegNum),
    s.writeBack.memOperand r = s.writeBack.reg r ∧
      s.writeBack.idOperand r = ({ s.writeBack with memwb := s.exmem }).writeBack.reg r ∧
      s.writeBack.exOperand r = ({ s.writeBack with memwb := s.exmem }).writeBack.reg r

/-- R234, R235: the two operand stalls, by the decoded instructions in the latches. -/
def Obligations.OperandStallConditions : Prop :=
  ∀ s : State,
    (s.loadUse = true ↔ s.idex.dest ≠ 0 ∧ ∃ i j, opOf s.cfg.haltWord s.idex.word = some i ∧
      opOf s.cfg.haltWord s.ifid.word = some j ∧ s.idex.dest ∈ srcsOf j ∧
      ∃ rt rs imm, i = .lw rt rs imm ∨ i = .lhu rt rs imm ∨ i = .lbu rt rs imm) ∧
      (s.branchStall = true ↔ ∃ j, opOf s.cfg.haltWord s.ifid.word = some j ∧
        (∃ rs rt imm, j = .beq rs rt imm ∨ j = .bne rs rt imm ∨ j = .blez rs imm ∨ j = .bgtz rs imm ∨ j = .jr rs) ∧
        ∃ r ∈ srcsOf j, r ≠ 0 ∧ (s.idex.dest = r ∨ s.exmem.dest = r ∧ ∃ i, opOf s.cfg.haltWord s.exmem.word = some i ∧
          ∃ rt rs imm, i = .lw rt rs imm ∨ i = .lhu rt rs imm ∨ i = .lbu rt rs imm))

/-- R236: in the states that R263 (d) describes a taken transfer never redirects in a tick whose fetch did not hit. -/
def Obligations.TakenTransferWaitsForItsDelaySlot : Prop :=
  ∀ (s t : State) (f : FetchResult) (m : MemResult), s.cfg.wellFormed = true → s.pipelineWf → Ticked s t f m →
    (s.decoded f).taken.isSome = true → f.word = none → (s.decoded f).slotWait = true ∧
      (m.stalls = false → s.overflows = false → t.pc = s.pc ∧ t.ifid = s.ifid ∧ t.idex = .bubble)

/-- R246, R284: an overflow in `EX` hides whatever the instruction in `ID` would have done, an illegal word and a taken branch alike;
the instruction in `MEM` completes. -/
def Obligations.OverflowSquashesTheYounger : Prop :=
  ∀ (s t : State) (f : FetchResult) (m : MemResult), Ticked s t f m → m.stalls = false → s.overflows = true →
    t.pc = s.cfg.excVector ∧ t.exmem = .bubble ∧ t.idex = .bubble ∧ t.ifid = .bubble ∧ t.ifWait = false ∧
      t.memwb.word = s.exmem.word ∧ t.memwb.wval = m.result ∧ t.haltSeen = s.haltSeen ∧
      (∀ r, t.reg r = s.writeBack.reg r)

/-- R281: an illegal word in `ID` is squashed with the word fetched behind it; the older instructions advance. -/
def Obligations.IllegalSquashesItsFollower : Prop :=
  ∀ (s t : State) (f : FetchResult) (m : MemResult), Ticked s t f m → m.stalls = false → s.overflows = false →
    opOf s.cfg.haltWord s.ifid.word = none →
      t.pc = s.cfg.excVector ∧ t.idex = .bubble ∧ t.ifid = .bubble ∧ t.ifWait = false ∧ t.haltSeen = s.haltSeen ∧
        t.exmem.word = s.idex.word ∧ t.memwb.word = s.exmem.word ∧ (∀ r, t.reg r = s.writeBack.reg r)

/-! ## The cache -/

/-- R82: one count for an access presented first, none for a retry; a hit counts as a hit, the rest as misses. -/
def Obligations.AccessesAreCountedOnce : Prop :=
  ∀ (e : CacheEnv) (a : Word) (n : Nat) (bs : List Byte) (first : Bool) (p : CacheStore),
    (∀ r, Cache.read e a n first p = .ok r →
      r.store.cache.hits = p.cache.hits + (if first = true ∧ r.value.isSome = true then 1 else 0) ∧
        r.store.cache.misses = p.cache.misses + (if first = true ∧ r.value.isSome = false then 1 else 0)) ∧
      ∀ r, Cache.write e a bs first p = .ok r →
        r.store.cache.hits = p.cache.hits + (if first = true ∧ r.status = .hit then 1 else 0) ∧
          r.store.cache.misses = p.cache.misses + (if first = true ∧ r.status = .miss then 1 else 0)

/-- R77, R78, R79, R80, R81: an access that finds its line absent answers miss, and the line it fills, for a read or for a write, is
pending before tick `e.cycle + L` and ready from then on; it uses no line that it does not fill. An access that finds its line pending
answers miss and changes nothing but the counter: not the store, no line, no `readyAt`, no recency; so it is no use and fills nothing
again. A write that stays inside its block leaves its line there; of one that spans blocks this is said when the line is still there
(log 20). -/
def Obligations.MissLatency : Prop :=
  (∀ (e : CacheEnv) (a : Word) (first : Bool) (p : CacheStore) (c : Nat),
    e.cfg.valid = true → p.cache.wf e.cfg → p.cache.find e.cfg a = none →
      (∀ n r, Cache.read e a n first p = .ok r → r.value = none ∧ Cache.onlyFills e p.cache r.store.cache ∧
        firstByte { e with cycle := c } r.store.cache a = if c < e.cycle + e.cfg.missLatencyCycles then .pending else .ready) ∧
      ∀ bs r, Cache.write e a bs first p = .ok r → r.status = .miss ∧ Cache.onlyFills e p.cache r.store.cache ∧
        (e.cfg.offset a + bs.length ≤ e.cfg.blockSizeBytes → r.store.cache.find e.cfg a ≠ none) ∧
        (r.store.cache.find e.cfg a ≠ none →
          firstByte { e with cycle := c } r.store.cache a =
            if c < e.cycle + e.cfg.missLatencyCycles then .pending else .ready)) ∧
    ∀ (e : CacheEnv) (a : Word) (first : Bool) (p : CacheStore), firstByte e p.cache a = .pending →
      (∀ n, ∃ r, Cache.read e a n first p = .ok r ∧ r.value = none ∧
        r.store = { p with cache := { p.cache with misses := p.cache.misses + if first then 1 else 0 } }) ∧
      ∀ bs, ∃ r, Cache.write e a bs first p = .ok r ∧ r.status = .miss ∧
        r.store = { p with cache := { p.cache with misses := p.cache.misses + if first then 1 else 0 } }

/-- R76, R78, R79, R80, R86 (b): the victim is the lowest-numbered invalid way if there is one; in a full set it is the line whose
last use is the oldest; the miss procedure writes the victim back if it is dirty and fills it and no other line. An access that hits
uses the line of each of its bytes; one inside its block changes no other line and not the store, and of its own line the recency
and, for a write, the data and the dirty flag. So of two ways used, or two lines accessed, one after the other the first is evicted. -/
def Obligations.VictimIsLeastRecentlyUsed : Prop :=
  (∀ (ls : List CacheLine) (w : Nat) (h : w < ls.length), ls[w].valid = false →
    (∀ (v : Nat) (hv : v < w), (ls[v]'(hv.trans h)).valid = true) → victimWay ls = w) ∧
    (∀ (ls : List CacheLine), ls ≠ [] → (∀ l ∈ ls, l.valid = true) →
      ∃ h : victimWay ls < ls.length, ∀ l ∈ ls, (ls[victimWay ls]).lru ≤ l.lru) ∧
    (∀ (g : CacheConfig) (c : Cache) (s v w : Nat), g.valid = true → g.associativityMode = .twoWay → c.wf g →
      s < c.sets.length → v < 2 → w < 2 → v ≠ w → (∀ l ∈ c.set s, l.valid = true) →
        victimWay (((c.use s v).use s w).set s) = v) ∧
    (∀ (e : CacheEnv) (a : Word) (p q : CacheStore), e.cfg.valid = true → p.cache.wf e.cfg → p.mem.wf →
      p.cache.find e.cfg a = none → missProc e a p = .ok q →
        p.filled e a q (victimWay (p.cache.set (e.cfg.index a)))) ∧
    (∀ (e : CacheEnv) (a : Word) (first : Bool) (p : CacheStore), e.cfg.valid = true → p.cache.wf e.cfg →
      firstByte e p.cache a = .ready →
        (∀ n r, Cache.read e a n first p = .ok r → r.value.isSome = true ∧ r.store.cache.usedBytes e.cfg a n ∧
          (e.cfg.offset a + n ≤ e.cfg.blockSizeBytes → ∃ w, p.onlyLine e.cfg r.store a w ∧
            r.store.cache.line (e.cfg.index a) w =
              { p.cache.line (e.cfg.index a) w with lru := (r.store.cache.line (e.cfg.index a) w).lru })) ∧
        ∀ bs r, Cache.write e a bs first p = .ok r → r.status = .hit ∧ r.store.cache.usedBytes e.cfg a bs.length ∧
          (e.cfg.offset a + bs.length ≤ e.cfg.blockSizeBytes → bs ≠ [] → ∃ w, p.onlyLine e.cfg r.store a w ∧
            r.store.cache.line (e.cfg.index a) w =
              { p.cache.line (e.cfg.index a) w with
                lru := (r.store.cache.line (e.cfg.index a) w).lru
                data := (r.store.cache.line (e.cfg.index a) w).data
                dirty := true })) ∧
    ∀ (e : CacheEnv) (c : Nat) (a b : Word) (p q r : CacheStore) (w : Nat), e.cfg.valid = true →
      e.cfg.associativityMode = .twoWay → p.cache.wf e.cfg → e.cfg.index b = e.cfg.index a → e.cfg.tag b ≠ e.cfg.tag a →
        p.cache.find e.cfg a = some w → Cache.accessed e a p q → Cache.accessed { e with cycle := c } b q r →
          victimWay (r.cache.set (e.cfg.index a)) = w

/-- R62, R84, R316: after the drains of `finalize` the store holds the data memory at every address, no valid line is dirty, and
nothing else is changed: every line of `DC` has its `valid`, `tag`, `lru`, `readyAt` and data, the counters and `IC`, the registers,
the program counter and the latches are as before. -/
def Obligations.DrainMakesTheStoreCurrent : Prop :=
  ∀ s t : State, s.wf → s.drained = .ok t →
    (∀ a : Word, readByte t.mem a.toNat = s.dataByte a) ∧ (∀ a, t.dataByte a = s.dataByte a) ∧
      (∀ ls ∈ t.dc.sets, ∀ l ∈ ls, l.valid = true → l.dirty = false) ∧
      (∀ k w, t.dc.line k w = { s.dc.line k w with dirty := (t.dc.line k w).dirty }) ∧
      t.dc = { s.dc with sets := t.dc.sets } ∧ t = { s with dc := t.dc, mem := t.mem } ∧ t.wf

/-! ## The host's operations -/

/-- R54, R60, R314: an image loaded sequentially is in the store big-endian, word after word, and no other byte is changed. -/
def Obligations.LoadedImageIsBigEndian : Prop :=
  ∀ (m : Memory) (a : Word) (ws : List Word), m.wf → a.toNat + 4 * ws.length ≤ 2 ^ 32 →
    (∀ k (h : k < ws.length), ∀ j < 4, readByte (loadWords m a ws) (a.toNat + 4 * k + j) = ws[k].extractLsb' (8 * (3 - j)) 8) ∧
      ∀ x < 2 ^ 32, (x < a.toNat ∨ a.toNat + 4 * ws.length ≤ x) → readByte (loadWords m a ws) x = readByte m x

/-- R36, R41, R53, R258: the host's tick is total: a refused store call ends the run `ABORTED` with its diagnostic, and
`runCycles N` is `N` such ticks, answering whether `HALTED` was reached. -/
def Obligations.HostRunsAndAborts : Prop :=
  (∀ (s : State) (a : Word) (c : Nat), tick s = .fault (.storeRefused a c) →
    (hostTick s).status = .aborted a c ∧ hostTick (hostTick s) = hostTick s) ∧
    ∀ (n : Nat) (s : State), (runCycles n s).1 = hostTick^[n] s ∧
      (runCycles n s).2 = decide ((hostTick^[n] s).status = .halted)
end

