-- ==== Sys2Proof/Laws/Geometry.lean ====
section
/-! SUPPORT. The arithmetic of the address slicing (R74): offset, index and tag of an address, and the address of a line. -/

namespace Sys2Proof

/-- What `CacheConfig.valid` says, as equations (R71). -/
theorem CacheConfig.valid_iff (g : CacheConfig) :
    g.valid = true ↔ g.blockSizeBytes = 2 ^ g.offsetBits ∧ g.totalSizeBytes % (g.blockSizeBytes * g.ways) = 0 ∧
      g.blockSizeBytes * g.ways ≤ g.totalSizeBytes ∧ g.numSets = 2 ^ g.indexBits ∧ g.offsetBits + g.indexBits ≤ 32 := by
  simp [CacheConfig.valid, and_assoc]

theorem CacheConfig.ways_pos (g : CacheConfig) : 0 < g.ways := by
  unfold CacheConfig.ways
  split <;> decide

theorem CacheConfig.index_lt (g : CacheConfig) (a : Word) : g.index a < 2 ^ g.indexBits :=
  Nat.mod_lt _ (Nat.two_pow_pos _)

theorem CacheConfig.offset_lt (g : CacheConfig) (a : Word) : g.offset a < 2 ^ g.offsetBits :=
  Nat.mod_lt _ (Nat.two_pow_pos _)

theorem CacheConfig.tag_lt {g : CacheConfig} (h : g.valid = true) (a : Word) :
    g.tag a < 2 ^ (32 - g.offsetBits - g.indexBits) := by
  have hb := ((valid_iff g).1 h).2.2.2.2
  unfold tag
  rw [Nat.div_lt_iff_lt_mul (Nat.two_pow_pos _), ← pow_add]
  have : 32 - g.offsetBits - g.indexBits + (g.offsetBits + g.indexBits) = 32 := by omega
  rw [this]
  exact a.isLt

/-- The address of a line, as a number: nothing wraps for a tag and a set number that fit (R74). -/
theorem CacheConfig.lineBase_toNat {g : CacheConfig} (h : g.valid = true) {t s : Nat}
    (ht : t < 2 ^ (32 - g.offsetBits - g.indexBits)) (hs : s < 2 ^ g.indexBits) :
    (g.lineBase t s).toNat = (t * 2 ^ g.indexBits + s) * 2 ^ g.offsetBits := by
  have hb := ((valid_iff g).1 h).2.2.2.2
  have hso : s <<< g.offsetBits < 2 ^ (g.offsetBits + g.indexBits) := by
    rw [Nat.shiftLeft_eq, pow_add, mul_comm]
    exact Nat.mul_lt_mul_of_pos_left hs (Nat.two_pow_pos _)
  have hor : t <<< (g.offsetBits + g.indexBits) ||| s <<< g.offsetBits
      = (t * 2 ^ g.indexBits + s) * 2 ^ g.offsetBits := by
    rw [← Nat.shiftLeft_add_eq_or_of_lt hso]
    simp only [Nat.shiftLeft_eq, pow_add]
    ring
  unfold lineBase
  rw [hor, BitVec.toNat_ofNat, Nat.mod_eq_of_lt]
  have h₁ : t * 2 ^ g.indexBits + s < 2 ^ (32 - g.offsetBits) := by
    have h₂ : 32 - g.offsetBits = (32 - g.offsetBits - g.indexBits) + g.indexBits := by omega
    rw [h₂, pow_add]
    calc t * 2 ^ g.indexBits + s < t * 2 ^ g.indexBits + 2 ^ g.indexBits := by omega
      _ = (t + 1) * 2 ^ g.indexBits := by ring
      _ ≤ _ := Nat.mul_le_mul_right _ ht
  have h₃ : (2 : Nat) ^ 32 = 2 ^ (32 - g.offsetBits) * 2 ^ g.offsetBits := by
    rw [← pow_add]
    congr 1
    omega
  rw [h₃]
  exact Nat.mul_lt_mul_of_pos_right h₁ (Nat.two_pow_pos _)

/-- An address is its tag, index and offset put together (R74). -/
theorem CacheConfig.toNat_slices (g : CacheConfig) (a : Word) :
    a.toNat = (g.tag a * 2 ^ g.indexBits + g.index a) * 2 ^ g.offsetBits + g.offset a := by
  unfold tag index offset
  have h₁ := Nat.div_add_mod a.toNat (2 ^ g.offsetBits)
  have h₂ := Nat.div_add_mod (a.toNat / 2 ^ g.offsetBits) (2 ^ g.indexBits)
  rw [Nat.div_div_eq_div_mul, ← pow_add] at h₂
  rw [mul_comm _ (2 ^ g.indexBits), h₂, mul_comm]
  exact h₁.symm

/-- The block of an address starts at the address of its line (R74). -/
theorem CacheConfig.blockBase_eq_lineBase {g : CacheConfig} (h : g.valid = true) (a : Word) :
    g.blockBase a = g.lineBase (g.tag a) (g.index a) := by
  apply BitVec.eq_of_toNat_eq
  rw [lineBase_toNat h (tag_lt h a) (index_lt g a)]
  have hs := toNat_slices g a
  have hd : a.toNat / 2 ^ g.offsetBits = g.tag a * 2 ^ g.indexBits + g.index a := by
    rw [hs, Nat.mul_comm, Nat.mul_add_div (Nat.two_pow_pos _), Nat.div_eq_of_lt (offset_lt g a), add_zero]
  unfold blockBase
  rw [hd, BitVec.toNat_ofNat, Nat.mod_eq_of_lt]
  have := a.isLt
  omega

/-- An address is its block's start plus its offset (R74). -/
theorem CacheConfig.blockBase_add_offset {g : CacheConfig} (h : g.valid = true) (a : Word) :
    (g.blockBase a).toNat + g.offset a = a.toNat := by
  rw [blockBase_eq_lineBase h, lineBase_toNat h (tag_lt h a) (index_lt g a)]
  exact (toNat_slices g a).symm

/-- The slices of the `k`-th byte of a line (R74). -/
theorem CacheConfig.slices_lineBase_add {g : CacheConfig} (h : g.valid = true) {t s k : Nat}
    (ht : t < 2 ^ (32 - g.offsetBits - g.indexBits)) (hs : s < 2 ^ g.indexBits) (hk : k < 2 ^ g.offsetBits) :
    g.tag (g.lineBase t s + BitVec.ofNat 32 k) = t ∧ g.index (g.lineBase t s + BitVec.ofNat 32 k) = s ∧
      g.offset (g.lineBase t s + BitVec.ofNat 32 k) = k := by
  have hb := ((valid_iff g).1 h).2.2.2.2
  have hbase := lineBase_toNat h ht hs
  have hlt : (t * 2 ^ g.indexBits + s) * 2 ^ g.offsetBits + k < 2 ^ 32 := by
    have h₁ : t * 2 ^ g.indexBits + s < 2 ^ (32 - g.offsetBits) := by
      have h₂ : 32 - g.offsetBits = (32 - g.offsetBits - g.indexBits) + g.indexBits := by omega
      rw [h₂, pow_add]
      calc t * 2 ^ g.indexBits + s < t * 2 ^ g.indexBits + 2 ^ g.indexBits := by omega
        _ = (t + 1) * 2 ^ g.indexBits := by ring
        _ ≤ _ := Nat.mul_le_mul_right _ ht
    have h₃ : (2 : Nat) ^ 32 = 2 ^ (32 - g.offsetBits) * 2 ^ g.offsetBits := by
      rw [← pow_add]
      congr 1
      omega
    rw [h₃]
    calc _ < (t * 2 ^ g.indexBits + s) * 2 ^ g.offsetBits + 2 ^ g.offsetBits := by omega
      _ = (t * 2 ^ g.indexBits + s + 1) * 2 ^ g.offsetBits := by ring
      _ ≤ _ := Nat.mul_le_mul_right _ h₁
  have hk32 : k < 2 ^ 32 := lt_of_le_of_lt (Nat.le_add_left _ _) hlt
  have hval : (g.lineBase t s + BitVec.ofNat 32 k).toNat = (t * 2 ^ g.indexBits + s) * 2 ^ g.offsetBits + k := by
    rw [BitVec.toNat_add, hbase, BitVec.toNat_ofNat, Nat.mod_eq_of_lt hk32, Nat.mod_eq_of_lt hlt]
  have hdiv : ((t * 2 ^ g.indexBits + s) * 2 ^ g.offsetBits + k) / 2 ^ g.offsetBits = t * 2 ^ g.indexBits + s := by
    rw [Nat.mul_comm, Nat.mul_add_div (Nat.two_pow_pos _), Nat.div_eq_of_lt hk, add_zero]
  refine ⟨?_, ?_, ?_⟩
  · unfold tag
    rw [hval, pow_add, ← Nat.div_div_eq_div_mul, hdiv, Nat.mul_comm, Nat.mul_add_div (Nat.two_pow_pos _),
      Nat.div_eq_of_lt hs, add_zero]
  · unfold index
    rw [hval, hdiv, Nat.mul_comm, Nat.mul_add_mod, Nat.mod_eq_of_lt hs]
  · unfold offset
    rw [hval, Nat.mul_comm, Nat.mul_add_mod, Nat.mod_eq_of_lt hk]

end Sys2Proof
end

