-- ==== Sys2Proof/Laws/Memory.lean ====
section
/-! SUPPORT. The laws of the store (R50, R51): read after write, canonical form, and that every memory operation keeps it. -/

namespace Sys2Proof.Machine

@[simp] theorem readByte_nil (a : Nat) : readByte [] a = unlistedByte := rfl

theorem readByte_eq_unlisted_of_lt {m : Memory} {a : Nat} (h : ∀ c ∈ m, a < c.1) : readByte m a = unlistedByte := by
  induction m with
  | nil => rfl
  | cons c m ih =>
    obtain ⟨a', b'⟩ := c
    have h₁ : a < a' := h _ (List.mem_cons_self ..)
    simp only [readByte, Nat.ne_of_lt h₁, if_false]
    exact ih fun c hc => h c (List.mem_cons_of_mem _ hc)

/-- A read after a write of the same address gives the byte written. -/
theorem readByte_writeByte_same {m : Memory} (h : m.wf) (a : Nat) (b : Byte) : readByte (writeByte m a b) a = b := by
  induction m with
  | nil => by_cases hb : b = unlistedByte <;> simp [writeByte, readByte, hb]
  | cons c m ih =>
    obtain ⟨a', b'⟩ := c
    obtain ⟨hp, hm⟩ := h
    rw [List.pairwise_cons] at hp
    have hwf : Memory.wf m := ⟨hp.2, fun c hc => hm c (List.mem_cons_of_mem _ hc)⟩
    have hlo : ∀ c ∈ m, a' < c.1 := fun c hc => hp.1 c hc
    unfold writeByte
    split
    · rename_i hlt
      split
      · rename_i hb
        rw [hb]
        refine readByte_eq_unlisted_of_lt fun c hc => ?_
        rcases List.mem_cons.1 hc with rfl | hc
        · exact hlt
        · exact lt_trans hlt (hlo c hc)
      · simp [readByte]
    · split
      · rename_i heq
        subst heq
        split
        · rename_i hb
          rw [hb]
          exact readByte_eq_unlisted_of_lt hlo
        · simp [readByte]
      · rename_i hne
        simp only [readByte, hne, if_false]
        exact ih hwf

/-- A write leaves every other address alone. -/
theorem readByte_writeByte_other (m : Memory) {a a₂ : Nat} (b : Byte) (h : a₂ ≠ a) :
    readByte (writeByte m a b) a₂ = readByte m a₂ := by
  induction m with
  | nil => by_cases hb : b = unlistedByte <;> simp [writeByte, readByte, hb, h]
  | cons c m ih =>
    obtain ⟨a', b'⟩ := c
    unfold writeByte
    split
    · split
      · rfl
      · simp [readByte, h]
    · split
      · rename_i heq
        subst heq
        split <;> simp [readByte, h]
      · simp only [readByte, ih]

theorem mem_writeByte {m : Memory} {a : Nat} {b : Byte} {c : Host.Cell} (h : c ∈ writeByte m a b) :
    c ∈ m ∨ (c = (a, b) ∧ b ≠ unlistedByte) := by
  induction m with
  | nil =>
    by_cases hb : b = unlistedByte
    · simp [writeByte, hb] at h
    · simp only [writeByte, hb, if_false, List.mem_singleton] at h
      exact .inr ⟨h, hb⟩
  | cons d m ih =>
    obtain ⟨a', b'⟩ := d
    unfold writeByte at h
    split at h
    · split at h
      · exact .inl h
      · rename_i hb
        rcases List.mem_cons.1 h with h | h
        · exact .inr ⟨h, hb⟩
        · exact .inl h
    · split at h
      · split at h
        · exact .inl (List.mem_cons_of_mem _ h)
        · rename_i hb
          rcases List.mem_cons.1 h with h | h
          · exact .inr ⟨h, hb⟩
          · exact .inl (List.mem_cons_of_mem _ h)
      · rcases List.mem_cons.1 h with h | h
        · exact .inl (h ▸ List.mem_cons_self ..)
        · rcases ih h with h | h
          · exact .inl (List.mem_cons_of_mem _ h)
          · exact .inr h

/-- A write keeps the canonical form. -/
theorem writeByte_wf {m : Memory} (h : m.wf) {a : Nat} (ha : a < 2 ^ 32) (b : Byte) : (writeByte m a b).wf := by
  refine ⟨?_, fun c hc => ?_⟩
  · obtain ⟨hp, -⟩ := h
    induction m with
    | nil => by_cases hb : b = unlistedByte <;> simp [writeByte, hb]
    | cons d m ih =>
      obtain ⟨a', b'⟩ := d
      have hp' := hp
      rw [List.pairwise_cons] at hp
      unfold writeByte
      split
      · rename_i hlt
        split
        · exact hp'
        · refine List.pairwise_cons.2 ⟨fun c hc => ?_, hp'⟩
          rcases List.mem_cons.1 hc with rfl | hc
          · exact hlt
          · exact lt_trans hlt (hp.1 c hc)
      · rename_i hge
        split
        · rename_i heq
          subst heq
          split
          · exact hp.2
          · exact List.pairwise_cons.2 ⟨hp.1, hp.2⟩
        · rename_i hne
          refine List.pairwise_cons.2 ⟨fun c hc => ?_, ih hp.2⟩
          rcases mem_writeByte hc with hc | ⟨rfl, -⟩
          · exact hp.1 c hc
          · exact lt_of_le_of_ne (not_lt.1 hge) fun h => hne h.symm
  · rcases mem_writeByte hc with hc | ⟨rfl, hb⟩
    · exact h.2 c hc
    · exact ⟨ha, hb⟩

/-- Writing a list of bytes keeps the canonical form. -/
theorem writeBytesAt_wf {m : Memory} (h : m.wf) (a : Word) (bs : List Byte) : (writeBytesAt m a bs).wf := by
  induction bs generalizing m a with
  | nil => exact h
  | cons b bs ih => exact ih (writeByte_wf h a.isLt b) _

/-- What `setValue` can do: it writes exactly the bytes, and only where the store accepts every one of them (R51). -/
theorem setValue_ok {valid : List Region} {m m' : Memory} {a : Word} {bs : List Byte} (h : setValue valid m a bs = .ok m') :
    firstRefused valid (byteAddresses bs.length a) = none ∧ m' = writeBytesAt m a bs := by
  unfold setValue at h
  split at h
  · cases h
  · rename_i hr
    exact ⟨hr, (Except.ok.inj h).symm⟩

/-- What `getValue` can do (R51). -/
theorem getValue_ok {valid : List Region} {m : Memory} {a : Word} {sz : AccessSize} {bs : List Byte}
    (h : getValue valid m a sz = .ok bs) :
    firstRefused valid (byteAddresses sz.bytes a) = none ∧ bs = (byteAddresses sz.bytes a).map fun x => readByte m x.toNat := by
  unfold getValue at h
  split at h
  · cases h
  · rename_i hr
    exact ⟨hr, (Except.ok.inj h).symm⟩

/-- `setValue` keeps the canonical form. -/
theorem setValue_wf {valid : List Region} {m m' : Memory} {a : Word} {bs : List Byte} (hm : m.wf)
    (h : setValue valid m a bs = .ok m') : m'.wf := (setValue_ok h).2 ▸ writeBytesAt_wf hm a bs

/-- What a block write-back can do: it writes the bytes at ascending addresses (R76). -/
theorem writeBlock_ok {valid : List Region} {m m' : Memory} {a : Word} {bs : List Byte} (h : writeBlock valid m a bs = .ok m') :
    m' = writeBytesAt m a bs := by
  induction bs generalizing m a with
  | nil => exact (Except.ok.inj h).symm
  | cons b bs ih =>
    unfold writeBlock at h
    split at h
    · cases h
    · rename_i m₁ h₁
      rw [ih h, (setValue_ok h₁).2]
      rfl

/-- A block write-back keeps the canonical form. -/
theorem writeBlock_wf {valid : List Region} {m m' : Memory} {a : Word} {bs : List Byte} (hm : m.wf)
    (h : writeBlock valid m a bs = .ok m') : m'.wf := writeBlock_ok h ▸ writeBytesAt_wf hm a bs

/-- What a block fill can do: it reads the bytes at ascending addresses (R76). -/
theorem fillBlock_ok {valid : List Region} {m : Memory} {n : Nat} {a : Word} {bs : List Byte}
    (h : fillBlock valid m n a = .ok bs) : bs = (byteAddresses n a).map fun x => readByte m x.toNat := by
  induction n generalizing a bs with
  | zero => exact (Except.ok.inj h).symm
  | succ n ih =>
    unfold fillBlock at h
    split at h
    · cases h
    · rename_i b hb
      split at h
      · cases h
      · rename_i rest hr
        rw [← Except.ok.inj h, ih hr, (getValue_ok hb).2]
        rfl

@[simp] theorem byteAddresses_length (n : Nat) (a : Word) : (byteAddresses n a).length = n := by
  induction n generalizing a with
  | zero => rfl
  | succ n ih => simp [byteAddresses, ih]

/-- A filled block has as many bytes as were asked for. -/
theorem fillBlock_length {valid : List Region} {m : Memory} {n : Nat} {a : Word} {bs : List Byte}
    (h : fillBlock valid m n a = .ok bs) : bs.length = n := by simp [fillBlock_ok h]

/-- A store that accepts every address refuses none. -/
theorem firstRefused_of_acceptsAll {valid : List Region} (h : acceptsAll valid) (as : List Word) :
    firstRefused valid as = none := by
  simp [firstRefused, List.find?_eq_none, h _]

/-- The canonical form of the store's contents right after reset. -/
theorem reset_mem_wf : State.reset.mem.wf := by decide

end Sys2Proof.Machine
end

