-- ==== Sys2Proof/Laws/Cache.lean ====
section
/-! SUPPORT. What each cache operation can do (R75 to R84), stated once, and that each keeps the store's canonical form. -/

namespace Sys2Proof.Machine

/-! ## Lines and sets -/

theorem Cache.set_setLine (c : Cache) (s w : Nat) (l : CacheLine) (s' : Nat) :
    (c.setLine s w l).set s' = if s' = s then (c.set s).set w l else c.set s' := by
  unfold Cache.setLine Cache.set
  by_cases h : s' = s
  · subst h
    by_cases hs : s' < c.sets.length
    · simp [List.getD_eq_getElem?_getD, hs]
    · have : c.sets.length ≤ s' := not_lt.1 hs
      simp [List.getD_eq_getElem?_getD, this]
  · simp [List.getD_eq_getElem?_getD, h, Ne.symm h]

theorem Cache.line_setLine_same (c : Cache) {s w : Nat} (l : CacheLine) (h : w < (c.set s).length) :
    (c.setLine s w l).line s w = l := by
  simp [Cache.line, Cache.set_setLine, List.getD_eq_getElem?_getD, h]

theorem Cache.line_setLine_other (c : Cache) {s w s' w' : Nat} (l : CacheLine) (h : s' ≠ s ∨ w' ≠ w) :
    (c.setLine s w l).line s' w' = c.line s' w' := by
  unfold Cache.line
  rw [Cache.set_setLine]
  split
  · rename_i hs
    subst hs
    have hw : w ≠ w' := by
      rcases h with h | h
      · exact absurd rfl h
      · exact h.symm
    simp [List.getD_eq_getElem?_getD, hw]
  · rfl

@[simp] theorem Cache.setLine_stamp (c : Cache) (s w : Nat) (l : CacheLine) : (c.setLine s w l).stamp = c.stamp := rfl
@[simp] theorem Cache.setLine_hits (c : Cache) (s w : Nat) (l : CacheLine) : (c.setLine s w l).hits = c.hits := rfl
@[simp] theorem Cache.setLine_misses (c : Cache) (s w : Nat) (l : CacheLine) : (c.setLine s w l).misses = c.misses := rfl
@[simp] theorem Cache.setLine_length (c : Cache) (s w : Nat) (l : CacheLine) :
    (c.setLine s w l).sets.length = c.sets.length := by simp [Cache.setLine]
@[simp] theorem Cache.use_stamp (c : Cache) (s w : Nat) : (c.use s w).stamp = c.stamp + 1 := rfl
@[simp] theorem Cache.use_hits (c : Cache) (s w : Nat) : (c.use s w).hits = c.hits := rfl
@[simp] theorem Cache.use_misses (c : Cache) (s w : Nat) : (c.use s w).misses = c.misses := rfl

/-- A use changes one line's recency marker (R80). -/
theorem Cache.set_use (c : Cache) (s w s' : Nat) :
    (c.use s w).set s' = if s' = s then (c.set s).set w { c.line s w with lru := c.stamp + 1 } else c.set s' :=
  Cache.set_setLine _ _ _ _ _

@[simp] theorem Cache.count_sets (c : Cache) (first : Bool) (st : AccessStatus) : (c.count first st).sets = c.sets := by
  cases st <;> cases first <;> rfl
@[simp] theorem Cache.count_stamp (c : Cache) (first : Bool) (st : AccessStatus) : (c.count first st).stamp = c.stamp := by
  cases st <;> cases first <;> rfl
@[simp] theorem Cache.countWhole_sets (g : CacheConfig) (c : Cache) (a : Word) : (c.countWhole g a).sets = c.sets :=
  Cache.count_sets ..
@[simp] theorem Cache.countWhole_stamp (g : CacheConfig) (c : Cache) (a : Word) : (c.countWhole g a).stamp = c.stamp :=
  Cache.count_stamp ..

/-- Lookup depends on the sets alone. -/
theorem Cache.find_congr {c c' : Cache} (h : c'.sets = c.sets) (g : CacheConfig) (a : Word) : c'.find g a = c.find g a := by
  simp [Cache.find, Cache.set, h]

/-- The byte a cache holds depends on the sets alone. -/
theorem Cache.byte?_congr {c c' : Cache} (h : c'.sets = c.sets) (g : CacheConfig) (a : Word) :
    c'.byte? g a = c.byte? g a := by
  simp [Cache.byte?, Cache.find, Cache.line, Cache.set, h]

/-- The byte seen through a cache depends on the sets and the store alone. -/
theorem seenByte_congr {p p' : CacheStore} (h : p'.cache.sets = p.cache.sets) (hm : p'.mem = p.mem) (g : CacheConfig) (a : Word) :
    seenByte g p' a = seenByte g p a := by simp [seenByte, Cache.byte?_congr h, hm]

/-- Counting an access changes no byte that is seen (R82). -/
@[simp] theorem seenByte_count (g : CacheConfig) (c : Cache) (m : Memory) (first : Bool) (st : AccessStatus) (a : Word) :
    seenByte g ⟨c.count first st, m⟩ a = seenByte g ⟨c, m⟩ a :=
  seenByte_congr (p := ⟨c, m⟩) (p' := ⟨c.count first st, m⟩) (Cache.count_sets c first st) rfl g a

/-- A found way is a way of the set, and its line holds the tag (R75). -/
theorem Cache.find_some {g : CacheConfig} {c : Cache} {a : Word} {w : Nat} (h : c.find g a = some w) :
    w < (c.set (g.index a)).length ∧ (c.line (g.index a) w).valid = true ∧ (c.line (g.index a) w).tag = g.tag a := by
  obtain ⟨hw, hp, -⟩ := List.findIdx?_eq_some_iff_getElem.1 h
  refine ⟨hw, ?_⟩
  have hl : c.line (g.index a) w = (c.set (g.index a))[w] := by simp [Cache.line, List.getD_eq_getElem?_getD, hw]
  rw [hl]
  simpa [CacheLine.holds] using hp

/-- Nothing is found exactly when no line of the set holds the tag (R75). -/
theorem Cache.find_none {g : CacheConfig} {c : Cache} {a : Word} :
    c.find g a = none ↔ ∀ l ∈ c.set (g.index a), l.valid = true → l.tag ≠ g.tag a := by
  simp [Cache.find, List.findIdx?_eq_none_iff, CacheLine.holds]

/-! ## What each operation can do -/

/-- What a victim's write-back can do (R76). -/
theorem writeBackLine_ok {e : CacheEnv} {s : Nat} {l : CacheLine} {m m' : Memory} (h : writeBackLine e s l m = .ok m') :
    m' = if l.valid && l.dirty then writeBytesAt m (e.cfg.lineBase l.tag s) l.data else m := by
  unfold writeBackLine at h
  split at h
  · rename_i hd
    rw [if_pos hd]
    exact writeBlock_ok h
  · rename_i hd
    rw [if_neg hd]
    exact (Except.ok.inj h).symm

/-- What the miss procedure can do (R76): the victim written back when dirty, its way filled from the store, and used. -/
theorem missProc_ok {e : CacheEnv} {a : Word} {p p' : CacheStore} (h : missProc e a p = .ok p') :
    let s := e.cfg.index a
    let w := victimWay (p.cache.set s)
    ∃ m block, writeBackLine e s (p.cache.line s w) p.mem = .ok m ∧
      fillBlock e.valid m e.cfg.blockSizeBytes (e.cfg.blockBase a) = .ok block ∧
      p' = ⟨(p.cache.setLine s w
        ⟨true, false, e.cfg.tag a, (p.cache.line s w).lru, e.cycle + e.cfg.missLatencyCycles, block⟩).use s w, m⟩ := by
  unfold missProc at h
  simp only at h
  split at h
  · cases h
  · rename_i m hm
    split at h
    · cases h
    · rename_i block hb
      exact ⟨m, block, hm, hb, (Except.ok.inj h).symm⟩

/-- What touching a byte's line can do: a use where it is present, the miss procedure where it is not (R78). -/
theorem touch_ok {e : CacheEnv} {a : Word} {p p' : CacheStore} (h : touch e a p = .ok p') :
    (∃ w, p.cache.find e.cfg a = some w ∧ p' = { p with cache := p.cache.use (e.cfg.index a) w }) ∨
      (p.cache.find e.cfg a = none ∧ missProc e a p = .ok p') := by
  unfold touch at h
  split at h
  · rename_i hf
    exact .inr ⟨hf, h⟩
  · rename_i w hf
    exact .inl ⟨w, hf, (Except.ok.inj h).symm⟩

/-- What making a byte's line present can do (R79). -/
theorem ensure_ok {e : CacheEnv} {a : Word} {p p' : CacheStore} (h : ensure e a p = .ok p') :
    ((∃ w, p.cache.find e.cfg a = some w) ∧ p' = p) ∨ (p.cache.find e.cfg a = none ∧ missProc e a p = .ok p') := by
  unfold ensure at h
  split at h
  · rename_i hf
    exact .inr ⟨hf, h⟩
  · rename_i w hf
    exact .inl ⟨⟨w, hf⟩, (Except.ok.inj h).symm⟩

/-- What reading `n + 1` bytes can do: the first byte's line is touched and read, then the rest (R78). -/
theorem readLoop_succ_ok {e : CacheEnv} {n : Nat} {a : Word} {p p' : CacheStore} {bs : List Byte}
    (h : readLoop e (n + 1) a p = .ok (bs, p')) :
    ∃ p₁ rest, touch e a p = .ok p₁ ∧ readLoop e n (a + 1) p₁ = .ok (rest, p') ∧
      bs = (p₁.cache.byte? e.cfg a).getD 0 :: rest := by
  unfold readLoop at h
  split at h
  · cases h
  · rename_i p₁ ht
    split at h
    · cases h
    · rename_i rest p₂ hr
      have h := Except.ok.inj h
      rw [Prod.mk.injEq] at h
      exact ⟨p₁, rest, ht, h.2 ▸ hr, h.1.symm⟩

/-- What writing bytes can do: the first byte's line is made present, the byte is put there, then the rest (R79). -/
theorem writeLoop_cons_ok {e : CacheEnv} {st : AccessStatus} {b : Byte} {bs : List Byte} {a : Word} {p p' : CacheStore}
    (h : writeLoop e st (b :: bs) a p = .ok p') :
    ∃ p₁, (if st = .hit then touch e a p else ensure e a p) = .ok p₁ ∧
      writeLoop e st bs (a + 1) { p₁ with cache := p₁.cache.putByte e.cfg a b } = .ok p' := by
  unfold writeLoop at h
  split at h
  · cases h
  · rename_i p₁ hp
    exact ⟨p₁, hp, h⟩

/-- What `read` can do: one of the three cases of R77 (R78). -/
theorem Cache.read_ok {e : CacheEnv} {a : Word} {n : Nat} {first : Bool} {p : CacheStore} {r : ReadResult}
    (h : Cache.read e a n first p = .ok r) :
    (firstByte e p.cache a = .pending ∧ r = ⟨{ p with cache := p.cache.count first .miss }, none⟩) ∨
    (firstByte e p.cache a = .absent ∧ r.value = none ∧
      missProc e a { p with cache := p.cache.count first .miss } = .ok r.store) ∨
    (firstByte e p.cache a = .ready ∧ ∃ bs, r.value = some bs ∧
      readLoop e n a { p with cache := p.cache.count first .hit } = .ok (bs, r.store)) := by
  unfold Cache.read at h
  split at h
  · rename_i hf
    exact .inl ⟨hf, (Except.ok.inj h).symm⟩
  · rename_i hf
    split at h
    · cases h
    · rename_i p' hp
      cases h
      exact .inr (.inl ⟨hf, rfl, hp⟩)
  · rename_i hf
    split at h
    · cases h
    · rename_i bs p' hp
      cases h
      exact .inr (.inr ⟨hf, bs, rfl, hp⟩)

/-- What `write` can do: one of the three cases of R77 (R79). -/
theorem Cache.write_ok {e : CacheEnv} {a : Word} {bs : List Byte} {first : Bool} {p : CacheStore} {r : WriteResult}
    (h : Cache.write e a bs first p = .ok r) :
    (firstByte e p.cache a = .pending ∧ r = ⟨{ p with cache := p.cache.count first .miss }, .miss⟩) ∨
    (firstByte e p.cache a = .absent ∧ r.status = .miss ∧ ∃ p₁,
      missProc e a { p with cache := p.cache.count first .miss } = .ok p₁ ∧ writeLoop e .miss bs a p₁ = .ok r.store) ∨
    (firstByte e p.cache a = .ready ∧ r.status = .hit ∧
      writeLoop e .hit bs a { p with cache := p.cache.count first .hit } = .ok r.store) := by
  unfold Cache.write at h
  split at h
  · rename_i hf
    exact .inl ⟨hf, (Except.ok.inj h).symm⟩
  · rename_i hf
    split at h
    · cases h
    · rename_i p₁ hp
      split at h
      · cases h
      · rename_i p₂ hw
        cases h
        exact .inr (.inl ⟨hf, rfl, p₁, hp, hw⟩)
  · rename_i hf
    split at h
    · cases h
    · rename_i p₁ hw
      cases h
      exact .inr (.inr ⟨hf, rfl, hw⟩)

/-! ## The store's canonical form -/

theorem missProc_mem_wf {e : CacheEnv} {a : Word} {p p' : CacheStore} (hm : p.mem.wf) (h : missProc e a p = .ok p') :
    p'.mem.wf := by
  obtain ⟨m, block, hw, -, rfl⟩ := missProc_ok h
  have := writeBackLine_ok hw
  split at this
  · exact this ▸ writeBytesAt_wf hm _ _
  · exact this ▸ hm

theorem touch_mem_wf {e : CacheEnv} {a : Word} {p p' : CacheStore} (hm : p.mem.wf) (h : touch e a p = .ok p') : p'.mem.wf := by
  rcases touch_ok h with ⟨w, -, rfl⟩ | ⟨-, h⟩
  · exact hm
  · exact missProc_mem_wf hm h

theorem ensure_mem_wf {e : CacheEnv} {a : Word} {p p' : CacheStore} (hm : p.mem.wf) (h : ensure e a p = .ok p') : p'.mem.wf := by
  rcases ensure_ok h with ⟨-, rfl⟩ | ⟨-, h⟩
  · exact hm
  · exact missProc_mem_wf hm h

theorem readLoop_mem_wf {e : CacheEnv} {n : Nat} {a : Word} {p p' : CacheStore} {bs : List Byte} (hm : p.mem.wf)
    (h : readLoop e n a p = .ok (bs, p')) : p'.mem.wf := by
  induction n generalizing a p bs with
  | zero =>
    have h := Except.ok.inj h
    rw [Prod.mk.injEq] at h
    exact h.2 ▸ hm
  | succ n ih =>
    obtain ⟨p₁, rest, ht, hr, -⟩ := readLoop_succ_ok h
    exact ih (touch_mem_wf hm ht) hr

theorem writeLoop_mem_wf {e : CacheEnv} {st : AccessStatus} {bs : List Byte} {a : Word} {p p' : CacheStore} (hm : p.mem.wf)
    (h : writeLoop e st bs a p = .ok p') : p'.mem.wf := by
  induction bs generalizing a p with
  | nil => exact Except.ok.inj h ▸ hm
  | cons b bs ih =>
    obtain ⟨p₁, hp, hw⟩ := writeLoop_cons_ok h
    have hm₁ : p₁.mem.wf := by
      split at hp
      · exact touch_mem_wf hm hp
      · exact ensure_mem_wf hm hp
    exact ih (p := { p₁ with cache := p₁.cache.putByte e.cfg a b }) hm₁ hw

theorem Cache.read_mem_wf {e : CacheEnv} {a : Word} {n : Nat} {first : Bool} {p : CacheStore} {r : ReadResult} (hm : p.mem.wf)
    (h : Cache.read e a n first p = .ok r) : r.store.mem.wf := by
  rcases Cache.read_ok h with ⟨-, rfl⟩ | ⟨-, -, h⟩ | ⟨-, bs, -, h⟩
  · exact hm
  · exact missProc_mem_wf (p := { p with cache := p.cache.count first .miss }) hm h
  · exact readLoop_mem_wf (p := { p with cache := p.cache.count first .hit }) hm h

theorem Cache.write_mem_wf {e : CacheEnv} {a : Word} {bs : List Byte} {first : Bool} {p : CacheStore} {r : WriteResult}
    (hm : p.mem.wf) (h : Cache.write e a bs first p = .ok r) : r.store.mem.wf := by
  rcases Cache.write_ok h with ⟨-, rfl⟩ | ⟨-, -, p₁, hp, hw⟩ | ⟨-, -, h⟩
  · exact hm
  · exact writeLoop_mem_wf (missProc_mem_wf (p := { p with cache := p.cache.count first .miss }) hm hp) hw
  · exact writeLoop_mem_wf (p := { p with cache := p.cache.count first .hit }) hm h

theorem Cache.serveRead_mem_wf {e : CacheEnv} {a : Word} {n : Nat} {p p' : CacheStore} {bs : List Byte} (hm : p.mem.wf)
    (h : Cache.serveRead e a n p = .ok (bs, p')) : p'.mem.wf :=
  readLoop_mem_wf (p := { p with cache := p.cache.countWhole e.cfg a }) hm h

theorem Cache.serveWrite_mem_wf {e : CacheEnv} {a : Word} {bs : List Byte} {p p' : CacheStore} (hm : p.mem.wf)
    (h : Cache.serveWrite e a bs p = .ok p') : p'.mem.wf :=
  writeLoop_mem_wf (p := { p with cache := p.cache.countWhole e.cfg a }) hm h

theorem drainWays_mem_wf {e : CacheEnv} {s : Nat} {ls ls' : List CacheLine} {m m' : Memory} (hm : m.wf)
    (h : drainWays e s ls m = .ok (ls', m')) : m'.wf := by
  induction ls generalizing m ls' with
  | nil =>
    have h := Except.ok.inj h
    rw [Prod.mk.injEq] at h
    exact h.2 ▸ hm
  | cons l ls ih =>
    unfold drainWays at h
    split at h
    · cases h
    · rename_i m₁ hw
      split at h
      · cases h
      · rename_i ls₁ m₂ hr
        have h := Except.ok.inj h
        rw [Prod.mk.injEq] at h
        obtain ⟨-, rfl⟩ := h
        have hm₁ : m₁.wf := by
          have := writeBackLine_ok hw
          split at this
          · exact this ▸ writeBytesAt_wf hm _ _
          · exact this ▸ hm
        exact ih hm₁ hr

theorem drainSets_mem_wf {e : CacheEnv} {s : Nat} {sets sets' : List (List CacheLine)} {m m' : Memory} (hm : m.wf)
    (h : drainSets e s sets m = .ok (sets', m')) : m'.wf := by
  induction sets generalizing s m sets' with
  | nil =>
    have h := Except.ok.inj h
    rw [Prod.mk.injEq] at h
    exact h.2 ▸ hm
  | cons ls sets ih =>
    unfold drainSets at h
    split at h
    · cases h
    · rename_i ls₁ m₁ hw
      split at h
      · cases h
      · rename_i sets₁ m₂ hr
        have h := Except.ok.inj h
        rw [Prod.mk.injEq] at h
        obtain ⟨-, rfl⟩ := h
        exact ih (drainWays_mem_wf hm hw) hr

/-- `drain` keeps the store's canonical form (R84). -/
theorem Cache.drain_mem_wf {e : CacheEnv} {p p' : CacheStore} (hm : p.mem.wf) (h : Cache.drain e p = .ok p') : p'.mem.wf := by
  unfold Cache.drain at h
  split at h
  · cases h
  · rename_i sets m hd
    exact Except.ok.inj h ▸ drainSets_mem_wf hm hd

/-- Loading an image keeps the store's canonical form (R60). -/
theorem loadWords_wf {m : Memory} (hm : m.wf) (a : Word) (ws : List Word) : (loadWords m a ws).wf := by
  induction ws generalizing m a with
  | nil => exact hm
  | cons w ws ih => exact ih (writeBytesAt_wf hm _ _) _

end Sys2Proof.Machine
end

