-- ==== Sys2Proof/Laws/CacheInvariant.lean ====
section
/-! SUPPORT. The cache is transparent: its operations keep the invariants of R83 and the bytes seen through it (R56, R62, R86). -/

namespace Sys2Proof.Machine

/-- What the laws below ask of a cache over its store: valid geometry, a canonical store, the invariants of R83, and clean lines
that hold what the store holds. -/
structure CacheStore.Sound (g : CacheConfig) (p : CacheStore) : Prop where
  valid : g.valid = true
  mem : p.mem.wf
  cache : p.cache.wf g
  coherent : p.cache.coherent g p.mem

/-! ## Sets and lines of a well-formed cache -/

theorem Cache.index_lt_sets {g : CacheConfig} {c : Cache} (hg : g.valid = true) (hc : c.wf g) (a : Word) :
    g.index a < c.sets.length := by
  rw [hc.1, ((CacheConfig.valid_iff g).1 hg).2.2.2.1]
  exact g.index_lt a

theorem Cache.waysWf_set {g : CacheConfig} {c : Cache} (hc : c.wf g) {s : Nat} (hs : s < c.sets.length) :
    waysWf g c.stamp (c.set s) := by
  have : c.set s = c.sets[s] := by simp [Cache.set, List.getD_eq_getElem?_getD, hs]
  rw [this]
  exact hc.2 _ (List.getElem_mem hs)

theorem Cache.line_eq_getElem (c : Cache) {s w : Nat} (h : w < (c.set s).length) : c.line s w = (c.set s)[w] := by
  simp [Cache.line, List.getD_eq_getElem?_getD, h]

theorem Cache.line_mem (c : Cache) {s w : Nat} (h : w < (c.set s).length) : c.line s w ∈ c.set s := by
  rw [c.line_eq_getElem h]
  exact List.getElem_mem h

/-- Two valid lines of one set with one tag are one line (R83). -/
theorem waysWf.tag_inj {g : CacheConfig} {st : Nat} {ls : List CacheLine} (h : waysWf g st ls) {i j : Nat} (hi : i < ls.length)
    (hj : j < ls.length) (vi : ls[i].valid = true) (vj : ls[j].valid = true) (ht : ls[i].tag = ls[j].tag) : i = j := by
  by_contra hne
  have hp := List.pairwise_iff_getElem.1 h.2.2
  rcases lt_or_gt_of_ne hne with hlt | hlt
  · exact (hp i j hi hj hlt vi vj).1 ht
  · exact (hp j i hj hi hlt vj vi).1 ht.symm

/-- The line that holds an address is the one found (R75, R83). -/
theorem Cache.find_eq_some {g : CacheConfig} {c : Cache} (hg : g.valid = true) (hc : c.wf g) {a : Word} {w : Nat}
    (hw : w < (c.set (g.index a)).length) (hv : (c.line (g.index a) w).valid = true)
    (ht : (c.line (g.index a) w).tag = g.tag a) : c.find g a = some w := by
  rcases hf : c.find g a with _ | w'
  · exact absurd ht (Cache.find_none.1 hf _ (c.line_mem hw) hv)
  · obtain ⟨hw', hv', ht'⟩ := Cache.find_some hf
    have hset := Cache.waysWf_set hc (Cache.index_lt_sets hg hc a)
    rw [c.line_eq_getElem hw] at hv ht
    rw [c.line_eq_getElem hw'] at hv' ht'
    rw [hset.tag_inj hw hw' hv hv' (ht.trans ht'.symm)]

/-- Replacing one line of a well-formed set. -/
theorem waysWf.set {g : CacheConfig} {st st' w : Nat} {ls : List CacheLine} {l : CacheLine} (h : waysWf g st ls) (hst : st ≤ st')
    (hl : l.wf g) (hlru : l.valid = true → l.lru ≤ st')
    (hsep : ∀ j (hj : j < ls.length), j ≠ w → ls[j].valid = true → l.valid = true → l.tag ≠ ls[j].tag ∧ l.lru ≠ ls[j].lru) :
    waysWf g st' (ls.set w l) := by
  refine ⟨by simpa using h.1, fun l' hl' => ?_, List.pairwise_iff_getElem.2 fun i j hi hj hij vi vj => ?_⟩
  · rcases List.mem_or_eq_of_mem_set hl' with hm | rfl
    · exact ⟨(h.2.1 l' hm).1, fun v => le_trans ((h.2.1 l' hm).2 v) hst⟩
    · exact ⟨hl, hlru⟩
  · rw [List.length_set] at hi hj
    rw [List.getElem_set] at vi vj
    simp only [List.getElem_set]
    by_cases hwi : w = i
    · have hwj : w ≠ j := by omega
      rw [if_pos hwi] at vi
      rw [if_neg hwj] at vj
      rw [if_pos hwi, if_neg hwj]
      exact hsep j hj (Ne.symm hwj) vj vi
    · by_cases hwj : w = j
      · rw [if_neg hwi] at vi
        rw [if_pos hwj] at vj
        rw [if_neg hwi, if_pos hwj]
        have := hsep i hi (Ne.symm hwi) vi vj
        exact ⟨this.1.symm, this.2.symm⟩
      · rw [if_neg hwi] at vi
        rw [if_neg hwj] at vj
        rw [if_neg hwi, if_neg hwj]
        exact List.pairwise_iff_getElem.1 h.2.2 i j hi hj hij vi vj

/-- A well-formed cache with one set replaced by a well-formed one. -/
theorem Cache.wf_setLine {g : CacheConfig} {c : Cache} {s w st' : Nat} {l : CacheLine} (hc : c.wf g) (hst : c.stamp ≤ st')
    (hw : waysWf g st' ((c.set s).set w l)) : ({ c with stamp := st' }.setLine s w l).wf g := by
  refine ⟨by simpa using hc.1, fun ls hls => ?_⟩
  rcases List.mem_or_eq_of_mem_set hls with hm | rfl
  · obtain ⟨h₁, h₂, h₃⟩ := hc.2 ls hm
    exact ⟨h₁, fun l' hl' => ⟨(h₂ l' hl').1, fun v => le_trans ((h₂ l' hl').2 v) hst⟩, h₃⟩
  · exact hw

/-! ## The bytes seen -/

/-- Lookup in a set depends on the `valid` and `tag` of its lines alone (R75). -/
theorem Cache.find_of_same_set {g : CacheConfig} {c c' : Cache} {a : Word}
    (hlen : (c'.set (g.index a)).length = (c.set (g.index a)).length)
    (h : ∀ w, (c'.line (g.index a) w).valid = (c.line (g.index a) w).valid ∧
      (c'.line (g.index a) w).tag = (c.line (g.index a) w).tag) : c'.find g a = c.find g a := by
  have hm : (c'.set (g.index a)).map (CacheLine.holds (g.tag a)) = (c.set (g.index a)).map (CacheLine.holds (g.tag a)) := by
    refine List.ext_getElem (by simp [hlen]) fun i hi hi' => ?_
    rw [List.length_map] at hi hi'
    have hl := h i
    rw [c'.line_eq_getElem hi, c.line_eq_getElem hi'] at hl
    simp [CacheLine.holds, hl.1, hl.2]
  have hfind : ∀ ls : List CacheLine, ls.findIdx? (CacheLine.holds (g.tag a)) =
      (ls.map (CacheLine.holds (g.tag a))).findIdx? id := fun ls => by simp [List.findIdx?_map]
  unfold Cache.find
  rw [hfind, hfind, hm]

/-- A cache that keeps every line's `valid`, `tag` and `data` keeps every byte (R75). -/
theorem Cache.byte?_of_same_lines {g : CacheConfig} {c c' : Cache} (hlen : ∀ s, (c'.set s).length = (c.set s).length)
    (h : ∀ s w, (c'.line s w).valid = (c.line s w).valid ∧ (c'.line s w).tag = (c.line s w).tag ∧
      (c'.line s w).data = (c.line s w).data) (a : Word) : c'.byte? g a = c.byte? g a := by
  unfold Cache.byte?
  rw [Cache.find_of_same_set (hlen _) fun w => ⟨(h _ w).1, (h _ w).2.1⟩]
  congr 1
  funext w
  rw [(h _ w).2.2]

/-! ## Use -/

theorem Cache.line_use (c : Cache) (s w s' w' : Nat) :
    (c.use s w).line s' w' = c.line s' w' ∨
      (c.use s w).line s' w' = { c.line s' w' with lru := c.stamp + 1 } := by
  unfold Cache.use
  by_cases hs : s' = s
  · by_cases hw : w' = w
    · subst hs hw
      by_cases hl : w' < (c.set s').length
      · exact .inr (Cache.line_setLine_same _ _ hl)
      · refine .inl ?_
        have h₁ : (c.set s').length ≤ w' := not_lt.1 hl
        simp only [Cache.line, Cache.set_setLine, if_true, List.getD_eq_getElem?_getD]
        show ((c.set s').set w' _)[w']?.getD default = _
        simp [h₁]
    · exact .inl (Cache.line_setLine_other _ _ (.inr hw))
  · exact .inl (Cache.line_setLine_other _ _ (.inl hs))

theorem Cache.use_byte? (g : CacheConfig) (c : Cache) (s w : Nat) (a : Word) : (c.use s w).byte? g a = c.byte? g a := by
  refine Cache.byte?_of_same_lines (fun s' => ?_) (fun s' w' => ?_) a
  · rw [Cache.set_use]
    split
    · rename_i h
      simp [h]
    · rfl
  · rcases c.line_use s w s' w' with h | h <;> simp [h]

theorem Cache.use_wf {g : CacheConfig} {c : Cache} {s w : Nat} (hc : c.wf g) (hs : s < c.sets.length)
    (hw : w < (c.set s).length) : (c.use s w).wf g := by
  have hset := Cache.waysWf_set hc hs
  refine Cache.wf_setLine hc (Nat.le_succ _) (hset.set (Nat.le_succ _) ?_ (fun _ => le_rfl) fun j hj hne vj vl => ?_)
  · exact (hset.2.1 _ (c.line_mem hw)).1
  · refine ⟨fun ht => hne ?_, ?_⟩
    · have hl := c.line_eq_getElem hw
      rw [hl] at vl ht
      exact (hset.tag_inj hw hj vl vj ht).symm
    · have := (hset.2.1 _ (List.getElem_mem hj)).2 vj
      simp only
      omega

theorem Cache.use_coherent {g : CacheConfig} {c : Cache} {m : Memory} {s w : Nat} (h : c.coherent g m)
    (hs : s < c.sets.length) (hw : w < (c.set s).length) : (c.use s w).coherent g m := by
  intro s' hs' l hl
  rw [Cache.set_use] at hl
  have hs'' : s' < c.sets.length := by simpa [Cache.use] using hs'
  split at hl
  · rename_i he
    subst he
    rcases List.mem_or_eq_of_mem_set hl with hm | rfl
    · exact h s' hs'' l hm
    · exact fun v d => h s' hs (c.line s' w) (c.line_mem hw) v d
  · exact h s' hs'' l hl

/-- A use of a found line keeps the cache sound (R80). -/
theorem CacheStore.Sound.use {g : CacheConfig} {p : CacheStore} (h : p.Sound g) {a : Word} {w : Nat}
    (hf : p.cache.find g a = some w) : CacheStore.Sound g { p with cache := p.cache.use (g.index a) w } :=
  have hs := Cache.index_lt_sets h.valid h.cache a
  have hw := (Cache.find_some hf).1
  ⟨h.valid, h.mem, Cache.use_wf h.cache hs hw, Cache.use_coherent h.coherent hs hw⟩

/-- Counting an access keeps the cache sound (R82). -/
theorem CacheStore.Sound.count {g : CacheConfig} {p : CacheStore} (h : p.Sound g) (first : Bool) (st : AccessStatus) :
    CacheStore.Sound g { p with cache := p.cache.count first st } := by
  refine ⟨h.valid, h.mem, ?_, ?_⟩
  · have := h.cache
    simpa [Cache.wf] using this
  · have := h.coherent
    simpa [Cache.coherent, Cache.set] using this

/-! ## The victim -/

theorem oldestWay_lt {N : Nat} : ∀ {ls : List CacheLine} {w : Nat} {best : Nat × Nat}, best.1 < N → w + ls.length ≤ N →
    oldestWay ls w best < N
  | [], _, _, hb, _ => hb
  | l :: ls, w, best, hb, hl => by
    unfold oldestWay
    simp only [List.length_cons] at hl
    refine oldestWay_lt ?_ (by omega)
    split
    · simp only
      omega
    · exact hb

/-- The victim is a way of the set (R76). -/
theorem victimWay_lt {ls : List CacheLine} (h : ls ≠ []) : victimWay ls < ls.length := by
  unfold victimWay
  split
  · rename_i w hw
    exact (List.findIdx?_eq_some_iff_getElem.1 hw).1
  · cases ls with
    | nil => exact absurd rfl h
    | cons l ls => exact oldestWay_lt (by simp) (by simp [Nat.add_comm])

/-! ## Blocks of addresses -/

theorem byteAddresses_getElem {n : Nat} : ∀ {a : Word} {k : Nat} (h : k < (byteAddresses n a).length),
    (byteAddresses n a)[k] = a + BitVec.ofNat 32 k := by
  induction n with
  | zero => intro a k h; simp at h
  | succ n ih =>
    intro a k h
    cases k with
    | zero => simp [byteAddresses]
    | succ k =>
      have h' : k < (byteAddresses n (a + 1)).length := by simpa using h
      have := ih h'
      simp only [byteAddresses, List.getElem_cons_succ, this]
      rw [BitVec.add_assoc]
      congr 1
      apply BitVec.eq_of_toNat_eq
      simp [Nat.add_comm]

theorem readByte_writeBytesAt_other {m : Memory} {bs : List Byte} {a x : Word}
    (h : ∀ k < bs.length, x ≠ a + BitVec.ofNat 32 k) : readByte (writeBytesAt m a bs) x.toNat = readByte m x.toNat := by
  induction bs generalizing m a with
  | nil => rfl
  | cons b bs ih =>
    have h0 : x ≠ a := by simpa using h 0 (by simp)
    unfold writeBytesAt
    rw [ih fun k hk => ?_]
    · exact readByte_writeByte_other _ _ fun he => h0 (BitVec.eq_of_toNat_eq he)
    · have := h (k + 1) (by simpa using hk)
      intro he
      apply this
      rw [he, BitVec.add_assoc]
      congr 1
      apply BitVec.eq_of_toNat_eq
      simp [Nat.add_comm]

theorem readByte_writeBytesAt_same {m : Memory} (hm : m.wf) {bs : List Byte} {a : Word} (hlen : bs.length ≤ 2 ^ 32) {k : Nat}
    (hk : k < bs.length) : readByte (writeBytesAt m a bs) (a + BitVec.ofNat 32 k).toNat = bs[k] := by
  induction bs generalizing m a k with
  | nil => simp at hk
  | cons b bs ih =>
    unfold writeBytesAt
    simp only [List.length_cons] at hlen hk
    cases k with
    | zero =>
      rw [readByte_writeBytesAt_other]
      · simp [readByte_writeByte_same hm]
      · intro j hj he
        have := congrArg BitVec.toNat he
        simp only [BitVec.toNat_add, BitVec.toNat_ofNat] at this
        have := a.isLt
        simp at *
        omega
    | succ k =>
      have := ih (writeByte_wf hm a.isLt b) (a := a + 1) (by omega) (k := k) (by omega)
      simp only [List.getElem_cons_succ]
      rw [← this]
      congr 2
      rw [BitVec.add_assoc]
      congr 1
      apply BitVec.eq_of_toNat_eq
      simp [Nat.add_comm]

end Sys2Proof.Machine
end

