-- ==== Sys2Proof/Laws/CacheTransparent.lean ====
section
/-! SUPPORT. What each access does to the bytes seen through a cache and to the invariants of R83 (R56, R57, R76 to R79). -/

namespace Sys2Proof.Machine

/-! ## The bytes of a line in the store -/

/-- An address is the address of its line plus its offset (R74). -/
theorem lineBase_add_offset {g : CacheConfig} (h : g.valid = true) (x : Word) :
    g.lineBase (g.tag x) (g.index x) + BitVec.ofNat 32 (g.offset x) = x := by
  apply BitVec.eq_of_toNat_eq
  have hb := CacheConfig.blockBase_add_offset h x
  rw [CacheConfig.blockBase_eq_lineBase h] at hb
  have hx := x.isLt
  rw [BitVec.toNat_add, BitVec.toNat_ofNat, Nat.mod_eq_of_lt (a := g.offset x) (by omega), hb, Nat.mod_eq_of_lt hx]

theorem offset_lt_block {g : CacheConfig} (h : g.valid = true) (x : Word) : g.offset x < g.blockSizeBytes := by
  rw [((CacheConfig.valid_iff g).1 h).1]
  exact g.offset_lt x

/-- The addresses of one block share their tag and index (R74). -/
theorem CacheConfig.slices_of_same_block {g : CacheConfig} (h : g.valid = true) (a : Word) {k : Nat}
    (hk : g.offset a + k < g.blockSizeBytes) :
    g.tag (a + BitVec.ofNat 32 k) = g.tag a ∧ g.index (a + BitVec.ofNat 32 k) = g.index a := by
  have hB := ((CacheConfig.valid_iff g).1 h).1
  have hs := CacheConfig.slices_lineBase_add h (CacheConfig.tag_lt h a) (g.index_lt a) (k := g.offset a + k) (by omega)
  have e : a + BitVec.ofNat 32 k = g.lineBase (g.tag a) (g.index a) + BitVec.ofNat 32 (g.offset a + k) := by
    conv_lhs => rw [← lineBase_add_offset h a]
    rw [BitVec.add_assoc, BitVec.ofNat_add]
  rw [e]
  exact ⟨hs.1, hs.2.1⟩

/-- What writing a line's block to the store does to each byte: exactly the line's bytes change (R76, R84). -/
theorem readByte_writeLine {g : CacheConfig} (hg : g.valid = true) {m : Memory} (hm : m.wf) {t s : Nat} {data : List Byte}
    (ht : t < 2 ^ (32 - g.offsetBits - g.indexBits)) (hs : s < 2 ^ g.indexBits) (hd : data.length = g.blockSizeBytes) (x : Word) :
    readByte (writeBytesAt m (g.lineBase t s) data) x.toNat =
      if g.tag x = t ∧ g.index x = s then data.getD (g.offset x) 0 else readByte m x.toNat := by
  have hB := ((CacheConfig.valid_iff g).1 hg).1
  split
  · rename_i h
    have ho : g.offset x < data.length := hd ▸ offset_lt_block hg x
    have hx := lineBase_add_offset hg x
    rw [h.1, h.2] at hx
    have hlen : data.length ≤ 2 ^ 32 := by
      rw [hd, hB]
      have := ((CacheConfig.valid_iff g).1 hg).2.2.2.2
      exact Nat.pow_le_pow_right (by decide) (by omega)
    have := readByte_writeBytesAt_same hm (a := g.lineBase t s) hlen ho
    rw [hx] at this
    rw [this]
    simp [List.getD_eq_getElem?_getD, ho]
  · rename_i h
    refine readByte_writeBytesAt_other fun k hk hx => h ?_
    have := CacheConfig.slices_lineBase_add hg ht hs (k := k) (by rw [← hB, ← hd]; exact hk)
    rw [← hx] at this
    exact ⟨this.1, this.2.1⟩

/-- A block of the store, byte by byte. -/
theorem getD_blockBytes {n k : Nat} (h : k < n) (m : Memory) (a : Word) (d : Byte) :
    ((byteAddresses n a).map fun x => readByte m x.toNat).getD k d = readByte m (a + BitVec.ofNat 32 k).toNat := by
  have hk : k < (byteAddresses n a).length := by simpa using h
  rw [List.getD_eq_getElem?_getD, List.getElem?_map, List.getElem?_eq_getElem hk]
  simp [byteAddresses_getElem hk]

theorem Cache.use_setLine (c : Cache) {s w : Nat} (l : CacheLine) (hw : w < (c.set s).length) :
    (c.setLine s w l).use s w = { c with stamp := c.stamp + 1 }.setLine s w { l with lru := c.stamp + 1 } := by
  have hs : s < c.sets.length := by
    by_contra hs
    simp [Cache.set, List.getD_eq_getElem?_getD, not_lt.1 hs] at hw
  have hset : (c.setLine s w l).set s = (c.set s).set w l := by rw [Cache.set_setLine, if_pos rfl]
  unfold Cache.use
  rw [c.line_setLine_same l hw]
  simp only [Cache.setLine, Cache.mk.injEq, and_true]
  have : ({ sets := c.sets.set s ((c.set s).set w l), stamp := c.stamp + 1, hits := c.hits, misses := c.misses } : Cache).set s
      = (c.set s).set w l := hset
  rw [this, List.set_set, List.set_set]
  rfl

theorem Cache.byte?_of_find {g : CacheConfig} {c : Cache} {x : Word} {w : Nat} (h : c.find g x = some w) :
    c.byte? g x = some ((c.line (g.index x) w).data.getD (g.offset x) 0) := by simp [Cache.byte?, h]

theorem seenByte_of_find {g : CacheConfig} {p : CacheStore} {x : Word} {w : Nat} (h : p.cache.find g x = some w) :
    seenByte g p x = (p.cache.line (g.index x) w).data.getD (g.offset x) 0 := by simp [seenByte, Cache.byte?_of_find h]

theorem seenByte_of_absent {g : CacheConfig} {p : CacheStore} {x : Word} (h : p.cache.find g x = none) :
    seenByte g p x = readByte p.mem x.toNat := by simp [seenByte, Cache.byte?, h]

/-- A valid clean line holds the bytes of the store (R62). -/
theorem CacheStore.Sound.clean_byte {g : CacheConfig} {p : CacheStore} (h : p.Sound g) {x : Word} {w : Nat}
    (hf : p.cache.find g x = some w) (hd : (p.cache.line (g.index x) w).dirty = false) :
    (p.cache.line (g.index x) w).data.getD (g.offset x) 0 = readByte p.mem x.toNat := by
  obtain ⟨hw, hv, ht⟩ := Cache.find_some hf
  rw [h.coherent _ (Cache.index_lt_sets h.valid h.cache x) _ (p.cache.line_mem hw) hv hd,
    getD_blockBytes (offset_lt_block h.valid x), ht, lineBase_add_offset h.valid]

/-- What a victim's write-back does to each byte of the store (R76). -/
theorem CacheStore.Sound.writeBack_byte {e : CacheEnv} {p : CacheStore} (h : p.Sound e.cfg) {s w : Nat} (hs : s < p.cache.sets.length)
    (hw : w < (p.cache.set s).length) {m : Memory} (hm : writeBackLine e s (p.cache.line s w) p.mem = .ok m) :
    m.wf ∧ ∀ x : Word, readByte m x.toNat =
      if (p.cache.line s w).valid = true ∧ (p.cache.line s w).dirty = true ∧ e.cfg.tag x = (p.cache.line s w).tag ∧
          e.cfg.index x = s then (p.cache.line s w).data.getD (e.cfg.offset x) 0 else readByte p.mem x.toNat := by
  have hl := (Cache.waysWf_set h.cache hs).2.1 _ (p.cache.line_mem hw)
  have hsi : s < 2 ^ e.cfg.indexBits := by
    rw [← ((CacheConfig.valid_iff e.cfg).1 h.valid).2.2.2.1, ← h.cache.1]
    exact hs
  have heq := writeBackLine_ok hm
  split at heq
  · rename_i hvd
    rw [Bool.and_eq_true] at hvd
    subst heq
    refine ⟨writeBytesAt_wf h.mem _ _, fun x => ?_⟩
    rw [readByte_writeLine h.valid h.mem (hl.1.2 hvd.1) hsi hl.1.1]
    simp [hvd.1, hvd.2]
  · rename_i hvd
    subst heq
    refine ⟨h.mem, fun x => ?_⟩
    rw [if_neg]
    rintro ⟨hv, hd, -⟩
    exact hvd (by simp [hv, hd])

/-- After a miss every line is one that was there, or is the one just filled, ready `L` ticks later (R77, R81). -/
theorem missProc_readyAt {e : CacheEnv} {a : Word} {p q : CacheStore} (h : missProc e a p = .ok q) (s : Nat) :
    ∀ l ∈ q.cache.set s, l ∈ p.cache.set s ∨ l.readyAt = e.cycle + e.cfg.missLatencyCycles := by
  obtain ⟨m, block, -, -, rfl⟩ := missProc_ok h
  intro l hl
  simp only [Cache.set_use, Cache.set_setLine] at hl
  by_cases hs : s = e.cfg.index a
  · subst hs
    simp only [if_true] at hl
    by_cases hw : victimWay (p.cache.set (e.cfg.index a)) < (p.cache.set (e.cfg.index a)).length
    · rw [Cache.line_setLine_same _ _ hw] at hl
      rcases List.mem_or_eq_of_mem_set hl with hl | rfl
      · rcases List.mem_or_eq_of_mem_set hl with hl | rfl
        · exact .inl hl
        · exact .inr rfl
      · exact .inr rfl
    · have hle := Nat.le_of_not_lt hw
      rw [List.set_eq_of_length_le (by simpa using hle), List.set_eq_of_length_le hle] at hl
      exact .inl hl
  · simp only [if_neg hs] at hl
    exact .inl hl

/-- The miss procedure keeps the invariants of R83. -/
theorem missProc_wf {e : CacheEnv} {a : Word} {p p' : CacheStore} (hg : e.cfg.valid = true) (hc : p.cache.wf e.cfg)
    (hf : p.cache.find e.cfg a = none) (hp : missProc e a p = .ok p') : p'.cache.wf e.cfg := by
  obtain ⟨m, block, -, hb, rfl⟩ := missProc_ok hp
  have hset := Cache.waysWf_set hc (Cache.index_lt_sets hg hc a)
  have hne : p.cache.set (e.cfg.index a) ≠ [] := by
    intro he
    have := hset.1
    rw [he] at this
    exact absurd this.symm (Nat.ne_of_gt e.cfg.ways_pos)
  have hw := victimWay_lt hne
  simp only
  rw [Cache.use_setLine _ _ hw]
  refine Cache.wf_setLine hc (Nat.le_succ _) (hset.set (Nat.le_succ _) ⟨fillBlock_length hb, fun _ => CacheConfig.tag_lt hg a⟩
    (fun _ => le_rfl) fun j hj hjw vj _ => ⟨(Cache.find_none.1 hf _ (List.getElem_mem hj) vj).symm, ?_⟩)
  have := (hset.2.1 _ (List.getElem_mem hj)).2 vj
  simp only
  omega

/-- What the miss procedure does: the cache stays sound, the address becomes present, and no byte seen changes (R56, R76, R83). -/
theorem missProc_sound {e : CacheEnv} {a : Word} {p p' : CacheStore} (h : p.Sound e.cfg) (hf : p.cache.find e.cfg a = none)
    (hp : missProc e a p = .ok p') :
    p'.Sound e.cfg ∧ (∃ w, p'.cache.find e.cfg a = some w) ∧ ∀ x, seenByte e.cfg p' x = seenByte e.cfg p x := by
  obtain ⟨m, block, hm, hb, rfl⟩ := missProc_ok hp
  set g := e.cfg with hgdef
  set s := g.index a with hsdef
  have hs : s < p.cache.sets.length := Cache.index_lt_sets h.valid h.cache a
  have hset := Cache.waysWf_set h.cache hs
  have hne : p.cache.set s ≠ [] := by
    intro he
    have := hset.1
    rw [he] at this
    exact absurd this.symm (Nat.ne_of_gt g.ways_pos)
  set w := victimWay (p.cache.set s) with hwdef
  have hw : w < (p.cache.set s).length := victimWay_lt hne
  set l₀ := p.cache.line s w with hl₀
  have hl₀m : l₀ ∈ p.cache.set s := p.cache.line_mem hw
  have hl₀e : l₀ = (p.cache.set s)[w] := p.cache.line_eq_getElem hw
  obtain ⟨hmwf, hmb⟩ := h.writeBack_byte hs hw hm
  have hblen : block.length = g.blockSizeBytes := fillBlock_length hb
  have hblock := fillBlock_ok hb
  rw [CacheConfig.blockBase_eq_lineBase h.valid] at hblock
  rw [Cache.use_setLine _ _ hw]
  set L : CacheLine := ⟨true, false, g.tag a, p.cache.stamp + 1, e.cycle + g.missLatencyCycles, block⟩ with hL
  have habs : ∀ l ∈ p.cache.set s, l.valid = true → l.tag ≠ g.tag a := Cache.find_none.1 hf
  -- the set after the fill
  have hwf : Cache.wf g ({ p.cache with stamp := p.cache.stamp + 1 }.setLine s w L) := by
    have := missProc_wf h.valid h.cache hf hp
    rwa [Cache.use_setLine _ _ hw] at this
  set c' : Cache := { p.cache with stamp := p.cache.stamp + 1 }.setLine s w L with hc'
  have hline : ∀ s' w', (s' ≠ s ∨ w' ≠ w) → c'.line s' w' = p.cache.line s' w' := fun s' w' hd =>
    Cache.line_setLine_other { p.cache with stamp := p.cache.stamp + 1 } L hd
  have hsets : ∀ s', c'.set s' = if s' = s then (p.cache.set s).set w L else p.cache.set s' := fun s' =>
    Cache.set_setLine { p.cache with stamp := p.cache.stamp + 1 } s w L s'
  have hlen : ∀ s', (c'.set s').length = (p.cache.set s').length := fun s' => by
    rw [hsets]
    split <;> simp [*]
  have hLline : c'.line s w = L := Cache.line_setLine_same { p.cache with stamp := p.cache.stamp + 1 } L hw
  have hfa : ∀ x, g.index x = s → g.tag x = g.tag a → c'.find g x = some w := by
    intro x hi ht
    refine Cache.find_eq_some h.valid hwf ?_ ?_ ?_
    · rw [hi, hlen]
      exact hw
    · rw [hi, hLline]
    · rw [hi, hLline, ht]
  have hother : ∀ x w', p.cache.find g x = some w' → (g.index x ≠ s ∨ w' ≠ w) → c'.find g x = some w' := by
    intro x w' hfx hd
    obtain ⟨hw', hv', ht'⟩ := Cache.find_some hfx
    refine Cache.find_eq_some h.valid hwf ?_ ?_ ?_
    · rw [hlen]
      exact hw'
    · rw [hline _ _ hd]
      exact hv'
    · rw [hline _ _ hd]
      exact ht'
  refine ⟨⟨h.valid, hmwf, hwf, ?_⟩, ⟨w, hfa a rfl rfl⟩, fun x => ?_⟩
  · -- coherence
    intro s' hs' l hl hv hd
    have hs'p : s' < p.cache.sets.length := by simpa [hc'] using hs'
    rw [hsets] at hl
    by_cases hss : s' = s
    · rw [if_pos hss] at hl
      obtain ⟨j, hj, rfl⟩ := List.getElem_of_mem hl
      rw [List.length_set] at hj
      by_cases hjw : w = j
      · simp only [List.getElem_set, if_pos hjw]
        simp only [hss, hL]
        exact hblock
      · simp only [List.getElem_set, if_neg hjw] at hv hd ⊢
        rw [hss, h.coherent s hs _ (List.getElem_mem hj) hv hd]
        refine List.map_congr_left fun y hy => ?_
        obtain ⟨k, hk, rfl⟩ := List.getElem_of_mem hy
        rw [byteAddresses_getElem hk]
        have hsi : s < 2 ^ g.indexBits := g.index_lt a
        have ht := (hset.2.1 _ (List.getElem_mem hj)).1.2 hv
        have hk' : k < 2 ^ g.offsetBits := by
          rw [← ((CacheConfig.valid_iff g).1 h.valid).1]
          simpa using hk
        have hsl := CacheConfig.slices_lineBase_add h.valid ht hsi hk'
        rw [hmb, if_neg]
        rintro ⟨v0, -, ht0, -⟩
        rw [hsl.1] at ht0
        rw [← hl₀, hl₀e] at ht0 v0
        exact hjw (hset.tag_inj hw hj v0 hv ht0.symm)
    · rw [if_neg hss] at hl
      rw [h.coherent s' hs'p _ hl hv hd]
      refine List.map_congr_left fun y hy => ?_
      obtain ⟨k, hk, rfl⟩ := List.getElem_of_mem hy
      rw [byteAddresses_getElem hk]
      have hsi : s' < 2 ^ g.indexBits := by
        rw [← ((CacheConfig.valid_iff g).1 h.valid).2.2.2.1, ← h.cache.1]
        exact hs'p
      have ht := ((Cache.waysWf_set h.cache hs'p).2.1 _ hl).1.2 hv
      have hk' : k < 2 ^ g.offsetBits := by
        rw [← ((CacheConfig.valid_iff g).1 h.valid).1]
        simpa using hk
      have hsl := CacheConfig.slices_lineBase_add h.valid ht hsi hk'
      rw [hmb, if_neg]
      rintro ⟨-, -, -, hi0⟩
      exact hss (hsl.2.1 ▸ hi0)
  · -- the bytes seen
    rcases hfx : p.cache.find g x with _ | w'
    · rw [seenByte_of_absent hfx]
      have hm' : readByte m x.toNat = readByte p.mem x.toNat := by
        rw [hmb, if_neg]
        rintro ⟨v0, -, ht0, hi0⟩
        exact Cache.find_none.1 hfx l₀ (hi0 ▸ hl₀m) v0 ht0.symm
      by_cases hxa : g.index x = s ∧ g.tag x = g.tag a
      · rw [seenByte_of_find (p := ⟨c', m⟩) (hfa x hxa.1 hxa.2)]
        simp only [hxa.1, hLline]
        have hb' : L.data = (byteAddresses g.blockSizeBytes (g.lineBase (g.tag a) s)).map fun y => readByte m y.toNat := hblock
        rw [hb', getD_blockBytes (offset_lt_block h.valid x), ← hxa.2, ← hxa.1, lineBase_add_offset h.valid, hm']
      · rw [seenByte_of_absent (p := ⟨c', m⟩), hm']
        refine Cache.find_none.2 fun l hl hv ht => ?_
        rw [hsets] at hl
        split at hl
        · rename_i hi
          rcases List.mem_or_eq_of_mem_set hl with hm1 | rfl
          · exact Cache.find_none.1 hfx l (hi ▸ hm1) hv ht
          · exact hxa ⟨hi, ht.symm⟩
        · exact Cache.find_none.1 hfx l hl hv ht
    · obtain ⟨hw', hv', ht'⟩ := Cache.find_some hfx
      by_cases hd : g.index x ≠ s ∨ w' ≠ w
      · rw [seenByte_of_find hfx, seenByte_of_find (p := ⟨c', m⟩) (hother x w' hfx hd)]
        simp only [hline _ _ hd]
      · obtain ⟨hi, rfl⟩ : g.index x = s ∧ w' = w := by
          constructor
          · by_contra hc
            exact hd (.inl hc)
          · by_contra hc
            exact hd (.inr hc)
        have hta : g.tag x ≠ g.tag a := by
          intro ht
          refine habs l₀ hl₀m ?_ ?_
          · rw [hl₀, ← hi]
            exact hv'
          · rw [hl₀, ← hi, ht', ht]
        have hnone : c'.find g x = none := by
          refine Cache.find_none.2 fun l hl hv ht => ?_
          rw [hsets, if_pos hi] at hl
          obtain ⟨j, hj, rfl⟩ := List.getElem_of_mem hl
          rw [List.length_set] at hj
          by_cases hjw : w = j
          · simp only [List.getElem_set, if_pos hjw, hL] at ht
            exact hta ht.symm
          · simp only [List.getElem_set, if_neg hjw] at hv ht
            refine hjw (hset.tag_inj hw hj ?_ hv ?_)
            · rw [← hl₀e, hl₀, ← hi]
              exact hv'
            · rw [← hl₀e, hl₀, ht, ← hi]
              exact ht'
        rw [seenByte_of_absent (p := ⟨c', m⟩) hnone, seenByte_of_find hfx]
        simp only
        rw [hmb]
        by_cases hdt : (p.cache.line (g.index x) w).dirty = true
        · rw [hi] at hv' ht' hdt
          rw [if_pos ⟨hv', hdt, ht'.symm, hi⟩, hi]
        · rw [if_neg, h.clean_byte hfx (by rwa [Bool.not_eq_true] at hdt)]
          rintro ⟨-, hd0, -⟩
          rw [hi] at hdt
          exact hdt hd0

/-- Touching a byte's line: sound, present, and no byte seen changes (R78). -/
theorem touch_sound {e : CacheEnv} {a : Word} {p p' : CacheStore} (h : p.Sound e.cfg) (hp : touch e a p = .ok p') :
    p'.Sound e.cfg ∧ (∃ w, p'.cache.find e.cfg a = some w) ∧ ∀ x, seenByte e.cfg p' x = seenByte e.cfg p x := by
  rcases touch_ok hp with ⟨w, hf, rfl⟩ | ⟨hf, hp⟩
  · refine ⟨h.use hf, ⟨w, ?_⟩, fun x => ?_⟩
    · obtain ⟨hw, hv, ht⟩ := Cache.find_some hf
      have hs := Cache.index_lt_sets h.valid h.cache a
      refine Cache.find_eq_some h.valid (h.use hf).cache ?_ ?_ ?_
      · simpa [Cache.set_use] using hw
      · rcases p.cache.line_use (e.cfg.index a) w (e.cfg.index a) w with hl | hl <;> simp only [hl] <;> exact hv
      · rcases p.cache.line_use (e.cfg.index a) w (e.cfg.index a) w with hl | hl <;> simp only [hl] <;> exact ht
    · simp only [seenByte, Cache.use_byte?]
  · exact missProc_sound h hf hp

/-- Making a byte's line present: as `touch` (R79). -/
theorem ensure_sound {e : CacheEnv} {a : Word} {p p' : CacheStore} (h : p.Sound e.cfg) (hp : ensure e a p = .ok p') :
    p'.Sound e.cfg ∧ (∃ w, p'.cache.find e.cfg a = some w) ∧ ∀ x, seenByte e.cfg p' x = seenByte e.cfg p x := by
  rcases ensure_ok hp with ⟨hf, rfl⟩ | ⟨hf, hp⟩
  · exact ⟨h, hf, fun _ => rfl⟩
  · exact missProc_sound h hf hp

/-- Putting a byte in its line: sound, and exactly that byte changes (R57, R79). -/
theorem putByte_sound {g : CacheConfig} {p : CacheStore} (h : p.Sound g) {a : Word} {w : Nat}
    (hf : p.cache.find g a = some w) (b : Byte) :
    CacheStore.Sound g { p with cache := p.cache.putByte g a b } ∧
      ∀ x, seenByte g { p with cache := p.cache.putByte g a b } x = if x = a then b else seenByte g p x := by
  obtain ⟨hw, hv, ht⟩ := Cache.find_some hf
  have hs := Cache.index_lt_sets h.valid h.cache a
  have hset := Cache.waysWf_set h.cache hs
  set s := g.index a with hsdef
  set l₀ := p.cache.line s w with hl₀
  have hl₀m := p.cache.line_mem hw
  have hl₀e := p.cache.line_eq_getElem hw
  have hl₀w := hset.2.1 _ hl₀m
  set L : CacheLine := { l₀ with data := l₀.data.set (g.offset a) b, dirty := true } with hL
  have hput : p.cache.putByte g a b = p.cache.setLine s w L := by simp [Cache.putByte, hf, hL, hl₀, hsdef]
  rw [hput]
  have hwf : Cache.wf g (p.cache.setLine s w L) := by
    refine Cache.wf_setLine (st' := p.cache.stamp) h.cache le_rfl (hset.set le_rfl ⟨?_, hl₀w.1.2⟩ hl₀w.2 fun j hj hjw vj vL => ?_)
    · simpa [hL] using hl₀w.1.1
    · have hp := List.pairwise_iff_getElem.1 hset.2.2
      have vl : (p.cache.set s)[w].valid = true := hl₀e ▸ vL
      simp only [hL, hl₀, hl₀e]
      rcases lt_or_gt_of_ne hjw with hlt | hlt
      · exact ⟨(hp j w hj hw hlt vj vl).1.symm, (hp j w hj hw hlt vj vl).2.symm⟩
      · exact hp w j hw hj hlt vl vj
  have hsets : ∀ s', (p.cache.setLine s w L).set s' = if s' = s then (p.cache.set s).set w L else p.cache.set s' :=
    fun s' => p.cache.set_setLine s w L s'
  have hLline : (p.cache.setLine s w L).line s w = L := p.cache.line_setLine_same L hw
  have hlineVT : ∀ s' w', ((p.cache.setLine s w L).line s' w').valid = (p.cache.line s' w').valid ∧
      ((p.cache.setLine s w L).line s' w').tag = (p.cache.line s' w').tag := by
    intro s' w'
    by_cases hd : s' = s ∧ w' = w
    · rw [hd.1, hd.2, hLline]
      exact ⟨rfl, rfl⟩
    · rw [p.cache.line_setLine_other L (by
        by_cases hs' : s' = s
        · exact .inr fun hw' => hd ⟨hs', hw'⟩
        · exact .inl hs')]
      exact ⟨rfl, rfl⟩
  have hlen : ∀ s', ((p.cache.setLine s w L).set s').length = (p.cache.set s').length := fun s' => by
    rw [hsets]
    split <;> simp [*]
  have hfind : ∀ x, (p.cache.setLine s w L).find g x = p.cache.find g x := by
    intro x
    rcases hx : p.cache.find g x with _ | w'
    · rcases hx' : (p.cache.setLine s w L).find g x with _ | w''
      · rfl
      · obtain ⟨h1, h2, h3⟩ := Cache.find_some hx'
        rw [hlen] at h1
        rw [(hlineVT _ _).1] at h2
        rw [(hlineVT _ _).2] at h3
        rw [Cache.find_eq_some h.valid h.cache h1 h2 h3] at hx
        exact absurd hx (by simp)
    · obtain ⟨h1, h2, h3⟩ := Cache.find_some hx
      exact Cache.find_eq_some h.valid hwf (by rwa [hlen]) (by rwa [(hlineVT _ _).1]) (by rwa [(hlineVT _ _).2])
  refine ⟨⟨h.valid, h.mem, hwf, ?_⟩, fun x => ?_⟩
  · intro s' hs' l hl vl dl
    have hs'' : s' < p.cache.sets.length := by simpa using hs'
    rw [hsets] at hl
    split at hl
    · rename_i hss
      rcases List.mem_or_eq_of_mem_set hl with hm | rfl
      · exact h.coherent s' hs'' l (hss ▸ hm) vl dl
      · simp [hL] at dl
    · exact h.coherent s' hs'' l hl vl dl
  · rcases hx : p.cache.find g x with _ | w'
    · rw [seenByte_of_absent (p := ⟨p.cache.setLine s w L, p.mem⟩) (by rw [hfind, hx]), seenByte_of_absent hx, if_neg]
      rintro rfl
      rw [hf] at hx
      exact absurd hx (by simp)
    · rw [seenByte_of_find (p := ⟨p.cache.setLine s w L, p.mem⟩) (w := w') (by rw [hfind, hx]), seenByte_of_find hx]
      simp only
      by_cases hd : g.index x = s ∧ w' = w
      · rw [hd.1, hd.2, hLline, ← hl₀]
        have htx : g.tag x = g.tag a := by
          have := (Cache.find_some hx).2.2
          rw [hd.1, hd.2] at this
          exact this.symm.trans ht
        have hoa : g.offset a < l₀.data.length := by
          rw [hl₀w.1.1]
          exact offset_lt_block h.valid a
        by_cases hxa : x = a
        · rw [if_pos hxa, hxa]
          simp [hL, List.getD_eq_getElem?_getD, hoa]
        · rw [if_neg hxa]
          have hne : g.offset a ≠ g.offset x := by
            intro ho
            apply hxa
            rw [← lineBase_add_offset h.valid x, ← lineBase_add_offset h.valid a, htx, hd.1, ho]
          simp [hL, List.getD_eq_getElem?_getD, hne]
      · rw [p.cache.line_setLine_other L (by
          by_cases hs' : g.index x = s
          · exact .inr fun hw' => hd ⟨hs', hw'⟩
          · exact .inl hs'), if_neg]
        rintro rfl
        rw [hf] at hx
        exact hd ⟨rfl, (Option.some.inj hx).symm⟩

/-- What reading bytes does: it gives the bytes seen, and changes none (R56, R78). -/
theorem readLoop_sound {e : CacheEnv} {n : Nat} {a : Word} {p p' : CacheStore} {bs : List Byte} (h : p.Sound e.cfg)
    (hr : readLoop e n a p = .ok (bs, p')) :
    p'.Sound e.cfg ∧ (∀ x, seenByte e.cfg p' x = seenByte e.cfg p x) ∧ bs = (byteAddresses n a).map (seenByte e.cfg p) := by
  induction n generalizing a p bs with
  | zero =>
    have hr := Except.ok.inj hr
    rw [Prod.mk.injEq] at hr
    obtain ⟨rfl, rfl⟩ := hr
    exact ⟨h, fun _ => rfl, rfl⟩
  | succ n ih =>
    obtain ⟨p₁, rest, ht, hr', rfl⟩ := readLoop_succ_ok hr
    obtain ⟨h₁, ⟨w, hw⟩, hb₁⟩ := touch_sound h ht
    obtain ⟨h₂, hb₂, rfl⟩ := ih h₁ hr'
    refine ⟨h₂, fun x => (hb₂ x).trans (hb₁ x), ?_⟩
    simp only [byteAddresses, List.map_cons, List.cons.injEq]
    refine ⟨?_, List.map_congr_left fun x _ => hb₁ x⟩
    rw [← hb₁ a, seenByte, Cache.byte?_of_find hw]
    rfl

/-- What writing bytes does: exactly those bytes change (R57, R79). -/
theorem writeLoop_sound {e : CacheEnv} {st : AccessStatus} {bs : List Byte} {a : Word} {p p' : CacheStore} (h : p.Sound e.cfg)
    (hw : writeLoop e st bs a p = .ok p') :
    p'.Sound e.cfg ∧ (∀ x, (∀ k < bs.length, x ≠ a + BitVec.ofNat 32 k) → seenByte e.cfg p' x = seenByte e.cfg p x) ∧
      (bs.length ≤ 2 ^ 32 → ∀ k (hk : k < bs.length), seenByte e.cfg p' (a + BitVec.ofNat 32 k) = bs[k]) := by
  induction bs generalizing a p with
  | nil =>
    have hw := Except.ok.inj hw
    subst hw
    exact ⟨h, fun _ _ => rfl, fun _ k hk => absurd hk (by simp)⟩
  | cons b bs ih =>
    obtain ⟨p₁, hp₁, hw'⟩ := writeLoop_cons_ok hw
    obtain ⟨h₁, ⟨w, hfw⟩, hb₁⟩ : p₁.Sound e.cfg ∧ (∃ w, p₁.cache.find e.cfg a = some w) ∧
        ∀ x, seenByte e.cfg p₁ x = seenByte e.cfg p x := by
      split at hp₁
      · exact touch_sound h hp₁
      · exact ensure_sound h hp₁
    obtain ⟨h₂, hb₂⟩ := putByte_sound h₁ hfw b
    obtain ⟨h₃, hsame, hnew⟩ := ih h₂ hw'
    have hstep : ∀ k : Nat, a + 1 + BitVec.ofNat 32 k = a + BitVec.ofNat 32 (k + 1) := by
      intro k
      rw [BitVec.add_assoc]
      congr 1
      apply BitVec.eq_of_toNat_eq
      simp [Nat.add_comm]
    refine ⟨h₃, fun x hx => ?_, fun hlen k hk => ?_⟩
    · rw [hsame x fun k hk => hstep k ▸ hx (k + 1) (by simpa using hk), hb₂, if_neg, hb₁]
      simpa using hx 0 (by simp)
    · simp only [List.length_cons] at hlen hk
      cases k with
      | zero =>
        have ha : a + BitVec.ofNat 32 0 = a := by simp
        rw [ha, hsame a, hb₂, if_pos rfl]
        · rfl
        · intro k hk he
          have := congrArg BitVec.toNat (he.trans (hstep k))
          rw [BitVec.toNat_add, BitVec.toNat_ofNat, Nat.mod_eq_of_lt (a := k + 1) (by omega)] at this
          have := a.isLt
          omega
      | succ k =>
        rw [← hstep k]
        exact hnew (by omega) k (by omega)

/-- What `read` does: sound, no byte seen changes, and a hit delivers the bytes seen (R56, R78). -/
theorem Cache.read_sound {e : CacheEnv} {a : Word} {n : Nat} {first : Bool} {p : CacheStore} {r : ReadResult}
    (h : p.Sound e.cfg) (hr : Cache.read e a n first p = .ok r) :
    r.store.Sound e.cfg ∧ (∀ x, seenByte e.cfg r.store x = seenByte e.cfg p x) ∧
      ∀ bs, r.value = some bs → bs = (byteAddresses n a).map (seenByte e.cfg p) := by
  rcases Cache.read_ok hr with ⟨-, rfl⟩ | ⟨hf, hv, hp⟩ | ⟨-, bs, hv, hp⟩
  · exact ⟨h.count first .miss, fun x => seenByte_count .., fun _ hv => absurd hv (by simp)⟩
  · have ha : (p.cache.count first .miss).find e.cfg a = none := by
      rw [Cache.find_congr (Cache.count_sets ..)]
      unfold firstByte at hf
      split at hf
      · assumption
      · split at hf <;> cases hf
    obtain ⟨h₁, -, hb⟩ := missProc_sound (h.count first .miss) ha hp
    exact ⟨h₁, fun x => (hb x).trans (seenByte_count ..), fun _ hv' => absurd (hv.symm.trans hv') (by simp)⟩
  · obtain ⟨h₁, hb, rfl⟩ := readLoop_sound (h.count first .hit) hp
    refine ⟨h₁, fun x => (hb x).trans (seenByte_count ..), fun bs' hv' => ?_⟩
    rw [hv] at hv'
    rw [← Option.some.inj hv']
    exact List.map_congr_left fun x _ => seenByte_count ..

/-- The bytes `p'` shows are those of `p`, but for the bytes of `bs` at `a`. -/
def Stored (g : CacheConfig) (p p' : CacheStore) (a : Word) (bs : List Byte) : Prop :=
  (∀ x, (∀ k < bs.length, x ≠ a + BitVec.ofNat 32 k) → seenByte g p' x = seenByte g p x) ∧
    (bs.length ≤ 2 ^ 32 → ∀ k (hk : k < bs.length), seenByte g p' (a + BitVec.ofNat 32 k) = bs[k])

/-- What `write` does: sound; a pending line leaves every byte as it was, the other cases store exactly the bytes (R57, R79). -/
theorem Cache.write_sound {e : CacheEnv} {a : Word} {bs : List Byte} {first : Bool} {p : CacheStore} {r : WriteResult}
    (h : p.Sound e.cfg) (hr : Cache.write e a bs first p = .ok r) :
    r.store.Sound e.cfg ∧
      ((firstByte e p.cache a = .pending ∧ ∀ x, seenByte e.cfg r.store x = seenByte e.cfg p x) ∨
        (firstByte e p.cache a ≠ .pending ∧ Stored e.cfg p r.store a bs)) := by
  rcases Cache.write_ok hr with ⟨hf, rfl⟩ | ⟨hf, -, p₁, hp, hw⟩ | ⟨hf, -, hw⟩
  · exact ⟨h.count first .miss, .inl ⟨hf, fun x => seenByte_count ..⟩⟩
  · have ha : (p.cache.count first .miss).find e.cfg a = none := by
      rw [Cache.find_congr (Cache.count_sets ..)]
      unfold firstByte at hf
      split at hf
      · assumption
      · split at hf <;> cases hf
    obtain ⟨h₁, -, hb⟩ := missProc_sound (h.count first .miss) ha hp
    obtain ⟨h₂, hs, hn⟩ := writeLoop_sound h₁ hw
    exact ⟨h₂, .inr ⟨by simp [hf], fun x hx => ((hs x hx).trans (hb x)).trans (seenByte_count ..), hn⟩⟩
  · obtain ⟨h₂, hs, hn⟩ := writeLoop_sound (h.count first .hit) hw
    exact ⟨h₂, .inr ⟨by simp [hf], fun x hx => (hs x hx).trans (seenByte_count ..), hn⟩⟩

/-- What a whole read does (R56). -/
theorem Cache.serveRead_sound {e : CacheEnv} {a : Word} {n : Nat} {p p' : CacheStore} {bs : List Byte} (h : p.Sound e.cfg)
    (hr : Cache.serveRead e a n p = .ok (bs, p')) :
    p'.Sound e.cfg ∧ (∀ x, seenByte e.cfg p' x = seenByte e.cfg p x) ∧ bs = (byteAddresses n a).map (seenByte e.cfg p) := by
  obtain ⟨h₁, hb, rfl⟩ := readLoop_sound (h.count true _) hr
  exact ⟨h₁, fun x => (hb x).trans (seenByte_count ..), List.map_congr_left fun x _ => seenByte_count ..⟩

/-- What a whole write does (R57). -/
theorem Cache.serveWrite_sound {e : CacheEnv} {a : Word} {bs : List Byte} {p p' : CacheStore} (h : p.Sound e.cfg)
    (hw : Cache.serveWrite e a bs p = .ok p') : p'.Sound e.cfg ∧ Stored e.cfg p p' a bs := by
  obtain ⟨h₁, hs, hn⟩ := writeLoop_sound (h.count true _) hw
  exact ⟨h₁, fun x hx => (hs x hx).trans (seenByte_count ..), hn⟩

/-! ## A cache that is never written (R83) -/

theorem Cache.clean_setLine {c : Cache} (h : c.clean) (s w : Nat) {l : CacheLine} (hl : l.dirty = false) :
    (c.setLine s w l).clean := by
  intro ls hls l' hl'
  rcases List.mem_or_eq_of_mem_set hls with hm | rfl
  · exact h ls hm l' hl'
  · rcases List.mem_or_eq_of_mem_set hl' with hm | rfl
    · by_cases hs : s < c.sets.length
      · refine h (c.set s) ?_ l' hm
        simp [Cache.set, List.getD_eq_getElem?_getD, hs]
      · simp [Cache.set, List.getD_eq_getElem?_getD, not_lt.1 hs] at hm
    · exact hl

theorem Cache.clean_line {c : Cache} (h : c.clean) (s w : Nat) : (c.line s w).dirty = false := by
  by_cases hs : s < c.sets.length
  · by_cases hw : w < (c.set s).length
    · refine h (c.set s) ?_ _ (c.line_mem hw)
      simp [Cache.set, List.getD_eq_getElem?_getD, hs]
    · simp only [Cache.line, List.getD_eq_getElem?_getD, List.getElem?_eq_none (not_lt.1 hw)]
      rfl
  · simp only [Cache.line, Cache.set, List.getD_eq_getElem?_getD, List.getElem?_eq_none (not_lt.1 hs)]
    rfl

theorem missProc_clean {e : CacheEnv} {a : Word} {p p' : CacheStore} (h : p.cache.clean) (hp : missProc e a p = .ok p') :
    p'.cache.clean ∧ p'.mem = p.mem := by
  obtain ⟨m, block, hm, -, rfl⟩ := missProc_ok hp
  have := writeBackLine_ok hm
  rw [Cache.clean_line h, Bool.and_false, if_neg (by simp)] at this
  refine ⟨?_, this⟩
  have h₁ := Cache.clean_setLine h (e.cfg.index a) (victimWay (p.cache.set (e.cfg.index a)))
    (l := ⟨true, false, e.cfg.tag a, (p.cache.line (e.cfg.index a) (victimWay (p.cache.set (e.cfg.index a)))).lru,
      e.cycle + e.cfg.missLatencyCycles, block⟩) rfl
  unfold Cache.use
  exact Cache.clean_setLine h₁ _ _ (Cache.clean_line h₁ _ _)

theorem touch_clean {e : CacheEnv} {a : Word} {p p' : CacheStore} (h : p.cache.clean) (hp : touch e a p = .ok p') :
    p'.cache.clean ∧ p'.mem = p.mem := by
  rcases touch_ok hp with ⟨w, -, rfl⟩ | ⟨-, hp⟩
  · refine ⟨?_, rfl⟩
    unfold Cache.use
    exact Cache.clean_setLine (c := { p.cache with stamp := p.cache.stamp + 1 }) h _ _ (Cache.clean_line h _ _)
  · exact missProc_clean h hp

theorem touch_wf {e : CacheEnv} {a : Word} {p p' : CacheStore} (hg : e.cfg.valid = true) (hc : p.cache.wf e.cfg)
    (hp : touch e a p = .ok p') : p'.cache.wf e.cfg := by
  rcases touch_ok hp with ⟨w, hf, rfl⟩ | ⟨hf, hp⟩
  · exact Cache.use_wf hc (Cache.index_lt_sets hg hc a) (Cache.find_some hf).1
  · exact missProc_wf hg hc hf hp

theorem readLoop_wf {e : CacheEnv} {n : Nat} {a : Word} {p p' : CacheStore} {bs : List Byte} (hg : e.cfg.valid = true)
    (hc : p.cache.wf e.cfg) (hr : readLoop e n a p = .ok (bs, p')) : p'.cache.wf e.cfg := by
  induction n generalizing a p bs with
  | zero =>
    have hr := Except.ok.inj hr
    rw [Prod.mk.injEq] at hr
    obtain ⟨-, rfl⟩ := hr
    exact hc
  | succ n ih =>
    obtain ⟨p₁, rest, ht, hr', -⟩ := readLoop_succ_ok hr
    exact ih (touch_wf hg hc ht) hr'

theorem Cache.wf_count {g : CacheConfig} {c : Cache} (h : c.wf g) (first : Bool) (st : AccessStatus) : (c.count first st).wf g := by
  simpa [Cache.wf] using h

/-- Reading keeps the invariants of R83, whatever the store holds. -/
theorem Cache.read_wf {e : CacheEnv} {a : Word} {n : Nat} {first : Bool} {p : CacheStore} {r : ReadResult}
    (hg : e.cfg.valid = true) (hc : p.cache.wf e.cfg) (hr : Cache.read e a n first p = .ok r) : r.store.cache.wf e.cfg := by
  rcases Cache.read_ok hr with ⟨-, rfl⟩ | ⟨hf, -, hp⟩ | ⟨-, bs, -, hp⟩
  · exact Cache.wf_count hc first .miss
  · refine missProc_wf (p := { p with cache := p.cache.count first .miss }) hg (Cache.wf_count hc first .miss) ?_ hp
    show (p.cache.count first .miss).find e.cfg a = none
    rw [Cache.find_congr (Cache.count_sets ..)]
    unfold firstByte at hf
    split at hf
    · assumption
    · split at hf <;> cases hf
  · exact readLoop_wf (p := { p with cache := p.cache.count first .hit }) hg (Cache.wf_count hc first .hit) hp

/-- A whole read keeps the invariants of R83. -/
theorem Cache.serveRead_wf {e : CacheEnv} {a : Word} {n : Nat} {p p' : CacheStore} {bs : List Byte} (hg : e.cfg.valid = true)
    (hc : p.cache.wf e.cfg) (hr : Cache.serveRead e a n p = .ok (bs, p')) : p'.cache.wf e.cfg :=
  readLoop_wf (p := { p with cache := p.cache.countWhole e.cfg a }) hg (Cache.wf_count hc true _) hr

theorem readLoop_clean {e : CacheEnv} {n : Nat} {a : Word} {p p' : CacheStore} {bs : List Byte} (h : p.cache.clean)
    (hr : readLoop e n a p = .ok (bs, p')) : p'.cache.clean ∧ p'.mem = p.mem := by
  induction n generalizing a p bs with
  | zero =>
    have hr := Except.ok.inj hr
    rw [Prod.mk.injEq] at hr
    obtain ⟨-, rfl⟩ := hr
    exact ⟨h, rfl⟩
  | succ n ih =>
    obtain ⟨p₁, rest, ht, hr', -⟩ := readLoop_succ_ok hr
    obtain ⟨h₁, hm₁⟩ := touch_clean h ht
    obtain ⟨h₂, hm₂⟩ := ih h₁ hr'
    exact ⟨h₂, hm₂.trans hm₁⟩

theorem Cache.clean_count {c : Cache} (h : c.clean) (first : Bool) (st : AccessStatus) : (c.count first st).clean := by
  simpa [Cache.clean] using h

/-- Reading through a clean cache never writes the store and leaves the cache clean (R52, R83). -/
theorem Cache.read_clean {e : CacheEnv} {a : Word} {n : Nat} {first : Bool} {p : CacheStore} {r : ReadResult}
    (h : p.cache.clean) (hr : Cache.read e a n first p = .ok r) : r.store.cache.clean ∧ r.store.mem = p.mem := by
  rcases Cache.read_ok hr with ⟨-, rfl⟩ | ⟨-, -, hp⟩ | ⟨-, bs, -, hp⟩
  · exact ⟨Cache.clean_count h first .miss, rfl⟩
  · exact missProc_clean (p := { p with cache := p.cache.count first .miss }) (Cache.clean_count h first .miss) hp
  · exact readLoop_clean (p := { p with cache := p.cache.count first .hit }) (Cache.clean_count h first .hit) hp

/-- A whole read through a clean cache (R52, R83). -/
theorem Cache.serveRead_clean {e : CacheEnv} {a : Word} {n : Nat} {p p' : CacheStore} {bs : List Byte} (h : p.cache.clean)
    (hr : Cache.serveRead e a n p = .ok (bs, p')) : p'.cache.clean ∧ p'.mem = p.mem :=
  readLoop_clean (p := { p with cache := p.cache.countWhole e.cfg a }) (Cache.clean_count h true _) hr

end Sys2Proof.Machine
end

