-- ==== Sys2Proof/Laws/Drain.lean ====
section
/-! SUPPORT. What a drain can do (R84): it cleans the valid lines and puts the bytes of the dirty ones in the store. -/

namespace Sys2Proof.Machine

/-- A line after a drain (R84): clean when valid, everything else of it unchanged. -/
def CacheLine.drained (l : CacheLine) : CacheLine := { l with dirty := l.dirty && !l.valid }

@[simp] theorem CacheLine.drained_valid (l : CacheLine) : l.drained.valid = l.valid := rfl
@[simp] theorem CacheLine.drained_dirty (l : CacheLine) : l.drained.dirty = (l.dirty && !l.valid) := rfl
@[simp] theorem CacheLine.drained_tag (l : CacheLine) : l.drained.tag = l.tag := rfl
@[simp] theorem CacheLine.drained_lru (l : CacheLine) : l.drained.lru = l.lru := rfl
@[simp] theorem CacheLine.drained_readyAt (l : CacheLine) : l.drained.readyAt = l.readyAt := rfl
@[simp] theorem CacheLine.drained_data (l : CacheLine) : l.drained.data = l.data := rfl

/-- What draining one set can do: its lines are cleaned, and at an address `x` where every valid dirty line of the set that holds
`x` has the byte `v`, and either the store has it or there is such a line, the store has `v` afterwards (R84). -/
theorem drainWays_ok {e : CacheEnv} (hg : e.cfg.valid = true) {s : Nat} (hs : s < 2 ^ e.cfg.indexBits) {ls ls' : List CacheLine}
    {m m' : Memory} (hm : m.wf) (hl : ∀ l ∈ ls, l.wf e.cfg) (h : drainWays e s ls m = .ok (ls', m')) :
    ls' = ls.map CacheLine.drained ∧ ∀ (x : Word) (v : Byte),
      (∀ l ∈ ls, l.valid = true → l.dirty = true → e.cfg.tag x = l.tag → e.cfg.index x = s →
        l.data.getD (e.cfg.offset x) 0 = v) →
      (readByte m x.toNat = v ∨ ∃ l ∈ ls, l.valid = true ∧ l.dirty = true ∧ e.cfg.tag x = l.tag ∧ e.cfg.index x = s) →
        readByte m' x.toNat = v := by
  induction ls generalizing m ls' with
  | nil =>
    have h := Except.ok.inj h
    rw [Prod.mk.injEq] at h
    obtain ⟨rfl, rfl⟩ := h
    refine ⟨rfl, fun x v _ h => ?_⟩
    rcases h with h | ⟨l, h, -⟩
    · exact h
    · cases h
  | cons l ls ih =>
    unfold drainWays at h
    split at h
    · cases h
    · rename_i m₁ hw
      split at h
      · cases h
      · rename_i ls₁ m₂ hr
        have h := Except.ok.inj h
        rw [Prod.mk.injEq] at h
        obtain ⟨rfl, rfl⟩ := h
        have hwb := writeBackLine_ok hw
        have hm₁ : m₁.wf := by
          split at hwb
          · exact hwb ▸ writeBytesAt_wf hm _ _
          · exact hwb ▸ hm
        obtain ⟨i1, i3⟩ := ih hm₁ (fun l' h' => hl l' (List.mem_cons_of_mem _ h')) hr
        refine ⟨by rw [i1]; rfl, fun x v hq h => ?_⟩
        refine i3 x v (fun l' h' => hq l' (List.mem_cons_of_mem _ h')) ?_
        have hlw := hl l List.mem_cons_self
        split at hwb
        · rename_i hc
          rw [Bool.and_eq_true] at hc
          have key := readByte_writeLine hg hm (t := l.tag) (s := s) (hlw.2 hc.1) hs hlw.1 x
          rw [← hwb] at key
          by_cases hx : e.cfg.tag x = l.tag ∧ e.cfg.index x = s
          · left; rw [key, if_pos hx]; exact hq l List.mem_cons_self hc.1 hc.2 hx.1 hx.2
          · rw [if_neg hx] at key
            rcases h with h | ⟨l', h1, h2, h3, h4, h5⟩
            · left; rw [key, h]
            · rcases List.mem_cons.1 h1 with rfl | h1
              · exact absurd ⟨h4, h5⟩ hx
              · right; exact ⟨l', h1, h2, h3, h4, h5⟩
        · rename_i hc
          subst hwb
          rcases h with h | ⟨l', h1, h2, h3, h4, h5⟩
          · left; exact h
          · rcases List.mem_cons.1 h1 with rfl | h1
            · exact absurd (by rw [h2, h3]; rfl) hc
            · right; exact ⟨l', h1, h2, h3, h4, h5⟩

/-- What draining the sets `s, s+1, ...` can do, said as `drainWays_ok` says it of one set (R84). -/
theorem drainSets_ok {e : CacheEnv} (hg : e.cfg.valid = true) {s : Nat} {sets sets' : List (List CacheLine)}
    (hs : s + sets.length ≤ 2 ^ e.cfg.indexBits) {m m' : Memory} (hm : m.wf) (hl : ∀ ls ∈ sets, ∀ l ∈ ls, l.wf e.cfg)
    (h : drainSets e s sets m = .ok (sets', m')) :
    sets' = sets.map (List.map CacheLine.drained) ∧ ∀ (x : Word) (v : Byte),
      (∀ k (hk : k < sets.length), ∀ l ∈ sets[k], l.valid = true → l.dirty = true → e.cfg.tag x = l.tag →
        e.cfg.index x = s + k → l.data.getD (e.cfg.offset x) 0 = v) →
      (readByte m x.toNat = v ∨ ∃ k, ∃ hk : k < sets.length, ∃ l ∈ sets[k], l.valid = true ∧ l.dirty = true ∧
        e.cfg.tag x = l.tag ∧ e.cfg.index x = s + k) →
        readByte m' x.toNat = v := by
  induction sets generalizing m sets' s with
  | nil =>
    have h := Except.ok.inj h
    rw [Prod.mk.injEq] at h
    obtain ⟨rfl, rfl⟩ := h
    refine ⟨rfl, fun x v _ h => ?_⟩
    rcases h with h | ⟨k, hk, h⟩
    · exact h
    · exact absurd hk (by simp)
  | cons ls sets ih =>
    simp only [List.length_cons] at hs
    unfold drainSets at h
    split at h
    · cases h
    · rename_i ls₁ m₁ hw
      split at h
      · cases h
      · rename_i sets₁ m₂ hr
        have h := Except.ok.inj h
        rw [Prod.mk.injEq] at h
        obtain ⟨rfl, rfl⟩ := h
        obtain ⟨w1, w3⟩ := drainWays_ok hg (by omega) hm (hl ls List.mem_cons_self) hw
        obtain ⟨i1, i3⟩ := ih (s := s + 1) (by omega) (drainWays_mem_wf hm hw) (fun l' h' => hl l' (List.mem_cons_of_mem _ h')) hr
        refine ⟨by rw [i1, w1]; rfl, fun x v hq h => ?_⟩
        refine i3 x v (fun k hk l h1 h2 h3 h4 h5 => hq (k + 1) (by simp; omega) l (by simpa using h1) h2 h3 h4 (by omega)) ?_
        rcases h with h | ⟨k, hk, l, h1, h2, h3, h4, h5⟩
        · left
          exact w3 x v (fun l h1 h2 h3 h4 h5 => hq 0 (by simp) l (by simpa using h1) h2 h3 h4 (by omega)) (.inl h)
        · cases k with
          | zero =>
            left
            exact w3 x v (fun l h1 h2 h3 h4 h5 => hq 0 (by simp) l (by simpa using h1) h2 h3 h4 (by omega))
              (.inr ⟨l, by simpa using h1, h2, h3, h4, by omega⟩)
          | succ k =>
            right
            exact ⟨k, by simp at hk; omega, l, by simpa using h1, h2, h3, h4, by omega⟩

/-- A drain changes the lines and the store, and nothing else of the cache (R84). -/
theorem Cache.drain_ok {e : CacheEnv} {p q : CacheStore} (h : Cache.drain e p = .ok q) :
    ∃ sets, drainSets e 0 p.cache.sets p.mem = .ok (sets, q.mem) ∧ q.cache = { p.cache with sets := sets } := by
  unfold Cache.drain at h
  split at h
  · cases h
  · rename_i sets m hd
    have := Except.ok.inj h; subst this
    exact ⟨_, hd, rfl⟩

end Sys2Proof.Machine
end

