-- ==== Sys2Proof/Laws/State.lean ====
section
/-! SUPPORT. One lemma per field per update of the state, so that no later proof unfolds an update. -/

namespace Sys2Proof.Machine

/-! ## Registers (R11, R22) -/

@[simp] theorem State.reg_zero (s : State) : s.reg 0 = 0 := rfl

theorem State.reg_of_ne_zero (s : State) {r : RegNum} (h : r ≠ 0) : s.reg r = s.regs[r.toNat]'r.isLt := if_neg h

@[simp] theorem State.setReg_zero (s : State) (v : Word) : s.setReg 0 v = s := rfl

/-- What a register write can do (R11, R22). -/
theorem State.reg_setReg (s : State) (r r' : RegNum) (v : Word) :
    (s.setReg r v).reg r' = if r' = r ∧ r ≠ 0 then v else s.reg r' := by
  unfold State.setReg
  by_cases hr : r = 0
  · simp [hr]
  · by_cases hr' : r' = 0
    · subst hr'
      rw [if_neg hr, State.reg_zero, if_neg fun h => hr h.1.symm, State.reg_zero]
    · simp only [hr, if_false, State.reg, hr', ne_eq, not_false_eq_true, and_true]
      rw [Vector.getElem_set]
      by_cases h : r = r'
      · simp [h]
      · have h₁ : r.toNat ≠ r'.toNat := fun hn => h (BitVec.eq_of_toNat_eq hn)
        simp [h₁, Ne.symm h]

@[simp] theorem State.reg_setReg_same (s : State) {r : RegNum} (h : r ≠ 0) (v : Word) : (s.setReg r v).reg r = v := by
  rw [State.reg_setReg, if_pos ⟨rfl, h⟩]

theorem State.reg_setReg_other (s : State) {r r' : RegNum} (h : r' ≠ r) (v : Word) : (s.setReg r v).reg r' = s.reg r' := by
  simp [State.reg_setReg, h]

/-- Two states with the same register file read the same registers. -/
theorem State.reg_congr {s t : State} (h : s.regs = t.regs) (r : RegNum) : s.reg r = t.reg r := by
  simp [State.reg, h]

/-- A register write touches nothing but the register file. -/
theorem State.setReg_eq (s : State) (r : RegNum) (v : Word) : s.setReg r v = { s with regs := (s.setReg r v).regs } := by
  unfold State.setReg
  split <;> rfl

@[simp] theorem State.setReg_view (s : State) (r : RegNum) (v : Word) : (s.setReg r v).view = s.view := by
  unfold State.setReg
  split <;> rfl
@[simp] theorem State.setReg_cfg (s : State) (r : RegNum) (v : Word) : (s.setReg r v).cfg = s.cfg := by
  unfold State.setReg
  split <;> rfl
@[simp] theorem State.setReg_pc (s : State) (r : RegNum) (v : Word) : (s.setReg r v).pc = s.pc := by
  unfold State.setReg
  split <;> rfl
@[simp] theorem State.setReg_npc (s : State) (r : RegNum) (v : Word) : (s.setReg r v).npc = s.npc := by
  unfold State.setReg
  split <;> rfl
@[simp] theorem State.setReg_ifid (s : State) (r : RegNum) (v : Word) : (s.setReg r v).ifid = s.ifid := by
  unfold State.setReg
  split <;> rfl
@[simp] theorem State.setReg_idex (s : State) (r : RegNum) (v : Word) : (s.setReg r v).idex = s.idex := by
  unfold State.setReg
  split <;> rfl
@[simp] theorem State.setReg_exmem (s : State) (r : RegNum) (v : Word) : (s.setReg r v).exmem = s.exmem := by
  unfold State.setReg
  split <;> rfl
@[simp] theorem State.setReg_memwb (s : State) (r : RegNum) (v : Word) : (s.setReg r v).memwb = s.memwb := by
  unfold State.setReg
  split <;> rfl
@[simp] theorem State.setReg_haltSeen (s : State) (r : RegNum) (v : Word) : (s.setReg r v).haltSeen = s.haltSeen := by
  unfold State.setReg
  split <;> rfl
@[simp] theorem State.setReg_status (s : State) (r : RegNum) (v : Word) : (s.setReg r v).status = s.status := by
  unfold State.setReg
  split <;> rfl
@[simp] theorem State.setReg_ifWait (s : State) (r : RegNum) (v : Word) : (s.setReg r v).ifWait = s.ifWait := by
  unfold State.setReg
  split <;> rfl
@[simp] theorem State.setReg_memWait (s : State) (r : RegNum) (v : Word) : (s.setReg r v).memWait = s.memWait := by
  unfold State.setReg
  split <;> rfl
@[simp] theorem State.setReg_cycle (s : State) (r : RegNum) (v : Word) : (s.setReg r v).cycle = s.cycle := by
  unfold State.setReg
  split <;> rfl
@[simp] theorem State.setReg_ic (s : State) (r : RegNum) (v : Word) : (s.setReg r v).ic = s.ic := by
  unfold State.setReg
  split <;> rfl
@[simp] theorem State.setReg_dc (s : State) (r : RegNum) (v : Word) : (s.setReg r v).dc = s.dc := by
  unfold State.setReg
  split <;> rfl
@[simp] theorem State.setReg_mem (s : State) (r : RegNum) (v : Word) : (s.setReg r v).mem = s.mem := by
  unfold State.setReg
  split <;> rfl

/-! ## The program counter (R190, R285) -/

@[simp] theorem State.advance_view (s : State) : s.advance.view = s.view := rfl
@[simp] theorem State.advance_cfg (s : State) : s.advance.cfg = s.cfg := rfl
@[simp] theorem State.advance_regs (s : State) : s.advance.regs = s.regs := rfl
@[simp] theorem State.advance_pc (s : State) : s.advance.pc = s.npc := rfl
@[simp] theorem State.advance_npc (s : State) : s.advance.npc = s.npc + 4 := rfl
@[simp] theorem State.advance_ifid (s : State) : s.advance.ifid = s.ifid := rfl
@[simp] theorem State.advance_idex (s : State) : s.advance.idex = s.idex := rfl
@[simp] theorem State.advance_exmem (s : State) : s.advance.exmem = s.exmem := rfl
@[simp] theorem State.advance_memwb (s : State) : s.advance.memwb = s.memwb := rfl
@[simp] theorem State.advance_haltSeen (s : State) : s.advance.haltSeen = s.haltSeen := rfl
@[simp] theorem State.advance_status (s : State) : s.advance.status = s.status := rfl
@[simp] theorem State.advance_ifWait (s : State) : s.advance.ifWait = s.ifWait := rfl
@[simp] theorem State.advance_memWait (s : State) : s.advance.memWait = s.memWait := rfl
@[simp] theorem State.advance_cycle (s : State) : s.advance.cycle = s.cycle := rfl
@[simp] theorem State.advance_ic (s : State) : s.advance.ic = s.ic := rfl
@[simp] theorem State.advance_dc (s : State) : s.advance.dc = s.dc := rfl
@[simp] theorem State.advance_mem (s : State) : s.advance.mem = s.mem := rfl
@[simp] theorem State.advance_reg (s : State) (r : RegNum) : s.advance.reg r = s.reg r := rfl
@[simp] theorem State.transfer_view (s : State) (target : Word) : (s.transfer target).view = s.view := rfl
@[simp] theorem State.transfer_cfg (s : State) (target : Word) : (s.transfer target).cfg = s.cfg := rfl
@[simp] theorem State.transfer_regs (s : State) (target : Word) : (s.transfer target).regs = s.regs := rfl
@[simp] theorem State.transfer_pc (s : State) (target : Word) : (s.transfer target).pc = s.npc := rfl
@[simp] theorem State.transfer_npc (s : State) (target : Word) : (s.transfer target).npc = target := rfl
@[simp] theorem State.transfer_ifid (s : State) (target : Word) : (s.transfer target).ifid = s.ifid := rfl
@[simp] theorem State.transfer_idex (s : State) (target : Word) : (s.transfer target).idex = s.idex := rfl
@[simp] theorem State.transfer_exmem (s : State) (target : Word) : (s.transfer target).exmem = s.exmem := rfl
@[simp] theorem State.transfer_memwb (s : State) (target : Word) : (s.transfer target).memwb = s.memwb := rfl
@[simp] theorem State.transfer_haltSeen (s : State) (target : Word) : (s.transfer target).haltSeen = s.haltSeen := rfl
@[simp] theorem State.transfer_status (s : State) (target : Word) : (s.transfer target).status = s.status := rfl
@[simp] theorem State.transfer_ifWait (s : State) (target : Word) : (s.transfer target).ifWait = s.ifWait := rfl
@[simp] theorem State.transfer_memWait (s : State) (target : Word) : (s.transfer target).memWait = s.memWait := rfl
@[simp] theorem State.transfer_cycle (s : State) (target : Word) : (s.transfer target).cycle = s.cycle := rfl
@[simp] theorem State.transfer_ic (s : State) (target : Word) : (s.transfer target).ic = s.ic := rfl
@[simp] theorem State.transfer_dc (s : State) (target : Word) : (s.transfer target).dc = s.dc := rfl
@[simp] theorem State.transfer_mem (s : State) (target : Word) : (s.transfer target).mem = s.mem := rfl
@[simp] theorem State.transfer_reg (s : State) (target : Word) (r : RegNum) : (s.transfer target).reg r = s.reg r := rfl
@[simp] theorem State.redirect_view (s : State) (target : Word) : (s.redirect target).view = s.view := rfl
@[simp] theorem State.redirect_cfg (s : State) (target : Word) : (s.redirect target).cfg = s.cfg := rfl
@[simp] theorem State.redirect_regs (s : State) (target : Word) : (s.redirect target).regs = s.regs := rfl
@[simp] theorem State.redirect_pc (s : State) (target : Word) : (s.redirect target).pc = target := rfl
@[simp] theorem State.redirect_npc (s : State) (target : Word) : (s.redirect target).npc = target + 4 := rfl
@[simp] theorem State.redirect_ifid (s : State) (target : Word) : (s.redirect target).ifid = s.ifid := rfl
@[simp] theorem State.redirect_idex (s : State) (target : Word) : (s.redirect target).idex = s.idex := rfl
@[simp] theorem State.redirect_exmem (s : State) (target : Word) : (s.redirect target).exmem = s.exmem := rfl
@[simp] theorem State.redirect_memwb (s : State) (target : Word) : (s.redirect target).memwb = s.memwb := rfl
@[simp] theorem State.redirect_haltSeen (s : State) (target : Word) : (s.redirect target).haltSeen = s.haltSeen := rfl
@[simp] theorem State.redirect_status (s : State) (target : Word) : (s.redirect target).status = s.status := rfl
@[simp] theorem State.redirect_ifWait (s : State) (target : Word) : (s.redirect target).ifWait = s.ifWait := rfl
@[simp] theorem State.redirect_memWait (s : State) (target : Word) : (s.redirect target).memWait = s.memWait := rfl
@[simp] theorem State.redirect_cycle (s : State) (target : Word) : (s.redirect target).cycle = s.cycle := rfl
@[simp] theorem State.redirect_ic (s : State) (target : Word) : (s.redirect target).ic = s.ic := rfl
@[simp] theorem State.redirect_dc (s : State) (target : Word) : (s.redirect target).dc = s.dc := rfl
@[simp] theorem State.redirect_mem (s : State) (target : Word) : (s.redirect target).mem = s.mem := rfl
@[simp] theorem State.redirect_reg (s : State) (target : Word) (r : RegNum) : (s.redirect target).reg r = s.reg r := rfl
@[simp] theorem State.takeException_view (s : State) (e : Exception) : (s.takeException e).view = s.view := rfl
@[simp] theorem State.takeException_cfg (s : State) (e : Exception) : (s.takeException e).cfg = s.cfg := rfl
@[simp] theorem State.takeException_regs (s : State) (e : Exception) : (s.takeException e).regs = s.regs := rfl
@[simp] theorem State.takeException_pc (s : State) (e : Exception) : (s.takeException e).pc = s.cfg.excVector := rfl
@[simp] theorem State.takeException_npc (s : State) (e : Exception) : (s.takeException e).npc = s.cfg.excVector + 4 := rfl
@[simp] theorem State.takeException_ifid (s : State) (e : Exception) : (s.takeException e).ifid = s.ifid := rfl
@[simp] theorem State.takeException_idex (s : State) (e : Exception) : (s.takeException e).idex = s.idex := rfl
@[simp] theorem State.takeException_exmem (s : State) (e : Exception) : (s.takeException e).exmem = s.exmem := rfl
@[simp] theorem State.takeException_memwb (s : State) (e : Exception) : (s.takeException e).memwb = s.memwb := rfl
@[simp] theorem State.takeException_haltSeen (s : State) (e : Exception) : (s.takeException e).haltSeen = s.haltSeen := rfl
@[simp] theorem State.takeException_status (s : State) (e : Exception) : (s.takeException e).status = s.status := rfl
@[simp] theorem State.takeException_ifWait (s : State) (e : Exception) : (s.takeException e).ifWait = s.ifWait := rfl
@[simp] theorem State.takeException_memWait (s : State) (e : Exception) : (s.takeException e).memWait = s.memWait := rfl
@[simp] theorem State.takeException_cycle (s : State) (e : Exception) : (s.takeException e).cycle = s.cycle := rfl
@[simp] theorem State.takeException_ic (s : State) (e : Exception) : (s.takeException e).ic = s.ic := rfl
@[simp] theorem State.takeException_dc (s : State) (e : Exception) : (s.takeException e).dc = s.dc := rfl
@[simp] theorem State.takeException_mem (s : State) (e : Exception) : (s.takeException e).mem = s.mem := rfl
@[simp] theorem State.takeException_reg (s : State) (e : Exception) (r : RegNum) : (s.takeException e).reg r = s.reg r := rfl

/-! ## The caches -/

@[simp] theorem State.withData_view (s : State) (p : CacheStore) : (s.withData p).view = s.view := rfl
@[simp] theorem State.withData_cfg (s : State) (p : CacheStore) : (s.withData p).cfg = s.cfg := rfl
@[simp] theorem State.withData_regs (s : State) (p : CacheStore) : (s.withData p).regs = s.regs := rfl
@[simp] theorem State.withData_pc (s : State) (p : CacheStore) : (s.withData p).pc = s.pc := rfl
@[simp] theorem State.withData_npc (s : State) (p : CacheStore) : (s.withData p).npc = s.npc := rfl
@[simp] theorem State.withData_ifid (s : State) (p : CacheStore) : (s.withData p).ifid = s.ifid := rfl
@[simp] theorem State.withData_idex (s : State) (p : CacheStore) : (s.withData p).idex = s.idex := rfl
@[simp] theorem State.withData_exmem (s : State) (p : CacheStore) : (s.withData p).exmem = s.exmem := rfl
@[simp] theorem State.withData_memwb (s : State) (p : CacheStore) : (s.withData p).memwb = s.memwb := rfl
@[simp] theorem State.withData_haltSeen (s : State) (p : CacheStore) : (s.withData p).haltSeen = s.haltSeen := rfl
@[simp] theorem State.withData_status (s : State) (p : CacheStore) : (s.withData p).status = s.status := rfl
@[simp] theorem State.withData_ifWait (s : State) (p : CacheStore) : (s.withData p).ifWait = s.ifWait := rfl
@[simp] theorem State.withData_memWait (s : State) (p : CacheStore) : (s.withData p).memWait = s.memWait := rfl
@[simp] theorem State.withData_cycle (s : State) (p : CacheStore) : (s.withData p).cycle = s.cycle := rfl
@[simp] theorem State.withData_ic (s : State) (p : CacheStore) : (s.withData p).ic = s.ic := rfl
@[simp] theorem State.withData_dc (s : State) (p : CacheStore) : (s.withData p).dc = p.cache := rfl
@[simp] theorem State.withData_mem (s : State) (p : CacheStore) : (s.withData p).mem = p.mem := rfl
@[simp] theorem State.withData_reg (s : State) (p : CacheStore) (r : RegNum) : (s.withData p).reg r = s.reg r := rfl
@[simp] theorem State.withFetch_view (s : State) (p : CacheStore) : (s.withFetch p).view = s.view := rfl
@[simp] theorem State.withFetch_cfg (s : State) (p : CacheStore) : (s.withFetch p).cfg = s.cfg := rfl
@[simp] theorem State.withFetch_regs (s : State) (p : CacheStore) : (s.withFetch p).regs = s.regs := rfl
@[simp] theorem State.withFetch_pc (s : State) (p : CacheStore) : (s.withFetch p).pc = s.pc := rfl
@[simp] theorem State.withFetch_npc (s : State) (p : CacheStore) : (s.withFetch p).npc = s.npc := rfl
@[simp] theorem State.withFetch_ifid (s : State) (p : CacheStore) : (s.withFetch p).ifid = s.ifid := rfl
@[simp] theorem State.withFetch_idex (s : State) (p : CacheStore) : (s.withFetch p).idex = s.idex := rfl
@[simp] theorem State.withFetch_exmem (s : State) (p : CacheStore) : (s.withFetch p).exmem = s.exmem := rfl
@[simp] theorem State.withFetch_memwb (s : State) (p : CacheStore) : (s.withFetch p).memwb = s.memwb := rfl
@[simp] theorem State.withFetch_haltSeen (s : State) (p : CacheStore) : (s.withFetch p).haltSeen = s.haltSeen := rfl
@[simp] theorem State.withFetch_status (s : State) (p : CacheStore) : (s.withFetch p).status = s.status := rfl
@[simp] theorem State.withFetch_ifWait (s : State) (p : CacheStore) : (s.withFetch p).ifWait = s.ifWait := rfl
@[simp] theorem State.withFetch_memWait (s : State) (p : CacheStore) : (s.withFetch p).memWait = s.memWait := rfl
@[simp] theorem State.withFetch_cycle (s : State) (p : CacheStore) : (s.withFetch p).cycle = s.cycle := rfl
@[simp] theorem State.withFetch_ic (s : State) (p : CacheStore) : (s.withFetch p).ic = p.cache := rfl
@[simp] theorem State.withFetch_dc (s : State) (p : CacheStore) : (s.withFetch p).dc = s.dc := rfl
@[simp] theorem State.withFetch_mem (s : State) (p : CacheStore) : (s.withFetch p).mem = p.mem := rfl
@[simp] theorem State.withFetch_reg (s : State) (p : CacheStore) (r : RegNum) : (s.withFetch p).reg r = s.reg r := rfl

/-! ## The data memory and the fetch side (R56, R64): updates that leave `DC`, `IC` and the store alone -/

/-- The data memory depends on the data cache, the store and the parameters only. -/
theorem State.dataByte_congr {s t : State} (hc : t.cfg = s.cfg) (hd : t.dc = s.dc) (hm : t.mem = s.mem) (a : Word) :
    t.dataByte a = s.dataByte a := by simp [State.dataByte, State.dataSide, hc, hd, hm]

@[simp] theorem State.setReg_dataByte (s : State) (r : RegNum) (v a : Word) : (s.setReg r v).dataByte a = s.dataByte a :=
  State.dataByte_congr (by simp) (by simp) (by simp) a
@[simp] theorem State.advance_dataByte (s : State) (a : Word) : s.advance.dataByte a = s.dataByte a := rfl
@[simp] theorem State.transfer_dataByte (s : State) (target a : Word) : (s.transfer target).dataByte a = s.dataByte a := rfl
@[simp] theorem State.takeException_dataByte (s : State) (e : Exception) (a : Word) :
    (s.takeException e).dataByte a = s.dataByte a := rfl

/-! ## After write-back (R223) and at the end of a tick (R255) -/

/-- What write-back can do (R223, R256): the one register write. -/
theorem State.writeBack_reg (s : State) (r : RegNum) :
    s.writeBack.reg r = if s.memwb.dest = r ∧ r ≠ 0 then s.memwb.wval.getD (s.reg r) else s.reg r := by
  unfold State.writeBack
  split
  · rename_i h
    simp [h]
  · rename_i v h
    rw [State.reg_setReg]
    by_cases hr : s.memwb.dest = r
    · subst hr
      simp [h]
    · simp [hr, Ne.symm hr]

/-- Write-back touches nothing but the register file. -/
theorem State.writeBack_eq (s : State) : s.writeBack = { s with regs := s.writeBack.regs } := by
  unfold State.writeBack
  split
  · rfl
  · exact State.setReg_eq ..

@[simp] theorem State.writeBack_view (s : State) : s.writeBack.view = s.view := by rw [State.writeBack_eq]
@[simp] theorem State.writeBack_cfg (s : State) : s.writeBack.cfg = s.cfg := by rw [State.writeBack_eq]
@[simp] theorem State.writeBack_pc (s : State) : s.writeBack.pc = s.pc := by rw [State.writeBack_eq]
@[simp] theorem State.writeBack_npc (s : State) : s.writeBack.npc = s.npc := by rw [State.writeBack_eq]
@[simp] theorem State.writeBack_ifid (s : State) : s.writeBack.ifid = s.ifid := by rw [State.writeBack_eq]
@[simp] theorem State.writeBack_idex (s : State) : s.writeBack.idex = s.idex := by rw [State.writeBack_eq]
@[simp] theorem State.writeBack_exmem (s : State) : s.writeBack.exmem = s.exmem := by rw [State.writeBack_eq]
@[simp] theorem State.writeBack_memwb (s : State) : s.writeBack.memwb = s.memwb := by rw [State.writeBack_eq]
@[simp] theorem State.writeBack_haltSeen (s : State) : s.writeBack.haltSeen = s.haltSeen := by rw [State.writeBack_eq]
@[simp] theorem State.writeBack_status (s : State) : s.writeBack.status = s.status := by rw [State.writeBack_eq]
@[simp] theorem State.writeBack_ifWait (s : State) : s.writeBack.ifWait = s.ifWait := by rw [State.writeBack_eq]
@[simp] theorem State.writeBack_memWait (s : State) : s.writeBack.memWait = s.memWait := by rw [State.writeBack_eq]
@[simp] theorem State.writeBack_cycle (s : State) : s.writeBack.cycle = s.cycle := by rw [State.writeBack_eq]
@[simp] theorem State.writeBack_ic (s : State) : s.writeBack.ic = s.ic := by rw [State.writeBack_eq]
@[simp] theorem State.writeBack_dc (s : State) : s.writeBack.dc = s.dc := by rw [State.writeBack_eq]
@[simp] theorem State.writeBack_mem (s : State) : s.writeBack.mem = s.mem := by rw [State.writeBack_eq]

@[simp] theorem State.endOfTick_view (s : State) (ic : Cache) (p : CacheStore) : (s.endOfTick ic p).view = s.view := rfl
@[simp] theorem State.endOfTick_cfg (s : State) (ic : Cache) (p : CacheStore) : (s.endOfTick ic p).cfg = s.cfg := rfl
@[simp] theorem State.endOfTick_regs (s : State) (ic : Cache) (p : CacheStore) : (s.endOfTick ic p).regs = s.regs := rfl
@[simp] theorem State.endOfTick_pc (s : State) (ic : Cache) (p : CacheStore) : (s.endOfTick ic p).pc = s.pc := rfl
@[simp] theorem State.endOfTick_npc (s : State) (ic : Cache) (p : CacheStore) : (s.endOfTick ic p).npc = s.npc := rfl
@[simp] theorem State.endOfTick_ifid (s : State) (ic : Cache) (p : CacheStore) : (s.endOfTick ic p).ifid = s.ifid := rfl
@[simp] theorem State.endOfTick_idex (s : State) (ic : Cache) (p : CacheStore) : (s.endOfTick ic p).idex = s.idex := rfl
@[simp] theorem State.endOfTick_exmem (s : State) (ic : Cache) (p : CacheStore) : (s.endOfTick ic p).exmem = s.exmem := rfl
@[simp] theorem State.endOfTick_memwb (s : State) (ic : Cache) (p : CacheStore) : (s.endOfTick ic p).memwb = s.memwb := rfl
@[simp] theorem State.endOfTick_haltSeen (s : State) (ic : Cache) (p : CacheStore) : (s.endOfTick ic p).haltSeen = s.haltSeen := rfl
@[simp] theorem State.endOfTick_status (s : State) (ic : Cache) (p : CacheStore) : (s.endOfTick ic p).status = if s.haltNow then .halted else s.status := rfl
@[simp] theorem State.endOfTick_ifWait (s : State) (ic : Cache) (p : CacheStore) : (s.endOfTick ic p).ifWait = s.ifWait := rfl
@[simp] theorem State.endOfTick_memWait (s : State) (ic : Cache) (p : CacheStore) : (s.endOfTick ic p).memWait = s.memWait := rfl
@[simp] theorem State.endOfTick_cycle (s : State) (ic : Cache) (p : CacheStore) : (s.endOfTick ic p).cycle = s.cycle + 1 := rfl
@[simp] theorem State.endOfTick_ic (s : State) (ic : Cache) (p : CacheStore) : (s.endOfTick ic p).ic = ic := rfl
@[simp] theorem State.endOfTick_dc (s : State) (ic : Cache) (p : CacheStore) : (s.endOfTick ic p).dc = p.cache := rfl
@[simp] theorem State.endOfTick_mem (s : State) (ic : Cache) (p : CacheStore) : (s.endOfTick ic p).mem = p.mem := rfl

/-! ## Reset (R42) -/

@[simp] theorem State.initial_reg (cfg : CoreConfig) (m : Memory) (r : RegNum) : (State.initial cfg m).reg r = 0 := by
  simp [State.reg, State.initial]

theorem reset_eq_initial : State.reset = State.initial Config.default [] := rfl

end Sys2Proof.Machine
end

