-- ==== Sys2Proof/Laws/Ops.lean ====
section
/-! SUPPORT. What each shared operation over the state can do, said once. -/

namespace Sys2Proof.Machine

/-! ## The sides of a well-formed state -/

/-- The data cache of a well-formed state is sound over the store. -/
theorem State.wf.data {s : State} (h : s.wf) : s.dataSide.Sound s.cfg.dcfg := by
  obtain ⟨hc, -, hm, -, -, hd, hco⟩ := h
  refine ⟨?_, hm, hd, hco⟩
  simp only [CoreConfig.wellFormed, Bool.and_eq_true] at hc
  exact hc.2

/-- A well-formed state whose `IC` lines are as the store has a sound fetch side. -/
theorem State.wf.fetch {s : State} (h : s.wf) (hco : s.ic.coherent s.cfg.icfg s.mem) : s.fetchSide.Sound s.cfg.icfg := by
  obtain ⟨hc, -, hm, hi, -, -, -⟩ := h
  refine ⟨?_, hm, hi, hco⟩
  simp only [CoreConfig.wellFormed, Bool.and_eq_true] at hc
  exact hc.1.2

/-- A state with another sound data side is well formed. -/
theorem State.wf.withData {s : State} (h : s.wf) {p : CacheStore} (hp : p.Sound s.cfg.dcfg) : (s.withData p).wf := by
  obtain ⟨hc, h0, -, hi, hcl, -, -⟩ := h
  exact ⟨hc, h0, hp.mem, hi, hcl, hp.cache, hp.coherent⟩

/-- A register write keeps well-formedness: register 0 is never written (R22). -/
theorem State.wf.setReg {s : State} (h : s.wf) (r : RegNum) (v : Word) : (s.setReg r v).wf := by
  obtain ⟨hc, h0, hm, hi, hcl, hd, hco⟩ := h
  refine ⟨?_, ?_, ?_, ?_, ?_, ?_, ?_⟩
  · simpa using hc
  · unfold State.setReg
    split
    · exact h0
    · rename_i hr
      have : r.toNat ≠ 0 := fun hn => hr (BitVec.eq_of_toNat_eq hn)
      simpa [Vector.getElem_set, this] using h0
  · simpa using hm
  · simpa using hi
  · simpa using hcl
  · simpa using hd
  · simpa using hco

/-- Well-formedness looks at the parameters, register 0, the store and the caches alone. -/
theorem State.wf.of_same {s t : State} (h : s.wf) (hc : t.cfg = s.cfg) (hr : t.regs = s.regs) (hm : t.mem = s.mem)
    (hi : t.ic = s.ic) (hd : t.dc = s.dc) : t.wf := by
  unfold State.wf at h ⊢
  rw [hc, hr, hm, hi, hd]
  exact h

theorem State.wf.advance {s : State} (h : s.wf) : s.advance.wf := h.of_same rfl rfl rfl rfl rfl
theorem State.wf.transfer {s : State} (h : s.wf) (target : Word) : (s.transfer target).wf := h.of_same rfl rfl rfl rfl rfl
theorem State.wf.takeException {s : State} (h : s.wf) (e : Exception) : (s.takeException e).wf := h.of_same rfl rfl rfl rfl rfl

/-! ## The shapes of an instruction -/

theorem State.writeResult_eq (s : State) (rd : RegNum) (v : Word) : s.writeResult rd v = .next (s.setReg rd v).advance := rfl

/-- What a trapping result can do (R131, R133, R151). -/
theorem State.writeTrapping_eq (s : State) (rd : RegNum) (ov : Bool) (v : Word) :
    s.writeTrapping rd ov v = if ov = true then .next (s.takeException .overflow) else .next (s.setReg rd v).advance := rfl

/-- What a conditional transfer can do (R190). -/
theorem State.branchIf_eq (s : State) (taken : Bool) (target : Word) :
    s.branchIf taken target = .next (if taken then s.transfer target else s.advance) := by
  cases taken <;> rfl

/-- What a load can do (R56, R170): the data cache serves the bytes, the register is written, the program counter moves. -/
theorem State.load_next {s t : State} {sz : AccessSize} {rt rs : RegNum} {imm : BitVec 16} (h : s.load sz rt rs imm = .next t) :
    ∃ bs p, Cache.serveRead s.dcEnv (effectiveAddress (s.reg rs) imm) sz.bytes s.dataSide = .ok (bs, p) ∧
      t = ((s.withData p).setReg rt (valueOfBytes bs)).advance := by
  unfold State.load at h
  split at h
  · cases h
  · rename_i bs p hr
    exact ⟨bs, p, hr, (Host.Outcome.next.inj h).symm⟩

/-- What a store can do (R57, R170). -/
theorem State.store_next {s t : State} {sz : AccessSize} {rt rs : RegNum} {imm : BitVec 16}
    (h : s.store sz rt rs imm = .next t) :
    ∃ p, Cache.serveWrite s.dcEnv (effectiveAddress (s.reg rs) imm) (bytesOfValue sz.bytes (s.reg rt)) s.dataSide = .ok p ∧
      t = (s.withData p).advance := by
  unfold State.store at h
  split at h
  · cases h
  · rename_i p hr
    exact ⟨p, hr, (Host.Outcome.next.inj h).symm⟩

/-- What a fetch can do (R59, R64). -/
theorem State.fetchWhole_ok {s s' : State} {w : Word} (h : s.fetchWhole = .ok (w, s')) :
    ∃ bs p, Cache.serveRead s.icEnv s.pc 4 s.fetchSide = .ok (bs, p) ∧ w = valueOfBytes bs ∧ s' = s.withFetch p := by
  unfold State.fetchWhole at h
  split at h
  · cases h
  · rename_i bs p hr
    have h := Except.ok.inj h
    rw [Prod.mk.injEq] at h
    exact ⟨bs, p, hr, h.1.symm, h.2.symm⟩

/-- What one word can do (R190, R212). -/
theorem State.runWord_eq (s : State) (w : Word) :
    (∃ i, decode s.cfg.haltWord w = .ok i ∧ s.runWord w = exec i s) ∨
      (∃ e, decode s.cfg.haltWord w = .error e ∧ s.runWord w = .next (s.takeException .illegalInstruction)) := by
  unfold State.runWord
  rcases decode s.cfg.haltWord w with e | i
  · exact .inr ⟨e, rfl, rfl⟩
  · exact .inl ⟨i, rfl, rfl⟩

/-- What a step of the instruction view can do in a live core (R190). -/
theorem instructionStep_next {s t : State} (hl : s.status = .notHalted) (h : instructionStep s = .next t) :
    ∃ w s', s.fetchWhole = .ok (w, s') ∧ s'.runWord w = .next t := by
  unfold instructionStep at h
  rw [hl] at h
  simp only at h
  split at h
  · cases h
  · rename_i w s' hf
    exact ⟨w, s', hf, h⟩

/-! ## Accepting stores -/

theorem getValue_acceptsAll {valid : List Region} (h : acceptsAll valid) (m : Memory) (a : Word) (sz : AccessSize) :
    getValue valid m a sz = .ok ((byteAddresses sz.bytes a).map fun x => readByte m x.toNat) := by
  simp [getValue, firstRefused_of_acceptsAll h]

theorem fillBlock_acceptsAll {valid : List Region} (h : acceptsAll valid) (m : Memory) (n : Nat) (a : Word) :
    ∃ bs, fillBlock valid m n a = .ok bs := by
  induction n generalizing a with
  | zero => exact ⟨[], rfl⟩
  | succ n ih =>
    obtain ⟨bs, hbs⟩ := ih (a + 1)
    exact ⟨_, by simp only [fillBlock, getValue_acceptsAll h, hbs]; rfl⟩

theorem writeBlock_acceptsAll {valid : List Region} (h : acceptsAll valid) (m : Memory) (a : Word) (bs : List Byte) :
    ∃ m', writeBlock valid m a bs = .ok m' := by
  induction bs generalizing m a with
  | nil => exact ⟨m, rfl⟩
  | cons b bs ih =>
    obtain ⟨m', hm'⟩ := ih (writeBytesAt m a [b]) (a + 1)
    exact ⟨m', by simp only [writeBlock, setValue, firstRefused_of_acceptsAll h, hm']⟩

theorem missProc_acceptsAll {e : CacheEnv} (h : acceptsAll e.valid) (a : Word) (p : CacheStore) :
    ∃ p', missProc e a p = .ok p' := by
  unfold missProc
  simp only
  have hw : ∃ m, writeBackLine e (e.cfg.index a)
      (p.cache.line (e.cfg.index a) (victimWay (p.cache.set (e.cfg.index a)))) p.mem = .ok m := by
    unfold writeBackLine
    split
    · exact writeBlock_acceptsAll h _ _ _
    · exact ⟨_, rfl⟩
  obtain ⟨m, hm⟩ := hw
  obtain ⟨bs, hbs⟩ := fillBlock_acceptsAll h m e.cfg.blockSizeBytes (e.cfg.blockBase a)
  simp only [hm, hbs]
  exact ⟨_, rfl⟩

theorem touch_acceptsAll {e : CacheEnv} (h : acceptsAll e.valid) (a : Word) (p : CacheStore) : ∃ p', touch e a p = .ok p' := by
  unfold touch
  split
  · exact missProc_acceptsAll h a p
  · exact ⟨_, rfl⟩

theorem ensure_acceptsAll {e : CacheEnv} (h : acceptsAll e.valid) (a : Word) (p : CacheStore) : ∃ p', ensure e a p = .ok p' := by
  unfold ensure
  split
  · exact missProc_acceptsAll h a p
  · exact ⟨_, rfl⟩

theorem readLoop_acceptsAll {e : CacheEnv} (h : acceptsAll e.valid) (n : Nat) (a : Word) (p : CacheStore) :
    ∃ r, readLoop e n a p = .ok r := by
  induction n generalizing a p with
  | zero => exact ⟨_, rfl⟩
  | succ n ih =>
    obtain ⟨p₁, hp₁⟩ := touch_acceptsAll h a p
    obtain ⟨⟨bs, p₂⟩, hr⟩ := ih (a + 1) p₁
    exact ⟨_, by simp only [readLoop, hp₁, hr]; rfl⟩

theorem writeLoop_acceptsAll {e : CacheEnv} (h : acceptsAll e.valid) (st : AccessStatus) (bs : List Byte) (a : Word)
    (p : CacheStore) : ∃ p', writeLoop e st bs a p = .ok p' := by
  induction bs generalizing a p with
  | nil => exact ⟨_, rfl⟩
  | cons b bs ih =>
    have h₁ : ∃ p₁, (if st = .hit then touch e a p else ensure e a p) = .ok p₁ := by
      split
      · exact touch_acceptsAll h a p
      · exact ensure_acceptsAll h a p
    obtain ⟨p₁, hp₁⟩ := h₁
    obtain ⟨p₂, hp₂⟩ := ih (a + 1) { p₁ with cache := p₁.cache.putByte e.cfg a b }
    exact ⟨p₂, by simp only [writeLoop, hp₁, hp₂]⟩

/-- With a store that accepts every address no cache read fails (R53). -/
theorem Cache.read_acceptsAll {e : CacheEnv} (h : acceptsAll e.valid) (a : Word) (n : Nat) (first : Bool) (p : CacheStore) :
    ∃ r, Cache.read e a n first p = .ok r := by
  unfold Cache.read
  split
  · exact ⟨_, rfl⟩
  · obtain ⟨p', hp'⟩ := missProc_acceptsAll h a { p with cache := p.cache.count first .miss }
    simp only [hp']
    exact ⟨_, rfl⟩
  · obtain ⟨⟨bs, p'⟩, hp'⟩ := readLoop_acceptsAll h n a { p with cache := p.cache.count first .hit }
    simp only [hp']
    exact ⟨_, rfl⟩

/-- With a store that accepts every address no cache write fails (R53). -/
theorem Cache.write_acceptsAll {e : CacheEnv} (h : acceptsAll e.valid) (a : Word) (bs : List Byte) (first : Bool)
    (p : CacheStore) : ∃ r, Cache.write e a bs first p = .ok r := by
  unfold Cache.write
  split
  · exact ⟨_, rfl⟩
  · obtain ⟨p', hp'⟩ := missProc_acceptsAll h a { p with cache := p.cache.count first .miss }
    obtain ⟨p'', hp''⟩ := writeLoop_acceptsAll h .miss bs a p'
    simp only [hp', hp'']
    exact ⟨_, rfl⟩
  · obtain ⟨p', hp'⟩ := writeLoop_acceptsAll h .hit bs a { p with cache := p.cache.count first .hit }
    simp only [hp']
    exact ⟨_, rfl⟩

end Sys2Proof.Machine
end

