-- ==== Sys2Proof/Laws/PerInstr.lean ====
section
/-! SUPPORT. The laws stated per instruction. `EncodingRow`: an encoded instruction lies in its own row of R109, `word & mask = match`,
with the numbers as the opcode table has them. -/

namespace Sys2Proof.Laws

/-- `mask` and `match` of each row of R109; the sentinel's row is the whole word, a parameter. -/
def tableRow : Instr → Option (Word × Word)
  | .halt => none
  | .sll .. => some (0xFC00003F, 0x00000000)
  | .srl .. => some (0xFC00003F, 0x00000002)
  | .jr _ => some (0xFC00003F, 0x00000008)
  | .add .. => some (0xFC00003F, 0x00000020)
  | .addu .. => some (0xFC00003F, 0x00000021)
  | .sub .. => some (0xFC00003F, 0x00000022)
  | .subu .. => some (0xFC00003F, 0x00000023)
  | .and .. => some (0xFC00003F, 0x00000024)
  | .or .. => some (0xFC00003F, 0x00000025)
  | .nor .. => some (0xFC00003F, 0x00000027)
  | .slt .. => some (0xFC00003F, 0x0000002A)
  | .sltu .. => some (0xFC00003F, 0x0000002B)
  | .j _ => some (0xFC000000, 0x08000000)
  | .jal _ => some (0xFC000000, 0x0C000000)
  | .beq .. => some (0xFC000000, 0x10000000)
  | .bne .. => some (0xFC000000, 0x14000000)
  | .blez .. => some (0xFC000000, 0x18000000)
  | .bgtz .. => some (0xFC000000, 0x1C000000)
  | .addi .. => some (0xFC000000, 0x20000000)
  | .addiu .. => some (0xFC000000, 0x24000000)
  | .slti .. => some (0xFC000000, 0x28000000)
  | .sltiu .. => some (0xFC000000, 0x2C000000)
  | .andi .. => some (0xFC000000, 0x30000000)
  | .ori .. => some (0xFC000000, 0x34000000)
  | .lui .. => some (0xFC000000, 0x3C000000)
  | .lw .. => some (0xFC000000, 0x8C000000)
  | .lbu .. => some (0xFC000000, 0x90000000)
  | .lhu .. => some (0xFC000000, 0x94000000)
  | .sb .. => some (0xFC000000, 0xA0000000)
  | .sh .. => some (0xFC000000, 0xA4000000)
  | .sw .. => some (0xFC000000, 0xAC000000)

/-- The encoding of `i` under every sentinel is in the row of `i`. -/
def EncodingRow.Statement (i : Instr) : Prop :=
  ∀ hw : Word, match tableRow i with
    | none => encode hw i = hw
    | some (mask, pattern) => encode hw i &&& mask = pattern

/-- The mask of the R table keeps opcode 0 and the function code. -/
theorem encodeR_row (rs rt rd sa : RegNum) (funct : BitVec 6) :
    encodeR rs rt rd sa funct &&& 0xFC00003F = funct.setWidth 32 := by
  ext k hk
  simp only [encodeR, BitVec.getElem_and, BitVec.getElem_append, BitVec.getElem_setWidth]
  have : k ∈ Finset.range 32 := Finset.mem_range.2 hk
  fin_cases this <;> simp

/-- The mask of the I table keeps the opcode. -/
theorem encodeI_row (opcode : BitVec 6) (rs rt : RegNum) (imm : BitVec 16) :
    encodeI opcode rs rt imm &&& 0xFC000000 = opcode ++ (0 : BitVec 26) := by
  ext k hk
  simp only [encodeI, BitVec.getElem_and, BitVec.getElem_append]
  have : k ∈ Finset.range 32 := Finset.mem_range.2 hk
  fin_cases this <;> simp

/-- The mask of the J table keeps the opcode. -/
theorem encodeJ_row (opcode : BitVec 6) (target : BitVec 26) :
    encodeJ opcode target &&& 0xFC000000 = opcode ++ (0 : BitVec 26) := by
  ext k hk
  simp only [encodeJ, BitVec.getElem_and, BitVec.getElem_append]
  have : k ∈ Finset.range 32 := Finset.mem_range.2 hk
  fin_cases this <;> simp

theorem EncodingRow.halt : EncodingRow.Statement .halt := fun _ => rfl
theorem EncodingRow.sll (rd rt sa : RegNum) : EncodingRow.Statement (.sll rd rt sa) :=
  fun _ => encodeR_row ..
theorem EncodingRow.srl (rd rt sa : RegNum) : EncodingRow.Statement (.srl rd rt sa) :=
  fun _ => encodeR_row ..
theorem EncodingRow.jr (rs : RegNum) : EncodingRow.Statement (.jr rs) :=
  fun _ => encodeR_row ..
theorem EncodingRow.add (rd rs rt : RegNum) : EncodingRow.Statement (.add rd rs rt) :=
  fun _ => encodeR_row ..
theorem EncodingRow.addu (rd rs rt : RegNum) : EncodingRow.Statement (.addu rd rs rt) :=
  fun _ => encodeR_row ..
theorem EncodingRow.sub (rd rs rt : RegNum) : EncodingRow.Statement (.sub rd rs rt) :=
  fun _ => encodeR_row ..
theorem EncodingRow.subu (rd rs rt : RegNum) : EncodingRow.Statement (.subu rd rs rt) :=
  fun _ => encodeR_row ..
theorem EncodingRow.and (rd rs rt : RegNum) : EncodingRow.Statement (.and rd rs rt) :=
  fun _ => encodeR_row ..
theorem EncodingRow.or (rd rs rt : RegNum) : EncodingRow.Statement (.or rd rs rt) :=
  fun _ => encodeR_row ..
theorem EncodingRow.nor (rd rs rt : RegNum) : EncodingRow.Statement (.nor rd rs rt) :=
  fun _ => encodeR_row ..
theorem EncodingRow.slt (rd rs rt : RegNum) : EncodingRow.Statement (.slt rd rs rt) :=
  fun _ => encodeR_row ..
theorem EncodingRow.sltu (rd rs rt : RegNum) : EncodingRow.Statement (.sltu rd rs rt) :=
  fun _ => encodeR_row ..
theorem EncodingRow.j (target : BitVec 26) : EncodingRow.Statement (.j target) :=
  fun _ => encodeJ_row ..
theorem EncodingRow.jal (target : BitVec 26) : EncodingRow.Statement (.jal target) :=
  fun _ => encodeJ_row ..
theorem EncodingRow.beq (rs rt : RegNum) (imm : BitVec 16) : EncodingRow.Statement (.beq rs rt imm) :=
  fun _ => encodeI_row ..
theorem EncodingRow.bne (rs rt : RegNum) (imm : BitVec 16) : EncodingRow.Statement (.bne rs rt imm) :=
  fun _ => encodeI_row ..
theorem EncodingRow.blez (rs : RegNum) (imm : BitVec 16) : EncodingRow.Statement (.blez rs imm) :=
  fun _ => encodeI_row ..
theorem EncodingRow.bgtz (rs : RegNum) (imm : BitVec 16) : EncodingRow.Statement (.bgtz rs imm) :=
  fun _ => encodeI_row ..
theorem EncodingRow.addi (rt rs : RegNum) (imm : BitVec 16) : EncodingRow.Statement (.addi rt rs imm) :=
  fun _ => encodeI_row ..
theorem EncodingRow.addiu (rt rs : RegNum) (imm : BitVec 16) : EncodingRow.Statement (.addiu rt rs imm) :=
  fun _ => encodeI_row ..
theorem EncodingRow.slti (rt rs : RegNum) (imm : BitVec 16) : EncodingRow.Statement (.slti rt rs imm) :=
  fun _ => encodeI_row ..
theorem EncodingRow.sltiu (rt rs : RegNum) (imm : BitVec 16) : EncodingRow.Statement (.sltiu rt rs imm) :=
  fun _ => encodeI_row ..
theorem EncodingRow.andi (rt rs : RegNum) (imm : BitVec 16) : EncodingRow.Statement (.andi rt rs imm) :=
  fun _ => encodeI_row ..
theorem EncodingRow.ori (rt rs : RegNum) (imm : BitVec 16) : EncodingRow.Statement (.ori rt rs imm) :=
  fun _ => encodeI_row ..
theorem EncodingRow.lui (rt : RegNum) (imm : BitVec 16) : EncodingRow.Statement (.lui rt imm) :=
  fun _ => encodeI_row ..
theorem EncodingRow.lw (rt rs : RegNum) (imm : BitVec 16) : EncodingRow.Statement (.lw rt rs imm) :=
  fun _ => encodeI_row ..
theorem EncodingRow.lbu (rt rs : RegNum) (imm : BitVec 16) : EncodingRow.Statement (.lbu rt rs imm) :=
  fun _ => encodeI_row ..
theorem EncodingRow.lhu (rt rs : RegNum) (imm : BitVec 16) : EncodingRow.Statement (.lhu rt rs imm) :=
  fun _ => encodeI_row ..
theorem EncodingRow.sb (rt rs : RegNum) (imm : BitVec 16) : EncodingRow.Statement (.sb rt rs imm) :=
  fun _ => encodeI_row ..
theorem EncodingRow.sh (rt rs : RegNum) (imm : BitVec 16) : EncodingRow.Statement (.sh rt rs imm) :=
  fun _ => encodeI_row ..
theorem EncodingRow.sw (rt rs : RegNum) (imm : BitVec 16) : EncodingRow.Statement (.sw rt rs imm) :=
  fun _ => encodeI_row ..

end Sys2Proof.Laws
end

