-- ==== Sys2Proof/Laws/Pipeline.lean ====
section
/-! SUPPORT. What a tick and a step can do: one inversion lemma per stage and commit case (R220, R246). -/

namespace Sys2Proof.Machine

/-- What a live tick can do (R220): its fetch and memory stages answered, and it committed. -/
theorem State.liveTick_next {s t : State} (h : s.liveTick = .next t) :
    ∃ f m, s.writeBack.fetchStage = .ok f ∧ s.writeBack.memoryStage f.side.mem = .ok m ∧
      t = (s.writeBack.endOfTick f.side.cache m.side).commit f (s.writeBack.decodeStage f.word.isSome)
        s.writeBack.executeStage m := by
  unfold State.liveTick at h
  simp only at h
  split at h
  · cases h
  · rename_i f hf
    split at h
    · cases h
    · rename_i m hm
      exact ⟨f, m, hf, hm, (Host.Outcome.next.inj h).symm⟩

/-- What a tick can do (R220, R255): nothing in a core that has stopped. -/
theorem tick_next {s t : State} (h : tick s = .next t) :
    (s.status ≠ .notHalted ∧ t = s) ∨ (s.status = .notHalted ∧ s.liveTick = .next t) := by
  unfold tick at h
  split at h
  · rename_i hs
    exact .inr ⟨hs, h⟩
  · rename_i hs
    exact .inl ⟨by simp [hs], (Host.Outcome.next.inj h).symm⟩
  · rename_i hs
    exact .inl ⟨by simp [hs], (Host.Outcome.next.inj h).symm⟩

/-- What a step can do: only with parameters that `init` accepts, and by the view (R12, R71). -/
theorem step_next {s t : State} (h : step s = .next t) :
    s.cfg.wellFormed = true ∧
      ((s.view = .cycle ∧ tick s = .next t) ∨ (s.view = .instruction ∧ instructionStep s = .next t)) := by
  unfold step at h
  split at h
  · rename_i hc
    refine ⟨hc, ?_⟩
    split at h
    · rename_i hv
      exact .inl ⟨hv, h⟩
    · rename_i hv
      exact .inr ⟨hv, h⟩
  · cases h

/-- What the fetch stage can do (R240). -/
theorem State.fetchStage_ok {s : State} {f : FetchResult} (h : s.fetchStage = .ok f) :
    (s.haltSeen = true ∧ f = ⟨s.fetchSide, false, none⟩) ∨
      (s.haltSeen = false ∧ ∃ r, Cache.read s.icEnv s.pc 4 (!s.ifWait) s.fetchSide = .ok r ∧
        f = ⟨r.store, true, r.value.map valueOfBytes⟩) := by
  unfold State.fetchStage at h
  split at h
  · rename_i hh
    exact .inl ⟨hh, (Except.ok.inj h).symm⟩
  · rename_i hh
    split at h
    · cases h
    · rename_i r hr
      exact .inr ⟨by simpa using hh, r, hr, (Except.ok.inj h).symm⟩

/-- What the memory stage can do (R245). -/
theorem State.memoryStage_ok {s : State} {mem : Memory} {m : MemResult} (h : s.memoryStage mem = .ok m) :
    (∃ i sz rs imm r, opOf s.cfg.haltWord s.exmem.word = some i ∧ memAccess i = .load sz rs imm ∧
      Cache.read s.dcEnv (effectiveAddress (s.memOperand rs) imm) sz.bytes (!s.memWait) ⟨s.dc, mem⟩ = .ok r ∧
      m = ⟨r.store, r.value.map valueOfBytes, r.value.isNone⟩) ∨
    (∃ i sz rt rs imm r, opOf s.cfg.haltWord s.exmem.word = some i ∧ memAccess i = .store sz rt rs imm ∧
      Cache.write s.dcEnv (effectiveAddress (s.memOperand rs) imm) (bytesOfValue sz.bytes (s.memOperand rt)) (!s.memWait)
        ⟨s.dc, mem⟩ = .ok r ∧ m = ⟨r.store, none, decide (r.status = .miss)⟩) ∨
    (accessesData s.cfg.haltWord s.exmem.word = false ∧ m = ⟨⟨s.dc, mem⟩, s.exmem.wval, false⟩) := by
  unfold State.memoryStage at h
  rcases ho : opOf s.cfg.haltWord s.exmem.word with _ | i
  · rw [ho] at h
    exact .inr (.inr ⟨by simp [accessesData, ho], (Except.ok.inj h).symm⟩)
  · rw [ho] at h
    rcases hm : memAccess i with _ | ⟨sz, rs, imm⟩ | ⟨sz, rt, rs, imm⟩
    · rw [Option.map_some, hm] at h
      exact .inr (.inr ⟨by simp [accessesData, ho, hm], (Except.ok.inj h).symm⟩)
    · rw [Option.map_some, hm] at h
      simp only at h
      split at h
      · cases h
      · rename_i r hr
        exact .inl ⟨i, sz, rs, imm, r, rfl, hm, hr, (Except.ok.inj h).symm⟩
    · rw [Option.map_some, hm] at h
      simp only at h
      split at h
      · cases h
      · rename_i r hr
        exact .inr (.inl ⟨i, sz, rt, rs, imm, r, rfl, hm, hr, (Except.ok.inj h).symm⟩)

/-- The commit of a stalled memory stage (R238). -/
theorem State.commit_stall (s : State) (f : FetchResult) (d : DecodeResult) (e : ExOutcome) {m : MemResult}
    (h : m.stalls = true) :
    s.commit f d e m = { s with memwb := .bubble, memWait := true, ifWait := f.presented || s.ifWait } := by
  simp [State.commit, h]

/-- The commit of a memory stage that does not stall (R246). -/
theorem State.commit_go (s : State) (f : FetchResult) (d : DecodeResult) (e : ExOutcome) {m : MemResult}
    (h : m.stalls = false) : s.commit f d e m = s.commitExecute f d e m.result := by
  simp [State.commit, h]

/-- The bubble's word is the no-op, for every sentinel that `init` accepts (R113, R226). -/
theorem opOf_bubble {hw : Word} (h : haltWordFree hw = true) : opOf hw 0#32 = some (.sll 0#5 0#5 0#5) := by
  unfold haltWordFree at h
  rw [Bool.and_eq_true, decide_eq_true_eq] at h
  have hne : (0#32 : Word) ≠ hw := fun he => h.2 he.symm
  have hd : decode hw 0#32 = .ok (.sll 0#5 0#5 0#5) := by
    unfold decode
    rw [if_neg hne]
    rfl
  simp only [opOf, hd]
  rfl

theorem haltWord_ne_bubble {hw : Word} (h : haltWordFree hw = true) : ¬ 0#32 = hw := by
  unfold haltWordFree at h
  rw [Bool.and_eq_true, decide_eq_true_eq] at h
  exact fun he => h.2 he.symm

/-- A bubble writes nothing, loads nothing, accesses no data (R226). -/
theorem bubble_harmless {hw : Word} (h : haltWordFree hw = true) :
    destOfWord hw 0#32 = 0#5 ∧ isLoadWord hw 0#32 = false ∧ accessesData hw 0#32 = false ∧ exSrcs hw 0#32 = [0#5] := by
  simp [destOfWord, isLoadWord, accessesData, exSrcs, opOf_bubble h, destOf, isLoad, memAccess, resolvesOnRegister, srcsOf]

/-- What a result leaves pending in `EXMEM` (R243, R249). -/
def ExOutcome.pending : ExOutcome → Option Word
  | .value v => some v
  | .none => Option.none
  | .overflow => Option.none

/-- What the commit can do (R220 step 7, R246): exactly one of seven cases, each with everything it changes. -/
theorem State.commit_cases (s : State) (f : FetchResult) (d : DecodeResult) (e : ExOutcome) (m : MemResult) :
    (m.stalls = true ∧
      s.commit f d e m = { s with memwb := .bubble, memWait := true, ifWait := f.presented || s.ifWait }) ∨
    (m.stalls = false ∧ e = .overflow ∧
      s.commit f d e m = { s with
        memwb := mkLatch s.cfg.haltWord s.exmem.word s.exmem.pc m.result, memWait := false, exmem := .bubble, idex := .bubble,
        ifid := .bubble, ifWait := false, pc := s.cfg.excVector, npc := s.cfg.excVector + 4 }) ∨
    (m.stalls = false ∧ e ≠ .overflow ∧ ∃ u, u = { s with
        memwb := mkLatch s.cfg.haltWord s.exmem.word s.exmem.pc m.result, memWait := false,
        exmem := mkLatch s.cfg.haltWord s.idex.word s.idex.pc e.pending } ∧
      ((d.illegal = true ∧ s.commit f d e m = { u with
        idex := .bubble, ifid := .bubble, ifWait := false, pc := s.cfg.excVector, npc := s.cfg.excVector + 4 }) ∨
      (d.illegal = false ∧ d.stalls = true ∧
        s.commit f d e m = { u with idex := .bubble, ifWait := f.presented || s.ifWait }) ∨
      (d.illegal = false ∧ d.stalls = false ∧ ∃ w, f.word = some w ∧ s.commit f d e m = { u with
        idex := mkLatch s.cfg.haltWord s.ifid.word s.ifid.pc none, ifid := mkLatch s.cfg.haltWord w s.pc none, ifWait := false,
        haltSeen := s.haltSeen || decide (w = s.cfg.haltWord), pc := d.taken.getD (s.pc + 4),
        npc := d.taken.getD (s.pc + 4) + 4 }) ∨
      (d.illegal = false ∧ d.stalls = false ∧ f.word = none ∧ ∃ target, d.taken = some target ∧ s.commit f d e m = { u with
        idex := mkLatch s.cfg.haltWord s.ifid.word s.ifid.pc none, ifid := .bubble, ifWait := false, pc := target,
        npc := target + 4 }) ∨
      (d.illegal = false ∧ d.stalls = false ∧ f.word = none ∧ d.taken = none ∧ s.commit f d e m = { u with
        idex := mkLatch s.cfg.haltWord s.ifid.word s.ifid.pc none, ifid := .bubble, ifWait := f.presented || s.ifWait }))) := by
  rcases hm : m.stalls
  · refine .inr ?_
    rw [s.commit_go f d e hm]
    by_cases he : e = .overflow
    · subst he
      exact .inl ⟨rfl, rfl, rfl⟩
    · refine .inr ⟨rfl, he, _, rfl, ?_⟩
      have hc : s.commitExecute f d e m.result = State.commitDecode { s with
          memwb := mkLatch s.cfg.haltWord s.exmem.word s.exmem.pc m.result, memWait := false,
          exmem := mkLatch s.cfg.haltWord s.idex.word s.idex.pc e.pending } f d := by
        cases e with
        | none => rfl
        | value v => rfl
        | overflow => exact absurd rfl he
      rw [hc]
      unfold State.commitDecode
      rcases hi : d.illegal
      · rcases hs : d.stalls
        · refine .inr (.inr ?_)
          simp only [Bool.false_eq_true, if_false, true_and]
          unfold State.commitAdvance
          rcases hf : f.word with _ | w
          · rcases ht : d.taken with _ | target
            · exact .inr (.inr ⟨rfl, rfl, rfl⟩)
            · exact .inr (.inl ⟨rfl, target, rfl, rfl⟩)
          · exact .inl ⟨w, rfl, rfl⟩
        · exact .inr (.inl ⟨rfl, rfl, rfl⟩)
      · exact .inl ⟨rfl, rfl⟩
  · exact .inl ⟨rfl, s.commit_stall f d e hm⟩

end Sys2Proof.Machine
end

