-- ==== Sys2Proof/Laws/Recency.lean ====
section
/-! SUPPORT. What the single operations do to lookup and to recency (R75, R80): which set they change, and which line is the newest. -/

namespace Sys2Proof.Machine

/-- One set unchanged, one lookup unchanged. -/
theorem Cache.find_of_set_eq {g : CacheConfig} {c c' : Cache} {a : Word} (h : c'.set (g.index a) = c.set (g.index a)) :
    c'.find g a = c.find g a := by rw [Cache.find, Cache.find, h]

theorem Cache.line_of_set_eq {c c' : Cache} {s : Nat} (h : c'.set s = c.set s) (w : Nat) : c'.line s w = c.line s w := by
  rw [Cache.line, Cache.line, h]

theorem Cache.newest_of_set_eq {c c' : Cache} {s w : Nat} (h : c'.set s = c.set s) : c'.newest s w ↔ c.newest s w := by
  simp only [Cache.newest, h, Cache.line_of_set_eq h]

/-! ## A use -/

theorem Cache.use_line_same (c : Cache) {s w : Nat} (hw : w < (c.set s).length) :
    (c.use s w).line s w = { c.line s w with lru := c.stamp + 1 } :=
  Cache.line_setLine_same { c with stamp := c.stamp + 1 } _ hw

theorem Cache.use_line_other (c : Cache) {s w s' w' : Nat} (h : s' ≠ s ∨ w' ≠ w) : (c.use s w).line s' w' = c.line s' w' :=
  Cache.line_setLine_other { c with stamp := c.stamp + 1 } _ h

@[simp] theorem Cache.use_set_length (c : Cache) (s w s' : Nat) : ((c.use s w).set s').length = (c.set s').length := by
  rw [Cache.set_use]
  split
  · rename_i h
    simp [h]
  · rfl

@[simp] theorem Cache.use_find (g : CacheConfig) (c : Cache) (s w : Nat) (a : Word) : (c.use s w).find g a = c.find g a := by
  refine Cache.find_of_same_set (Cache.use_set_length ..) fun w' => ?_
  rcases c.line_use s w (g.index a) w' with h | h <;> simp [h]

/-- A use makes a valid line the newest of its set (R80). -/
theorem Cache.use_newest {g : CacheConfig} {c : Cache} {s w : Nat} (hc : c.wf g) (hs : s < c.sets.length)
    (hw : w < (c.set s).length) (hv : (c.line s w).valid = true) : (c.use s w).newest s w := by
  refine ⟨by rw [c.use_line_same hw]; exact hv, fun v hvl hne hvv => ?_⟩
  rw [Cache.use_set_length] at hvl
  rw [c.use_line_other (.inr hne)] at hvv ⊢
  rw [c.use_line_same hw]
  exact Nat.lt_succ_of_le (((Cache.waysWf_set hc hs).2.1 _ (c.line_mem hvl)).2 hvv)

/-! ## Putting a byte -/

/-- Putting a byte in its line changes that line's data and dirty flag and nothing else (R79). -/
theorem Cache.putByte_line (g : CacheConfig) (c : Cache) {a : Word} {w : Nat} (hf : c.find g a = some w) (b : Byte) :
    (c.putByte g a b).line (g.index a) w =
        { c.line (g.index a) w with data := (c.line (g.index a) w).data.set (g.offset a) b, dirty := true } ∧
      ∀ s v, s ≠ g.index a ∨ v ≠ w → (c.putByte g a b).line s v = c.line s v := by
  simp only [Cache.putByte, hf]
  exact ⟨Cache.line_setLine_same _ _ (Cache.find_some hf).1, fun s v h => Cache.line_setLine_other _ _ h⟩

/-- Putting a byte keeps each line's `valid`, `tag`, `lru` and `readyAt` (R79). -/
theorem Cache.putByte_same (g : CacheConfig) (c : Cache) (a : Word) (b : Byte) (s v : Nat) :
    ((c.putByte g a b).line s v).valid = (c.line s v).valid ∧ ((c.putByte g a b).line s v).tag = (c.line s v).tag ∧
      ((c.putByte g a b).line s v).lru = (c.line s v).lru ∧ ((c.putByte g a b).line s v).readyAt = (c.line s v).readyAt := by
  rcases hf : c.find g a with _ | w
  · simp [Cache.putByte, hf]
  · obtain ⟨h₁, h₂⟩ := c.putByte_line g hf b
    by_cases h : s = g.index a ∧ v = w
    · rw [h.1, h.2, h₁]
      simp
    · rw [h₂ s v (by tauto)]
      simp

@[simp] theorem Cache.putByte_set_length (g : CacheConfig) (c : Cache) (a : Word) (b : Byte) (s : Nat) :
    ((c.putByte g a b).set s).length = (c.set s).length := by
  unfold Cache.putByte
  split
  · rfl
  · simp only [Cache.set_setLine]
    split
    · rename_i h
      simp [h]
    · rfl

@[simp] theorem Cache.putByte_find (g : CacheConfig) (c : Cache) (a : Word) (b : Byte) (x : Word) :
    (c.putByte g a b).find g x = c.find g x :=
  Cache.find_of_same_set (Cache.putByte_set_length ..) fun w =>
    ⟨(c.putByte_same g a b _ w).1, (c.putByte_same g a b _ w).2.1⟩

@[simp] theorem Cache.putByte_newest (g : CacheConfig) (c : Cache) (a : Word) (b : Byte) (s w : Nat) :
    (c.putByte g a b).newest s w ↔ c.newest s w := by
  have h := fun v => c.putByte_same g a b s v
  simp only [Cache.newest, Cache.putByte_set_length, (h _).1, (h _).2.2.1]

theorem Cache.putByte_set_other (g : CacheConfig) (c : Cache) (a : Word) (b : Byte) {s : Nat} (h : s ≠ g.index a) :
    (c.putByte g a b).set s = c.set s := by
  unfold Cache.putByte
  split
  · rfl
  · rw [Cache.set_setLine, if_neg h]

theorem Cache.putByte_wf {g : CacheConfig} {c : Cache} (hc : c.wf g) (a : Word) (b : Byte) : (c.putByte g a b).wf g := by
  have hst : (c.putByte g a b).stamp = c.stamp := by
    unfold Cache.putByte
    split <;> rfl
  have hlen : (c.putByte g a b).sets.length = c.sets.length := by
    unfold Cache.putByte
    split
    · rfl
    · exact Cache.setLine_length ..
  refine ⟨hlen.trans hc.1, fun ls hls => ?_⟩
  obtain ⟨s, hs, rfl⟩ := List.getElem_of_mem hls
  have hset : (c.putByte g a b).sets[s] = (c.putByte g a b).set s := by simp [Cache.set, List.getD_eq_getElem?_getD, hs]
  have hw := Cache.waysWf_set hc (hlen ▸ hs)
  have same : ∀ i (hi : i < ((c.putByte g a b).set s).length) (hi' : i < (c.set s).length),
      (((c.putByte g a b).set s)[i].valid = (c.set s)[i].valid ∧ ((c.putByte g a b).set s)[i].tag = (c.set s)[i].tag ∧
        ((c.putByte g a b).set s)[i].lru = (c.set s)[i].lru) ∧
        ((c.putByte g a b).set s)[i].data.length = (c.set s)[i].data.length := by
    intro i hi hi'
    have h := c.putByte_same g a b s i
    rw [← Cache.line_eq_getElem _ hi, ← Cache.line_eq_getElem _ hi']
    refine ⟨⟨h.1, h.2.1, h.2.2.1⟩, ?_⟩
    rcases hf : c.find g a with _ | w
    · simp [Cache.putByte, hf]
    · obtain ⟨h₁, h₂⟩ := c.putByte_line g hf b
      by_cases h : s = g.index a ∧ i = w
      · rw [h.1, h.2, h₁]
        simp
      · rw [h₂ s i (by tauto)]
  rw [hset, hst]
  refine ⟨by rw [Cache.putByte_set_length]; exact hw.1, fun l hl => ?_, List.pairwise_iff_getElem.2 fun i j hi hj hij vi vj => ?_⟩
  · obtain ⟨i, hi, rfl⟩ := List.getElem_of_mem hl
    have hi' : i < (c.set s).length := by simpa using hi
    obtain ⟨⟨h₁, h₂, h₃⟩, h₄⟩ := same i hi hi'
    have := hw.2.1 _ (List.getElem_mem hi')
    rw [CacheLine.wf, h₁, h₂, h₃, h₄]
    exact this
  · have hi' : i < (c.set s).length := by simpa using hi
    have hj' : j < (c.set s).length := by simpa using hj
    obtain ⟨⟨h₁, h₂, h₃⟩, -⟩ := same i hi hi'
    obtain ⟨⟨k₁, k₂, k₃⟩, -⟩ := same j hj hj'
    rw [h₁] at vi
    rw [k₁] at vj
    rw [h₂, h₃, k₂, k₃]
    exact List.pairwise_iff_getElem.1 hw.2.2 i j hi' hj' hij vi vj

/-! ## A miss, a touch -/

/-- What a miss does to the lines (R76): the victim's way takes the missing line, ready `L` ticks later, as the newest of its set, and no
other line changes. -/
theorem missProc_lines {e : CacheEnv} {a : Word} {p q : CacheStore} (hg : e.cfg.valid = true) (hc : p.cache.wf e.cfg)
    (hf : p.cache.find e.cfg a = none) (h : missProc e a p = .ok q) :
    ∃ w, w = victimWay (p.cache.set (e.cfg.index a)) ∧ w < (p.cache.set (e.cfg.index a)).length ∧
      (∃ block, q.cache.line (e.cfg.index a) w =
        ⟨true, false, e.cfg.tag a, p.cache.stamp + 1, e.cycle + e.cfg.missLatencyCycles, block⟩) ∧
      q.cache.find e.cfg a = some w ∧ q.cache.newest (e.cfg.index a) w ∧
      (∀ s v, s ≠ e.cfg.index a ∨ v ≠ w → q.cache.line s v = p.cache.line s v) ∧
      ∀ s, s ≠ e.cfg.index a → q.cache.set s = p.cache.set s := by
  have hwf := missProc_wf hg hc hf h
  obtain ⟨m, block, -, -, hp⟩ := missProc_ok h
  have hset := Cache.waysWf_set hc (Cache.index_lt_sets hg hc a)
  have hne : p.cache.set (e.cfg.index a) ≠ [] := by
    intro he
    have := hset.1
    rw [he] at this
    exact absurd this.symm (Nat.ne_of_gt e.cfg.ways_pos)
  have hw := victimWay_lt hne
  rw [Cache.use_setLine _ _ hw] at hp
  subst hp
  set w := victimWay (p.cache.set (e.cfg.index a))
  have hl := Cache.line_setLine_same { p.cache with stamp := p.cache.stamp + 1 }
    ⟨true, false, e.cfg.tag a, p.cache.stamp + 1, e.cycle + e.cfg.missLatencyCycles, block⟩ hw
  have ho := fun s v (h : s ≠ e.cfg.index a ∨ v ≠ w) =>
    Cache.line_setLine_other { p.cache with stamp := p.cache.stamp + 1 }
      ⟨true, false, e.cfg.tag a, p.cache.stamp + 1, e.cycle + e.cfg.missLatencyCycles, block⟩ h
  refine ⟨w, rfl, hw, ⟨block, hl⟩, Cache.find_eq_some hg hwf (by
    rw [Cache.set_setLine, if_pos rfl, List.length_set]; exact hw) (congrArg CacheLine.valid hl) (congrArg CacheLine.tag hl),
    ⟨congrArg CacheLine.valid hl, fun v hv hne hvv => ?_⟩, ho, fun s hs => by rw [Cache.set_setLine, if_neg hs]; rfl⟩
  have hv' : v < (p.cache.set (e.cfg.index a)).length := by
    rw [Cache.set_setLine, if_pos rfl, List.length_set] at hv
    exact hv
  have hov := ho (e.cfg.index a) v (.inr hne)
  refine lt_of_lt_of_eq (lt_of_eq_of_lt (congrArg CacheLine.lru hov) ?_) (congrArg CacheLine.lru hl).symm
  exact Nat.lt_succ_of_le ((hset.2.1 _ (p.cache.line_mem hv')).2 ((congrArg CacheLine.valid hov).symm.trans hvv))

/-- What a touch does (R78, R79): the line of its address is present and the newest of its set; the other sets are as before. -/
theorem touch_newest {e : CacheEnv} {a : Word} {p q : CacheStore} (hg : e.cfg.valid = true) (hc : p.cache.wf e.cfg)
    (h : touch e a p = .ok q) :
    (∃ w, q.cache.find e.cfg a = some w ∧ q.cache.newest (e.cfg.index a) w) ∧
      ∀ s, s ≠ e.cfg.index a → q.cache.set s = p.cache.set s := by
  rcases touch_ok h with ⟨w, hf, rfl⟩ | ⟨hf, h⟩
  · obtain ⟨hw, hv, -⟩ := Cache.find_some hf
    exact ⟨⟨w, by rw [Cache.use_find]; exact hf, Cache.use_newest hc (Cache.index_lt_sets hg hc a) hw hv⟩, fun s hs => by
      rw [Cache.set_use, if_neg hs]⟩
  · obtain ⟨w, -, -, -, h₁, h₂, -, h₃⟩ := missProc_lines hg hc hf h
    exact ⟨⟨w, h₁, h₂⟩, h₃⟩

end Sys2Proof.Machine
end

