-- ==== Sys2Proof/Tests/Slice0.lean ====
section
/-! SUPPORT. Tests of the model on fixed values, each from the example of the rule it names, and the witnesses of the statements'
hypotheses. -/

namespace Sys2Proof.Tests

open Sys2Proof.Machine

/-! ## Well-formedness: what each check refuses -/

/-- R107: an instruction whose word is the sentinel cannot be written. -/
theorem test_wf_refuses_hidden_instruction : Instr.wellFormed 0x00000020 (.add 0 0 0) = false := by decide
theorem test_wf_accepts_other_instruction : Instr.wellFormed 0xFEEDFEED (.add 0 0 0) = true := by decide
/-- R9, R107: a sentinel that an opcode row recognises, and the bubble as sentinel. -/
theorem test_wf_refuses_recognised_sentinel : haltWordFree 0x24020100 = false := by decide
theorem test_wf_refuses_bubble_sentinel : haltWordFree 0 = false := by decide
/-- R9: the vector is a multiple of 4. -/
theorem test_wf_refuses_odd_vector : excVectorAligned 0x8002 = false := by decide
/-- R71 (a), (b), (c), CV7: a block size that is no power of two; a size that no multiple of it reaches; three sets. -/
theorem test_wf_refuses_block_size : CacheConfig.valid ⟨3, 12, 1, .directMapped⟩ = false := by decide
theorem test_wf_refuses_total_size : CacheConfig.valid ⟨4, 10, 1, .directMapped⟩ = false := by decide
theorem test_wf_refuses_three_sets : CacheConfig.valid ⟨4, 12, 1, .directMapped⟩ = false := by decide
theorem test_wf_refuses_small_two_way : CacheConfig.valid ⟨8, 8, 1, .twoWay⟩ = false := by decide
/-- R71 (e): 2^33 bytes of address. -/
theorem test_wf_refuses_too_many_sets : CacheConfig.valid ⟨4, 2 ^ 33, 1, .directMapped⟩ = false := by decide
theorem test_wf_refuses_core : CoreConfig.wellFormed { Config.default with icfg := ⟨3, 12, 1, .directMapped⟩ } = false := by decide
theorem test_wf_accepts_default : CoreConfig.wellFormed Config.default = true := by decide

/-! ## Decoding: one word of each row of the table, from the rule's own example (R109, R115) -/

theorem test_decode_halt : decodeTableWord 32 0xFEEDFEED = some (.halt) := by decide
theorem test_decode_sll : decodeTableWord 32 0x00021900 = some (.sll 3 2 4) := by decide
theorem test_decode_srl : decodeTableWord 32 0x00021902 = some (.srl 3 2 4) := by decide
theorem test_decode_jr : decodeTableWord 32 0x03E00008 = some (.jr 31) := by decide
theorem test_decode_add : decodeTableWord 32 0x00221820 = some (.add 3 1 2) := by decide
theorem test_decode_addu : decodeTableWord 32 0x00221821 = some (.addu 3 1 2) := by decide
theorem test_decode_sub : decodeTableWord 32 0x00221822 = some (.sub 3 1 2) := by decide
theorem test_decode_subu : decodeTableWord 32 0x00221823 = some (.subu 3 1 2) := by decide
theorem test_decode_and : decodeTableWord 32 0x00221824 = some (.and 3 1 2) := by decide
theorem test_decode_or : decodeTableWord 32 0x00221825 = some (.or 3 1 2) := by decide
theorem test_decode_nor : decodeTableWord 32 0x00221827 = some (.nor 3 1 2) := by decide
theorem test_decode_slt : decodeTableWord 32 0x0022182A = some (.slt 3 1 2) := by decide
theorem test_decode_sltu : decodeTableWord 32 0x0022182B = some (.sltu 3 1 2) := by decide
theorem test_decode_j : decodeTableWord 32 0x08000010 = some (.j 0x10) := by decide
theorem test_decode_jal : decodeTableWord 32 0x0C000040 = some (.jal 0x40) := by decide
theorem test_decode_beq : decodeTableWord 32 0x10220003 = some (.beq 1 2 3) := by decide
theorem test_decode_bne : decodeTableWord 32 0x1420FFFE = some (.bne 1 0 0xFFFE) := by decide
theorem test_decode_blez : decodeTableWord 32 0x18200004 = some (.blez 1 4) := by decide
theorem test_decode_bgtz : decodeTableWord 32 0x1C20FFFC = some (.bgtz 1 0xFFFC) := by decide
theorem test_decode_addi : decodeTableWord 32 0x2022FFFD = some (.addi 2 1 0xFFFD) := by decide
theorem test_decode_addiu : decodeTableWord 32 0x24020100 = some (.addiu 2 0 0x100) := by decide
theorem test_decode_slti : decodeTableWord 32 0x2822FFFF = some (.slti 2 1 0xFFFF) := by decide
theorem test_decode_sltiu : decodeTableWord 32 0x2C22FFFF = some (.sltiu 2 1 0xFFFF) := by decide
theorem test_decode_andi : decodeTableWord 32 0x3022FF0F = some (.andi 2 1 0xFF0F) := by decide
theorem test_decode_ori : decodeTableWord 32 0x3421FFFF = some (.ori 1 1 0xFFFF) := by decide
theorem test_decode_lui : decodeTableWord 32 0x3C017FFF = some (.lui 1 0x7FFF) := by decide
theorem test_decode_lw : decodeTableWord 32 0x8C410000 = some (.lw 1 2 0) := by decide
theorem test_decode_lbu : decodeTableWord 32 0x90410003 = some (.lbu 1 2 3) := by decide
theorem test_decode_lhu : decodeTableWord 32 0x94410002 = some (.lhu 1 2 2) := by decide
theorem test_decode_sb : decodeTableWord 32 0xA0410001 = some (.sb 1 2 1) := by decide
theorem test_decode_sh : decodeTableWord 32 0xA4410002 = some (.sh 1 2 2) := by decide
theorem test_decode_sw : decodeTableWord 32 0xAC410004 = some (.sw 1 2 4) := by decide

/-- R112: the illegal opcodes, all 64 tried. -/
theorem test_illegal_opcodes : ((List.range 64).filter fun op =>
    (decodeTableWord 32 (op * 2 ^ 26)).isNone) = [0x01, 0x0E] ++ (List.range 19).map (· + 0x10) ++ [0x26, 0x27, 0x2A] ++
      (List.range 20).map (· + 0x2C) := by decide
/-- R112: the illegal function codes of opcode 0, all 64 tried. -/
theorem test_illegal_functs : ((List.range 64).filter fun f => (decodeTableWord 32 f).isNone) =
    [0x01] ++ (List.range 5).map (· + 0x03) ++ (List.range 23).map (· + 0x09) ++ [0x26, 0x28, 0x29] ++
      (List.range 20).map (· + 0x2C) := by decide
/-- R111: `JR R31` with bits in the fields it ignores. -/
theorem test_ignored_fields : decodeTableWord 32 0x03FFFFC8 = some (.jr 31) := by decide

/-! ## A small machine -/

/-- Small caches, so that a test stays small. -/
abbrev cfg : CoreConfig :=
  { Config.default with icfg := ⟨8, 16, 2, .directMapped⟩, dcfg := ⟨4, 16, 2, .twoWay⟩ }

/-- The bytes `00 00 12 34` at 0x100. -/
abbrev mem : Memory := [(0x102, 0x12), (0x103, 0x34)]

/-- The state after reset with two registers preset. -/
def start (r1 r2 : Word) : State := ((State.initial cfg mem).setReg 1 r1).setReg 2 r2

/-- A state of the architectural view at `pc`. -/
def at_ (s : State) (pc : Word) : State := { s with view := .instruction, pc := pc, npc := pc + 4 }

/-- A register of the next state. -/
def regOf (r : RegNum) : Result → Option Word
  | .next t => some (t.reg r)
  | .fault _ => none
  | .refused _ => none

/-- The program counter and the next one, of the next state. -/
def pcOf : Result → Option (Word × Word)
  | .next t => some (t.pc, t.npc)
  | .fault _ => none
  | .refused _ => none

/-- Bytes of data memory of the next state. -/
def bytesOf (as : List Word) : Result → Option (List Byte)
  | .next t => some (as.map t.dataByte)
  | .fault _ => none
  | .refused _ => none

/-! ## One step of each instruction, on the rule's example -/

/-- R131. -/
theorem test_add_doubles_sign : regOf 3 (exec (.add 3 1 2) (start 5 0xFFFFFFFE)) = some 3 := by decide
/-- R132. -/
theorem test_addu_wraps : regOf 3 (exec (.addu 3 1 2) (start 0x7FFFFFFF 1)) = some 0x80000000 := by decide
/-- R133. -/
theorem test_sub_example : regOf 3 (exec (.sub 3 1 2) (start 3 5)) = some 0xFFFFFFFE := by decide
/-- R134. -/
theorem test_subu_wraps : regOf 3 (exec (.subu 3 1 2) (start 0 1)) = some 0xFFFFFFFF := by decide
/-- R135. -/
theorem test_and_example : regOf 3 (exec (.and 3 1 2) (start 0xFF00FF00 0x0FF00FF0)) = some 0x0F000F00 := by decide
/-- R136. -/
theorem test_or_example : regOf 3 (exec (.or 3 1 2) (start 0xFF00FF00 0x0FF00FF0)) = some 0xFFF0FFF0 := by decide
/-- R137. -/
theorem test_nor_example : regOf 3 (exec (.nor 3 1 2) (start 0xFF00FF00 0x0FF00FF0)) = some 0x000F000F := by decide
/-- R138. -/
theorem test_slt_signed : regOf 3 (exec (.slt 3 1 2) (start 0xFFFFFFFF 1)) = some 1 := by decide
/-- R139. -/
theorem test_sltu_unsigned : regOf 3 (exec (.sltu 3 1 2) (start 0xFFFFFFFF 1)) = some 0 := by decide
/-- R140. -/
theorem test_sll_example : regOf 3 (exec (.sll 3 2 4) (start 0 0x80000001)) = some 0x00000010 := by decide
/-- R141. -/
theorem test_srl_logical : regOf 3 (exec (.srl 3 2 4) (start 0 0x80000001)) = some 0x08000000 := by decide
/-- R151. -/
theorem test_addi_example : regOf 2 (exec (.addi 2 1 0xFFFD) (start 10 0)) = some 7 := by decide
/-- R152. -/
theorem test_addiu_sign_extends : regOf 2 (exec (.addiu 2 0 0xFFFF) (start 0 0)) = some 0xFFFFFFFF := by decide
/-- R153. -/
theorem test_andi_example : regOf 2 (exec (.andi 2 1 0xFF0F) (start 0x12345678 0)) = some 0x00005608 := by decide
/-- R154. -/
theorem test_ori_example : regOf 1 (exec (.ori 1 1 0xFFFF) (start 0x7FFF0000 0)) = some 0x7FFFFFFF := by decide
/-- R155. -/
theorem test_slti_example : regOf 2 (exec (.slti 2 1 0xFFFF) (start 0xFFFFFFFE 0)) = some 1 := by decide
/-- R156. -/
theorem test_sltiu_sign_extends : regOf 2 (exec (.sltiu 2 1 0xFFFF) (start 5 0)) = some 1 := by decide
/-- R157. -/
theorem test_lui_example : regOf 1 (exec (.lui 1 0x7FFF) (start 0 0)) = some 0x7FFF0000 := by decide
/-- R172. -/
theorem test_lw_example : regOf 1 (exec (.lw 1 2 0) (start 0 0x100)) = some 0x00001234 := by decide
/-- R173. -/
theorem test_lbu_example : regOf 1 (exec (.lbu 1 2 3) (start 0 0x100)) = some 0x00000034 := by decide
/-- R174. -/
theorem test_lhu_example : regOf 1 (exec (.lhu 1 2 2) (start 0 0x100)) = some 0x00001234 := by decide
/-- R175. -/
theorem test_sb_example : bytesOf [0x100, 0x101, 0x102] (exec (.sb 1 2 1) (start 0xAABBCCDD 0x100)) = some [0, 0xDD, 0x12] := by decide
/-- R176. -/
theorem test_sh_example : bytesOf [0x101, 0x102, 0x103] (exec (.sh 1 2 2) (start 0xAABBCCDD 0x100)) = some [0, 0xCC, 0xDD] := by decide
/-- R177. -/
theorem test_sw_example : bytesOf [0x104, 0x105, 0x106, 0x107] (exec (.sw 1 2 4) (start 0xAABBCCDD 0x100)) = some [0xAA, 0xBB, 0xCC, 0xDD] := by decide
/-- R191. -/
theorem test_beq_example : pcOf (exec (.beq 1 2 3) (at_ (start 7 7) 0x10)) = some (0x14, 0x20) := by decide
/-- R192. -/
theorem test_bne_backward : pcOf (exec (.bne 1 0 0xFFFE) (at_ (start 2 0) 0x0C)) = some (0x10, 0x08) := by decide
/-- R193. -/
theorem test_blez_zero : pcOf (exec (.blez 1 4) (at_ (start 0 0) 0x20)) = some (0x24, 0x34) := by decide
/-- R194. -/
theorem test_bgtz_backward : pcOf (exec (.bgtz 1 0xFFFC) (at_ (start 5 0) 0x20)) = some (0x24, 0x14) := by decide
/-- R195. -/
theorem test_j_example : pcOf (exec (.j 0x10) (at_ (start 0 0) 0x08)) = some (0x0C, 0x40) := by decide
/-- R196. -/
theorem test_jal_links : regOf 31 (exec (.jal 0x40) (at_ (start 0 0) 0x10)) = some 0x18 := by decide
/-- R197, R199. -/
theorem test_jr_misaligned : pcOf (exec (.jr 1) (at_ (start 0x1B 0) 0x40)) = some (0x44, 0x1B) := by decide
/-- R131: the largest sum that fits, and the smallest that does not: control goes to the vector. -/
theorem test_add_boundary : pcOf (exec (.add 3 1 2) (start 0x7FFFFFFE 1)) = some (4, 8) ∧
    pcOf (exec (.add 3 1 2) (start 0x7FFFFFFF 1)) = some (0x8000, 0x8004) := by decide
/-- R133: `0x80000000 - 0` fits, `0x80000000 - 1` and `0 - 0x80000000` do not. -/
theorem test_sub_boundary : pcOf (exec (.sub 3 1 2) (start 0x80000000 0)) = some (4, 8) ∧
    pcOf (exec (.sub 3 1 2) (start 0x80000000 1)) = some (0x8000, 0x8004) ∧
    pcOf (exec (.sub 3 1 2) (start 0 0x80000000)) = some (0x8000, 0x8004) := by decide
/-- R151: `0x7FFFFFFF + 0` fits, `0x7FFFFFFF + 1` and `0x80000000 + (-1)` do not, also with destination 0. -/
theorem test_addi_boundary : regOf 2 (exec (.addi 2 1 0) (start 0x7FFFFFFF 9)) = some 0x7FFFFFFF ∧
    regOf 2 (exec (.addi 2 1 1) (start 0x7FFFFFFF 9)) = some 9 ∧
    pcOf (exec (.addi 0 1 0xFFFF) (start 0x80000000 9)) = some (0x8000, 0x8004) := by decide
/-- R22: a write to register 0 is discarded. -/
theorem test_write_to_register_zero : regOf 0 (exec (.addiu 0 0 5) (start 0 0)) = some 0 := by decide
/-- R113: the word 0 is a no-op that only moves the program counter. -/
theorem test_nop : decodeTableWord 32 0 = some (.sll 0 0 0) ∧ pcOf (exec (.sll 0 0 0) (start 1 2)) = some (4, 8) := by decide

/-! ## The step on a placed word -/

/-- R190: the placed word is fetched, decoded and run. -/
theorem test_step_runs_placed_word : regOf 2 (step ((start 10 0).withFetchWord 32 0x2022FFFD)) = some 7 := by decide
/-- R212: `0xFFFFFFFF` goes to the vector. -/
theorem test_step_illegal : pcOf (step ((start 0 0).withFetchWord 32 0xFFFFFFFF)) = some (0x8000, 0x8004) := by decide
/-- R71: parameters that `init` would not accept give no step. -/
theorem test_step_refuses : step (.initial { cfg with haltWord := 0 } []) = .refused .malformedConfiguration := rfl
/-- R53: the first fetch of a core whose store accepts no address. -/
theorem test_step_faults : step (.initial { cfg with memValid := [] } []) = .fault (.storeRefused 0 0) := rfl

/-! ## One tick -/

/-- R312: the first tick misses, counts and holds `PC`; the second is pending and not counted again. -/
theorem test_first_tick : (match tick (start 0 0) with
    | .next t => (t.pc, t.cycle, t.ifWait, t.ic.hits, t.ic.misses, t.ifid.word)
    | .fault _ => default
    | .refused _ => default) = (0, 1, true, 0, 1, 0) := by decide

/-- A state in the middle of a run: the latches as given. -/
def midRun (ifid idex exmem memwb : Word) (haltSeen : Bool) : State :=
  { start 0x7FFFFFFF 1 with
    ifid := mkLatch cfg.haltWord ifid 0x10 none, idex := mkLatch cfg.haltWord idex 0x0C none,
    exmem := mkLatch cfg.haltWord exmem 0x08 none, memwb := mkLatch cfg.haltWord memwb 0x04 none, pc := 0x14, npc := 0x18,
    haltSeen := haltSeen }

/-- R282, R284: `ADD R3,R1,R2` overflows in `EX` with an illegal word in `ID`: the vector, and `EXMEM` a bubble. -/
theorem test_overflow_tick : (match tick (midRun 0xFFFFFFFF 0x00221820 0 0 true) with
    | .next t => (t.pc, t.exmem.word, t.ifid.word)
    | .fault _ => default
    | .refused _ => default) = (0x8000, 0, 0) := by decide
/-- R35, R255: the sentinel in write-back halts. -/
theorem test_halt_tick : (match tick (midRun 0 0 0 0xFEEDFEED true) with
    | .next t => (t.status, t.cycle)
    | .fault _ => default
    | .refused _ => default) = (.halted, 1) := by decide

/-! ## Witnesses: states and operands that meet the hypotheses of each statement together -/

theorem witness_DecodeEncodeAgree : Instr.wellFormed Config.haltWord (.lw 31 31 0xFFFF) = true := by decide
theorem witness_EncodeDecodeAgree : decode 0xFEEDFEED 0x03FFFFC8 = .ok (.jr 31) ∧ Instr.jr 31 ≠ .halt ∧
    encode 0xFEEDFEED (.jr 31) ≠ 0xFEEDFEED := ⟨rfl, by decide, by decide⟩
theorem witness_IllegalWordsExactly : (midRun 0x04000000 0 0 0 false).ifid.word = 0x04000000 := rfl

/-- The small machine meets every premise on states. -/
theorem start_wf (r1 r2 : Word) : (start r1 r2).wf := by
  have h : (State.initial cfg mem).wf :=
    ⟨by decide, by decide, by decide, by decide, by decide, by decide, by decide⟩
  exact (h.setReg 1 r1).setReg 2 r2

theorem accepts_all : acceptsAll Config.memValid := by
  intro a
  simp [memValidAt, Config.memValid, a.isLt]

theorem witness_LoadsReadDataMemory : (start 0 0x101).wf ∧ acceptsAll (start 0 0x101).cfg.memValid := ⟨start_wf .., accepts_all⟩
theorem witness_StoresWriteDataMemory : (start 7 0xFFFFFFFF).wf ∧ acceptsAll (start 7 0xFFFFFFFF).cfg.memValid :=
  ⟨start_wf .., accepts_all⟩

theorem witness_IllegalWordTraps : ∃ s s' : State, ∃ w e, s.cfg.wellFormed = true ∧ s.view = .instruction ∧ s.status = .notHalted ∧
    s.fetchWhole = .ok (w, s') ∧ decode s.cfg.haltWord w = .error e :=
  ⟨(start 0 0).withFetchWord 32 0xFFFFFFFF, _, 0xFFFFFFFF, _, by decide, rfl, rfl, rfl, rfl⟩

/-- The word, its first and last half and its first and last byte, the values each as the statement gives it. -/
theorem witness_StoredWordReadsBackBigEndian : ∃ t u₁ u₂ u₃ u₄ u₅, (start 0x11223344 0x100).wf ∧
    exec (.sw 1 2 4) (start 0x11223344 0x100) = .next t ∧ (3 : RegNum) ≠ 0 ∧
    (exec (.lw 3 2 4) t = .next u₁ ∧ u₁.reg 3 = 0x11223344) ∧
    (effectiveAddress 0x100 4 = effectiveAddress 0x100 4 + BitVec.ofNat 32 0 ∧ exec (.lbu 3 2 4) t = .next u₂ ∧ u₂.reg 3 = 0x11) ∧
    (effectiveAddress 0x100 7 = effectiveAddress 0x100 4 + BitVec.ofNat 32 3 ∧ exec (.lbu 3 2 7) t = .next u₃ ∧ u₃.reg 3 = 0x44) ∧
    (effectiveAddress 0x100 4 = effectiveAddress 0x100 4 + BitVec.ofNat 32 0 ∧ exec (.lhu 3 2 4) t = .next u₄ ∧ u₄.reg 3 = 0x1122) ∧
    effectiveAddress 0x100 6 = effectiveAddress 0x100 4 + BitVec.ofNat 32 2 ∧ exec (.lhu 3 2 6) t = .next u₅ ∧ u₅.reg 3 = 0x3344 :=
  ⟨_, _, _, _, _, _, start_wf .., rfl, by decide, ⟨rfl, by decide⟩, ⟨by decide, rfl, by decide⟩, ⟨by decide, rfl, by decide⟩,
    ⟨by decide, rfl, by decide⟩, by decide, rfl, by decide⟩

/-- A state whose `IC` holds the block of address 0x10. -/
def fetched : State := { start 0xAA 0x10 with ic := match Cache.serveRead (start 0 0).icEnv 0x10 4 (start 0 0).fetchSide with
  | .ok (_, p) => p.cache
  | .error _ => default }

theorem witness_StoresDoNotReachCachedCode : ∃ t₁ t₂ t₃, exec (.sb 1 2 0) fetched = .next t₁ ∧ exec (.sh 1 2 0) fetched = .next t₂ ∧
    exec (.sw 1 2 0) fetched = .next t₃ ∧ fetched.ic.find fetched.cfg.icfg 0x13 ≠ none :=
  ⟨_, _, _, rfl, rfl, rfl, by decide⟩

theorem witness_OnlyTheDestinationIsWritten : ∃ t, exec (.addu 3 1 2) (start 1 2) = .next t := ⟨_, rfl⟩
theorem witness_UnreadRegisterPlaysNoPart : ∃ t, (4 : RegNum) ∉ srcsOf (.addu 3 1 2) ∧ (4 : RegNum) ≠ destOf (.addu 3 1 2) ∧
    exec (.addu 3 1 2) (start 1 2) = .next t := ⟨_, by decide, by decide, rfl⟩
theorem witness_OnlyStoresChangeDataMemory : ∃ t, (start 0 0x100).wf ∧
    (∀ sz rt rs imm, memAccess (.lw 1 2 0) ≠ .store sz rt rs imm) ∧ exec (.lw 1 2 0) (start 0 0x100) = .next t :=
  ⟨_, start_wf .., (by intro _ _ _ _ h; cases h), rfl⟩
theorem witness_StageTablesAgreeWithInstructionRules : ∃ t₁ t₂ t₃,
    (exec (.add 3 1 2) (start 0x7FFFFFFF 1) = .next t₁ ∧ executor (.add 3 1 2) 0 (start 0x7FFFFFFF 1).reg = .overflow) ∧
    (exec (.jal 1) (start 0 0) = .next t₂ ∧ executor (.jal 1) 0 (start 0 0).reg = .value 8 ∧ destOf (.jal 1) ≠ 0 ∧
      resolve (.jal 1) 0 (start 0 0).reg = some 4) ∧
    (exec (.addu 3 1 2) (start 0 0) = .next t₃ ∧ resolve (.addu 3 1 2) 0 (start 0 0).reg = none) :=
  ⟨_, _, _, ⟨rfl, by decide⟩, ⟨rfl, by decide, by decide, by decide⟩, rfl, rfl⟩

theorem witness_ResetLeavesTheTable : CoreConfig.wellFormed cfg = true := by decide
theorem witness_ResetIsWellFormed : CoreConfig.wellFormed cfg = true ∧ Memory.wf mem ∧ mem ≠ [] ∧ cfg ≠ Config.default := by decide
theorem witness_MalformedConfigurationIsNoCore : CacheConfig.valid ⟨3, 12, 1, .directMapped⟩ = false ∧
    (State.initial { cfg with icfg := ⟨3, 12, 1, .directMapped⟩ } []).cfg.wellFormed = false := by decide

/-- A live state of the architectural view with the word of `ADDI R2, R1, -3` at its program counter. -/
def placed : State := (start 10 0).withFetchWord 32 0x2022FFFD

theorem witness_ParametersNeverChange : (∃ t, step placed = .next t) ∧ ∃ t, step (start 0 0) = .next t := ⟨⟨_, rfl⟩, _, rfl⟩
theorem witness_StepRunsTheDecodedInstruction : (∃ s' w i, placed.cfg.wellFormed = true ∧ placed.view = .instruction ∧
    placed.status = .notHalted ∧ placed.fetchWhole = .ok (w, s') ∧ decode placed.cfg.haltWord w = .ok i) ∧
    (start 0 0).cfg.wellFormed = true ∧ (start 0 0).view = .cycle :=
  ⟨⟨_, _, .addi 2 1 0xFFFD, by decide, rfl, rfl, rfl, rfl⟩, by decide, rfl⟩
theorem witness_FetchReadsTheCodeBytes : (start 0 0).wf ∧ (start 0 0).codeCoherent ∧ acceptsAll (start 0 0).cfg.memValid ∧
    ∃ w s', (start 0 0).fetchWhole = .ok (w, s') := ⟨start_wf .., by decide, accepts_all, _, _, rfl⟩
theorem witness_StoppedCoreIgnoresSteps : (start 0 0).cfg.wellFormed = true ∧
    { start 0 0 with status := .halted }.status ≠ .notHalted ∧ { start 0 0 with status := .aborted 4 9 }.status ≠ .notHalted := by
  decide
theorem witness_FaultsOnlyWhereTheStoreRefuses : ∃ s a c, step s = .fault (.storeRefused a c) :=
  ⟨.initial { cfg with memValid := [] } [], 0, 0, rfl⟩
theorem witness_AcceptingStoreNeverStops : acceptsAll (start 0 0).cfg.memValid ∧ (start 0 0).cfg.wellFormed = true :=
  ⟨accepts_all, by decide⟩

theorem witness_EveryStepKeepsTheStateWellFormed : ∃ t, (start 0 0).wf ∧ step (start 0 0) = .next t := ⟨_, start_wf .., rfl⟩
theorem witness_EveryTickKeepsThePipelineInvariants : ∃ t, (start 0 0).cfg.wellFormed = true ∧ (start 0 0).pipelineWf ∧
    tick (start 0 0) = .next t := ⟨_, by decide, by decide, rfl⟩
theorem witness_SquashedSentinelNeverHalts : ∃ t, (midRun 0 0 0 0 true).cfg.wellFormed = true ∧ (midRun 0 0 0 0 true).haltSeen = true ∧
    (midRun 0 0 0 0 true).sentinels = 0 ∧ (midRun 0 0 0 0 true).status = .notHalted ∧ tick (midRun 0 0 0 0 true) = .next t :=
  ⟨_, by decide, rfl, by decide, rfl, rfl⟩

/-! ### Ticks, one for each case of the commit -/

/-- The memory stage stalls on a cold line (`LW R1, 0(R2)` in `MEM`). -/
theorem witness_stalled_tick : ∃ t f m, (midRun 0 0 0x8C410000 0 true).wf ∧ (midRun 0 0 0x8C410000 0 true).pipelineWf ∧
    Ticked (midRun 0 0 0x8C410000 0 true) t f m ∧ m.stalls = true ∧ t.memwb = .bubble :=
  ⟨_, _, _, (start_wf 0x7FFFFFFF 1).of_same rfl rfl rfl rfl rfl, by decide, ⟨rfl, rfl, rfl, rfl⟩, rfl, rfl⟩
/-- `ADD R3, R1, R2` overflows in `EX` over an illegal word in `ID`. -/
theorem witness_OverflowSquashesTheYounger : ∃ t f m, Ticked (midRun 0xFFFFFFFF 0x00221820 0 0 true) t f m ∧ m.stalls = false ∧
    (midRun 0xFFFFFFFF 0x00221820 0 0 true).overflows = true := ⟨_, _, _, ⟨rfl, rfl, rfl, rfl⟩, rfl, by decide⟩
/-- An illegal word in `ID`. -/
theorem witness_IllegalSquashesItsFollower : ∃ t f m, Ticked (midRun 0x0000000C 0 0 0 false) t f m ∧ m.stalls = false ∧
    (midRun 0x0000000C 0 0 0 false).overflows = false ∧
    opOf (midRun 0x0000000C 0 0 0 false).cfg.haltWord (midRun 0x0000000C 0 0 0 false).ifid.word = none :=
  ⟨_, _, _, ⟨rfl, rfl, rfl, rfl⟩, rfl, by decide, by decide⟩
/-- A load-use stall: `LW R1, 0(R2)` in `EX`, `ADD R3, R1, R1` in `ID`. -/
theorem witness_load_use_tick : ∃ t f m, Ticked (midRun 0x00211820 0x8C410000 0 0 false) t f m ∧ m.stalls = false ∧
    (midRun 0x00211820 0x8C410000 0 0 false).overflows = false ∧
    ((midRun 0x00211820 0x8C410000 0 0 false).decoded f).loadUse = true := ⟨_, _, _, ⟨rfl, rfl, rfl, rfl⟩, rfl, by decide, by decide⟩
/-- A fetch that misses with a taken jump in `ID`: the transfer waits for its delay slot. -/
theorem witness_TakenTransferWaitsForItsDelaySlot : ∃ t f m, (midRun 0x08000010 0 0 0 false).cfg.wellFormed = true ∧
    (midRun 0x08000010 0 0 0 false).pipelineWf ∧ Ticked (midRun 0x08000010 0 0 0 false) t f m ∧
    ((midRun 0x08000010 0 0 0 false).decoded f).taken.isSome = true ∧ f.word = none ∧ m.stalls = false ∧
    (midRun 0x08000010 0 0 0 false).overflows = false :=
  ⟨_, _, _, by decide, by decide, ⟨rfl, rfl, rfl, rfl⟩, by decide, rfl, rfl, by decide⟩

/-- A state whose next fetch hits, the block of `PC` in `IC` and ready, with `LUI R1, 0x7FFF` in `WB`. -/
def warm : State := { midRun 0x24020100 0x00221821 0 0x3C017FFF false with
  cycle := 9,
  memwb := ⟨0x3C017FFF, 0, some 0x7FFF0000, 1⟩,
  ic := match Cache.serveRead (start 0 0).icEnv 0x14 4 (start 0 0).fetchSide with
    | .ok (_, p) => p.cache
    | .error _ => default }

/-- A tick that advances every stage and writes a register; with the stalled, overflowing, illegal, load-use and waiting ticks
around it, a case of every premise of `TickWritesOneRegister`, `TickCountsAndHalts`, `TickMemoryLatch`, `TickProgramCounter` and
`TickHaltSeenAndFetchWait`. -/
theorem witness_advancing_tick : ∃ t f m, Ticked warm t f m ∧ m.stalls = false ∧ warm.overflows = false ∧
    (warm.decoded f).illegal = false ∧ (warm.decoded f).stalls = false ∧ f.word = some 0 ∧ warm.haltSeen = false ∧
    warm.memwb.dest = 1 ∧ warm.memwb.wval = some 0x7FFF0000 ∧ t.reg 1 = 0x7FFF0000 :=
  ⟨_, _, _, ⟨rfl, rfl, rfl, rfl⟩, rfl, by decide, by decide, by decide, by decide, rfl, by decide, rfl, by decide⟩
/-- The two cases of `EX` that `TickFrontLatches` names: `ADDU R3, R1, R2` with its operands, and an illegal word (a latch that no run
has). -/
theorem witness_TickFrontLatches : (∃ t f m, Ticked warm t f m ∧ opOf warm.cfg.haltWord warm.idex.word = some (.addu 3 1 2) ∧
      t.exmem.wval = some 0x7FFF0001) ∧
    ∃ t f m, Ticked (midRun 0 0x0000000C 0 0 true) t f m ∧
      opOf (midRun 0 0x0000000C 0 0 true).cfg.haltWord (midRun 0 0x0000000C 0 0 true).idex.word = none :=
  ⟨⟨_, _, _, ⟨rfl, rfl, rfl, rfl⟩, by decide, by decide⟩, _, _, _, ⟨rfl, rfl, rfl, rfl⟩, by decide⟩

/-- `DC` with the block of 0x100 ready, as a load leaves it. -/
def warmDc : Cache := match Cache.serveRead (start 0 0).dcEnv 0x100 4 (start 0 0).dataSide with
  | .ok (_, p) => p.cache
  | .error _ => default

/-- `memRun w dc` has `w` in `EXMEM`, 0x100 in `R2`, and `dc` as its data cache, nothing else in the pipe. -/
def memRun (w : Word) (dc : Cache) : State :=
  { start 0xAABBCCDD 0x100 with exmem := mkLatch cfg.haltWord w 0x08 none, haltSeen := true, cycle := 9, dc := dc }

theorem memRun_cold (w : Word) : (memRun w (start 0 0).dc).wf := (start_wf 0xAABBCCDD 0x100).of_same rfl rfl rfl rfl rfl

theorem memRun_warm (w : Word) : (memRun w warmDc).wf :=
  ⟨(memRun_cold w).1, (memRun_cold w).2.1, by show Memory.wf mem; decide, (memRun_cold w).2.2.2.1, (memRun_cold w).2.2.2.2.1,
    by show warmDc.wf cfg.dcfg; decide, by show warmDc.coherent cfg.dcfg mem; decide⟩

/-- The clauses of `TickMemoryStage`: nothing accessed; a load that hits and one whose line is absent; a store likewise, which is in
data memory in both. -/
theorem witness_TickMemoryStage :
    ((memRun 0 warmDc).wf ∧ (∃ t f m, Ticked (memRun 0 warmDc) t f m) ∧ opOf cfg.haltWord 0 = some (.sll 0 0 0)) ∧
    ((memRun 0x94410002 warmDc).wf ∧ opOf cfg.haltWord 0x94410002 = some (.lhu 1 2 2) ∧ loadsBytes (.lhu 1 2 2) 2 2 2 ∧
      ∃ t f m, Ticked (memRun 0x94410002 warmDc) t f m ∧ m.stalls = false ∧ m.result = some 0x1234 ∧
        warmDc.holdsReady cfg.dcfg 9 0x102) ∧
    ((memRun 0x94410002 (start 0 0).dc).wf ∧ ∃ t f m, Ticked (memRun 0x94410002 (start 0 0).dc) t f m ∧ m.stalls = true) ∧
    ((memRun 0xAC410000 warmDc).wf ∧ opOf cfg.haltWord 0xAC410000 = some (.sw 1 2 0) ∧ storesBytes (.sw 1 2 0) 4 1 2 0 ∧
      ∃ t f m, Ticked (memRun 0xAC410000 warmDc) t f m ∧ m.stalls = false ∧ t.dataByte 0x103 = 0xDD) ∧
    ((memRun 0xAC410000 (start 0 0).dc).wf ∧ ∃ t f m, Ticked (memRun 0xAC410000 (start 0 0).dc) t f m ∧ m.stalls = true ∧
      (start 0 0).dc.find cfg.dcfg 0x100 = none ∧ t.dataByte 0x103 = 0xDD) :=
  ⟨⟨memRun_warm 0, ⟨_, _, _, rfl, rfl, rfl, rfl⟩, by decide⟩,
    ⟨memRun_warm _, by decide, ⟨1, .inr (.inl ⟨rfl, rfl⟩)⟩, _, _, _, ⟨rfl, rfl, rfl, rfl⟩, rfl, by decide, 0, by decide, by decide⟩,
    ⟨memRun_cold _, _, _, _, ⟨rfl, rfl, rfl, rfl⟩, rfl⟩,
    ⟨memRun_warm _, by decide, .inl ⟨rfl, rfl⟩, _, _, _, ⟨rfl, rfl, rfl, rfl⟩, rfl, by decide⟩,
    memRun_cold _, _, _, _, ⟨rfl, rfl, rfl, rfl⟩, rfl, by decide, by decide⟩

/-- A fetch that delivers a word, in a state that keeps the invariants, with bytes that the store holds up to date. -/
theorem witness_FetchStopsAtTheSentinel : warm.wf ∧ warm.codeCoherent ∧ (∃ t f m, Ticked warm t f m ∧ f.word = some 0 ∧
      warm.dataByte 0x102 = readByte warm.mem 0x102 ∧ t.dataByte 0x102 = warm.dataByte 0x102 ∧ t.fetchByte 0x102 = 0x12) ∧
    (midRun 0 0 0 0 true).haltSeen = true ∧ ∃ t f m, Ticked (midRun 0 0 0 0 true) t f m :=
  ⟨⟨by decide, (start_wf 0x7FFFFFFF 1).2.1, by show Memory.wf mem; decide, by show warm.ic.wf cfg.icfg; decide,
      by show warm.ic.clean; decide, (start_wf 0 0).2.2.2.2.2.1, (start_wf 0 0).2.2.2.2.2.2⟩,
    by show warm.ic.coherent cfg.icfg mem; decide,
    ⟨_, _, _, ⟨rfl, rfl, rfl, rfl⟩, rfl, by decide, by decide, by decide⟩, rfl, _, _, _, rfl, rfl, rfl, rfl⟩

/-! ### The cache and the host -/

theorem witness_AccessesAreCountedOnce : (∃ r, Cache.read (start 0 0).dcEnv 0x102 2 true (start 0 0).dataSide = .ok r) ∧
    ∃ r, Cache.write (start 0 0).dcEnv 0x102 [1, 2] false (start 0 0).dataSide = .ok r := ⟨⟨_, rfl⟩, _, rfl⟩
/-- A pending line (`warmDc` holds 0x100 from tick 2 on, and this is tick 1); a fill by a read, by a write inside its block, and by a write that spans two blocks and still has its first line. -/
theorem witness_MissLatency : firstByte { (start 0 0).dcEnv with cycle := 1 } warmDc 0x101 = .pending ∧
    (start 0 0).dcEnv.cfg.valid = true ∧ (start 0 0).dataSide.cache.wf (start 0 0).dcEnv.cfg ∧
    (start 0 0).dataSide.cache.find (start 0 0).dcEnv.cfg 0x102 = none ∧
    (∃ r, Cache.read (start 0 0).dcEnv 0x102 4 true (start 0 0).dataSide = .ok r) ∧
    (∃ r, Cache.write (start 0 0).dcEnv 0x102 [1, 2] true (start 0 0).dataSide = .ok r ∧
      (start 0 0).dcEnv.cfg.offset 0x102 + 2 ≤ (start 0 0).dcEnv.cfg.blockSizeBytes) ∧
    ∃ r, Cache.write (start 0 0).dcEnv 0x102 [1, 2, 3, 4] true (start 0 0).dataSide = .ok r ∧
      r.store.cache.find (start 0 0).dcEnv.cfg 0x102 ≠ none :=
  ⟨by decide, by decide, by decide, by decide, ⟨_, rfl⟩, ⟨_, rfl, by decide⟩, _, rfl, by decide⟩

/-- A two-way cache of one set, full. -/
def full : Cache := ⟨[[⟨true, false, 0, 1, 0, [0, 0, 0, 0]⟩, ⟨true, true, 5, 2, 0, [1, 2, 3, 4]⟩]], 2, 0, 0⟩

/-- A set whose second way is invalid. -/
def halfFull : List CacheLine := [⟨true, false, 0, 1, 0, [0, 0, 0, 0]⟩, ⟨false, true, 9, 0, 0, [0, 0, 0, 0]⟩]

/-- The parameters under which the tests run `full`. -/
def fullEnv : CacheEnv := ⟨⟨4, 8, 2, .twoWay⟩, Config.memValid, 3⟩

/-- A full set, a set whose second way is invalid, a miss that fills, accesses that hit inside a block and across two, and two
accesses one after the other, to way 0 and then to way 1. -/
theorem witness_VictimIsLeastRecentlyUsed : full.set 0 ≠ [] ∧ (∀ l ∈ full.set 0, l.valid = true) ∧
    CacheConfig.valid ⟨4, 8, 2, .twoWay⟩ = true ∧ full.wf ⟨4, 8, 2, .twoWay⟩ ∧ 0 < full.sets.length ∧
    (∃ h : 1 < halfFull.length, halfFull[1].valid = false ∧ ∀ v, ∀ hv : v < 1, (halfFull[v]'(hv.trans h)).valid = true) ∧
    (full.find fullEnv.cfg 8 = none ∧ ∃ q, missProc fullEnv 8 ⟨full, []⟩ = .ok q ∧ q.cache.find fullEnv.cfg 8 = some 0) ∧
    (firstByte fullEnv full 1 = .ready ∧ ∃ r₁ r₂, Cache.read fullEnv 1 2 true ⟨full, []⟩ = .ok r₁ ∧
      Cache.write fullEnv 1 [7, 8, 9, 10] true ⟨full, []⟩ = .ok r₂) ∧
    fullEnv.cfg.index 20 = fullEnv.cfg.index 1 ∧ fullEnv.cfg.tag 20 ≠ fullEnv.cfg.tag 1 ∧ full.find fullEnv.cfg 1 = some 0 ∧
    ∃ q r, Cache.accessed fullEnv 1 ⟨full, []⟩ q ∧ Cache.accessed { fullEnv with cycle := 4 } 20 q r ∧
      victimWay (r.cache.set 0) = 0 :=
  ⟨by decide, by decide, by decide, by decide, by decide, by decide, ⟨by decide, _, rfl, by decide⟩, ⟨by decide, _, _, rfl, rfl⟩,
    by decide, by decide, by decide, _, _, ⟨by decide, .inl ⟨2, true, _, by decide, by decide, rfl, rfl⟩⟩,
    ⟨by decide, .inr ⟨[7, 8], true, _, by decide, by decide, rfl, rfl⟩⟩, by decide⟩

/-- A state whose `DC` has a dirty line that the store does not hold up to date. -/
def dirtied : State := { start 0 0 with dc := match Cache.serveWrite (start 0 0).dcEnv 0x104 [0x11, 0x22] (start 0 0).dataSide with
  | .ok p => p.cache
  | .error _ => default }

theorem witness_DrainMakesTheStoreCurrent : ∃ t, dirtied.wf ∧ dirtied.drained = .ok t ∧ readByte dirtied.mem 0x104 = 0 ∧
    readByte t.mem 0x104 = 0x11 :=
  ⟨_, ⟨(start_wf 0 0).1, (start_wf 0 0).2.1, (start_wf 0 0).2.2.1, (start_wf 0 0).2.2.2.1, (start_wf 0 0).2.2.2.2.1,
    by show dirtied.dc.wf cfg.dcfg; decide, by show dirtied.dc.coherent cfg.dcfg mem; decide⟩, rfl, by decide, by decide⟩
theorem witness_LoadedImageIsBigEndian : Memory.wf mem ∧ (0xFFFFFFF8 : Word).toNat + 4 * [0x11223344, (5 : Word)].length ≤ 2 ^ 32 := by
  decide
theorem witness_HostRunsAndAborts : ∃ s a c, tick s = .fault (.storeRefused a c) :=
  ⟨.initial { cfg with memValid := [] } [], 0, 0, rfl⟩

end Sys2Proof.Tests
end

section
/-! PROOF. O29: the tables of the decode and execute stages say what the instruction rules say (R12, R242, R243). -/

namespace Sys2Proof.Machine

/-! ## One instruction as the stages see it -/

/-- How an instruction with destination `rd` takes `s` to `t` when the execute stage answers `e` (R243) and the decode stage
resolves `r` (R242). -/
inductive Staged (s : State) (rd : RegNum) : ExOutcome → Option Word → State → Prop
  /-- The overflow exception is taken (R285). -/
  | trap : Staged s rd .overflow none (s.takeException .overflow)
  /-- A result is written and control goes on in sequence. -/
  | result (v : Word) : Staged s rd (.value v) none (s.setReg rd v).advance
  /-- A transfer that also writes a result (R196). -/
  | link (v target : Word) : Staged s rd (.value v) (some target) ((s.setReg rd v).transfer target)
  /-- A transfer that is taken and writes no result. -/
  | taken (target : Word) : Staged s rd .none (some target) (s.transfer target)
  /-- No result of the execute stage and no transfer; what else changes (a load's register, the caches) is not theirs. -/
  | inSequence {t : State} (hpc : t.pc = s.npc) (hnpc : t.npc = s.npc + 4) : Staged s rd .none none t

section Shapes
variable {s t : State} {rd : RegNum}

theorem State.writeResult_staged {v : Word} (h : s.writeResult rd v = .next t) : Staged s rd (.value v) none t := by
  obtain rfl := Host.Outcome.next.inj (s.writeResult_eq rd v ▸ h)
  exact .result v

theorem State.writeTrapping_staged {ov : Bool} {v : Word} (h : s.writeTrapping rd ov v = .next t) :
    Staged s rd (.trapping ov v) none t := by
  cases ov with
  | true =>
    obtain rfl := Host.Outcome.next.inj h
    exact .trap
  | false => exact State.writeResult_staged h

theorem State.branchIf_staged {b : Bool} {target : Word} (h : s.branchIf b target = .next t) :
    Staged s rd .none (if b then some target else none) t := by
  rw [State.branchIf_eq] at h
  obtain rfl := Host.Outcome.next.inj h
  cases b with
  | true => exact .taken target
  | false => exact .inSequence (by simp) (by simp)

theorem State.load_staged {sz : AccessSize} {rt rs : RegNum} {imm : BitVec 16} (h : s.load sz rt rs imm = .next t) :
    Staged s rd .none none t := by
  obtain ⟨bs, p, -, rfl⟩ := State.load_next h
  exact .inSequence (by simp) (by simp)

theorem State.store_staged {sz : AccessSize} {rt rs : RegNum} {imm : BitVec 16} (h : s.store sz rt rs imm = .next t) :
    Staged s rd .none none t := by
  obtain ⟨p, -, rfl⟩ := State.store_next h
  exact .inSequence (by simp) (by simp)

end Shapes

/-- What one instruction can do, by what the two stages answer for it (R12, R242, R243). -/
theorem exec_staged {i : Instr} {s t : State} (h : exec i s = .next t) :
    Staged s (destOf i) (executor i s.pc s.reg) (resolve i s.pc s.reg) t := by
  cases i with
  | add | sub | addi => exact State.writeTrapping_staged h
  | sll | srl | addu | subu | and | or | nor | slt | sltu | addiu | slti | sltiu | andi | ori | lui =>
    exact State.writeResult_staged h
  | beq | bne => simpa [executor, resolve] using State.branchIf_staged h
  | blez | bgtz => exact State.branchIf_staged h
  | lw | lbu | lhu => exact State.load_staged h
  | sb | sh | sw => exact State.store_staged h
  | j target =>
    obtain rfl := Host.Outcome.next.inj h
    exact .taken (jumpTarget s.pc target)
  | jr rs =>
    obtain rfl := Host.Outcome.next.inj h
    exact .taken (s.reg rs)
  | jal target =>
    obtain rfl := Host.Outcome.next.inj h
    exact .link (linkValue s.pc) (jumpTarget s.pc target)
  | halt =>
    obtain rfl := Host.Outcome.next.inj h
    exact .inSequence rfl rfl

/-! ## What each answer of the stages means -/

/-- Taking an exception changes the program counter alone (R285, R286). -/
theorem State.takeException_trapped (s : State) (e : Exception) : Trapped s (s.takeException e) :=
  ⟨s.takeException_reg e, s.takeException_dataByte e, rfl⟩

namespace Staged
variable {s t : State} {rd : RegNum} {e : ExOutcome} {r : Option Word}

theorem trapped_of_overflow (h : Staged s rd e r t) (he : e = .overflow) : Trapped s t := by
  cases h with
  | trap => exact s.takeException_trapped .overflow
  | result | link | taken | inSequence => cases he

theorem reg_of_value {v : Word} (h : Staged s rd e r t) (he : e = .value v) (hrd : rd ≠ 0) : t.reg rd = v := by
  cases h with
  | result | link =>
    obtain rfl := ExOutcome.value.inj he
    exact s.reg_setReg_same hrd _
  | trap | taken | inSequence => cases he

theorem pc_of_some {target : Word} (h : Staged s rd e r t) (hr : r = some target) : t.pc = s.npc ∧ t.npc = target := by
  cases h with
  | link | taken =>
    obtain rfl := Option.some.inj hr
    exact ⟨by simp, by simp⟩
  | trap | result | inSequence => cases hr

theorem pc_of_none (h : Staged s rd e r t) (hr : r = none) (he : e ≠ .overflow) : t.pc = s.npc ∧ t.npc = s.npc + 4 := by
  cases h with
  | trap => exact absurd rfl he
  | result => exact ⟨by simp, by simp⟩
  | inSequence hpc hnpc => exact ⟨hpc, hnpc⟩
  | link | taken => cases hr

end Staged

/-! ## The instructions without a result (R243) -/

theorem ExOutcome.trapping_ne_none (ov : Bool) (v : Word) : ExOutcome.trapping ov v ≠ .none := by
  cases ov <;> simp [ExOutcome.trapping]

theorem executor_of_accesses {i : Instr} (h : accesses i) (p : Word) (x : RegNum → Word) : executor i p x = .none := by
  obtain ⟨n, rs, imm, rt, h⟩ | ⟨n, rt, rs, imm, h⟩ := h <;> obtain ⟨-, rfl⟩ | ⟨-, rfl⟩ | ⟨-, rfl⟩ := h <;> rfl

theorem executor_of_silentTransfer {i : Instr} (h : silentTransfer i) (p : Word) (x : RegNum → Word) : executor i p x = .none := by
  obtain ⟨rs, rt, imm, rfl | rfl⟩ | ⟨rs, imm, rfl | rfl⟩ | ⟨target, rfl⟩ | ⟨rs, rfl⟩ := h <;> rfl

/-- The execute stage has no result exactly for the sentinel, the loads, the stores and the transfers other than `JAL` (R243). -/
theorem executor_eq_none_iff (i : Instr) (p : Word) (x : RegNum → Word) :
    executor i p x = .none ↔ i = .halt ∨ accesses i ∨ silentTransfer i := by
  constructor
  · intro h
    cases i with
    | add | sub | addi => exact (ExOutcome.trapping_ne_none _ _ h).elim
    | sll | srl | addu | subu | and | or | nor | slt | sltu | addiu | slti | sltiu | andi | ori | lui | jal => cases h
    | lw | lbu | lhu => simp [accesses, loadsBytes]
    | sb | sh | sw => simp [accesses, storesBytes]
    | beq | bne | blez | bgtz | j | jr => simp [silentTransfer]
    | halt => exact .inl rfl
  · rintro (rfl | h | h)
    · rfl
    · exact executor_of_accesses h p x
    · exact executor_of_silentTransfer h p x

/-- Settles O29: by what an instruction can do, read against the answers of the two stages. -/
theorem stageTablesAgreeWithInstructionRules : Obligations.StageTablesAgreeWithInstructionRules := by
  intro i s t h
  have hs := exec_staged h
  exact ⟨hs.trapped_of_overflow, executor_eq_none_iff i s.pc s.reg, fun v => hs.reg_of_value, fun target => hs.pc_of_some,
    hs.pc_of_none⟩

end Sys2Proof.Machine
end

section
/-! PROOF. O33: what a step is, by the view (R12, R190, R220). -/

namespace Sys2Proof.Machine

theorem step_of_cycle_view {s : State} (hc : s.cfg.wellFormed = true) (hv : s.view = .cycle) : step s = tick s := by
  simp [step, hc, hv]

theorem step_of_instruction_view {s : State} (hc : s.cfg.wellFormed = true) (hv : s.view = .instruction) :
    step s = instructionStep s := by
  simp [step, hc, hv]

/-- A live core runs the word that its fetch gives, in the state the fetch leaves (R190). -/
theorem instructionStep_of_fetch {s s' : State} {w : Word} (hl : s.status = .notHalted) (hf : s.fetchWhole = .ok (w, s')) :
    instructionStep s = s'.runWord w := by
  simp [instructionStep, hl, hf]

theorem State.runWord_of_decode {s : State} {w : Word} {i : Instr} (hd : decode s.cfg.haltWord w = .ok i) :
    s.runWord w = exec i s := by
  simp [State.runWord, hd]

/-- A fetch changes the instruction cache and the store alone (R59, R64). -/
theorem State.fetchWhole_frame {s s' : State} {w : Word} (h : s.fetchWhole = .ok (w, s')) :
    s' = { s with ic := s'.ic, mem := s'.mem } := by
  obtain ⟨bs, p, -, -, rfl⟩ := State.fetchWhole_ok h
  rfl

/-- Settles O33: the step by its view, then the fetch, the decoder and `exec`, each by its own lemma. -/
theorem stepRunsTheDecodedInstruction : Obligations.StepRunsTheDecodedInstruction := by
  refine ⟨fun s s' w i hc hv hl hf hd => ?_, fun s => step_of_cycle_view⟩
  have hframe := State.fetchWhole_frame hf
  have hcfg : s'.cfg = s.cfg := by rw [hframe]
  have hstep : step s = exec i s' := calc
    step s = instructionStep s := step_of_instruction_view hc hv
    _ = s'.runWord w := instructionStep_of_fetch hl hf
    _ = exec i s' := State.runWord_of_decode (hcfg ▸ hd)
  exact ⟨hstep, by rw [hframe], by rw [hframe], hframe⟩

end Sys2Proof.Machine
end

section
/-! PROOF. O26: what one instruction changes (R110, R190). -/

namespace Sys2Proof.Machine

/-! ## What one instruction can do -/

/-- The state `t` in which instruction `i` may leave `s`, by what it changes (R110, R190). -/
inductive Executed (i : Instr) (s : State) : State → Prop
  /-- Control goes on; nothing else changes: a transfer, a branch, the overflow exception. -/
  | moves (pc npc : Word) : Executed i s { s with pc := pc, npc := npc }
  /-- A result goes to the destination. -/
  | writes (v pc npc : Word) : Executed i s { s.setReg (destOf i) v with pc := pc, npc := npc }
  /-- The bytes that the data cache serves go to the destination (R56). -/
  | loads (hi : memAccess i ≠ .none) {a : Word} {n : Nat} {bs : List Byte} {p : CacheStore}
      (hp : Cache.serveRead s.dcEnv a n s.dataSide = .ok (bs, p)) :
      Executed i s ((s.withData p).setReg (destOf i) (valueOfBytes bs)).advance
  /-- The data cache takes the bytes stored (R57). -/
  | stores (hi : memAccess i ≠ .none) {a : Word} {bs : List Byte} {p : CacheStore}
      (hp : Cache.serveWrite s.dcEnv a bs s.dataSide = .ok p) : Executed i s (s.withData p).advance
  /-- The sentinel ends the run (R210). -/
  | halts (hi : i = .halt) : Executed i s { s.advance with haltSeen := true, status := .halted }

section Shapes
variable {i : Instr} {s t : State}

theorem State.writeResult_executed {v : Word} (h : s.writeResult (destOf i) v = .next t) : Executed i s t := by
  obtain rfl := Host.Outcome.next.inj (s.writeResult_eq _ v ▸ h)
  have hw : Executed i s _ := .writes v s.npc (s.npc + 4)
  simpa [State.advance] using hw

theorem State.writeTrapping_executed {ov : Bool} {v : Word} (h : s.writeTrapping (destOf i) ov v = .next t) :
    Executed i s t := by
  cases ov with
  | true =>
    obtain rfl := Host.Outcome.next.inj h
    exact .moves s.cfg.excVector (s.cfg.excVector + 4)
  | false => exact State.writeResult_executed h

theorem State.branchIf_executed {b : Bool} {target : Word} (h : s.branchIf b target = .next t) : Executed i s t := by
  rw [State.branchIf_eq] at h
  obtain rfl := Host.Outcome.next.inj h
  cases b with
  | true => exact .moves s.npc target
  | false => exact .moves s.npc (s.npc + 4)

theorem State.load_executed {sz : AccessSize} {rs : RegNum} {imm : BitVec 16} (hi : memAccess i ≠ .none)
    (h : s.load sz (destOf i) rs imm = .next t) : Executed i s t := by
  obtain ⟨bs, p, hp, rfl⟩ := State.load_next h
  exact .loads hi hp

theorem State.store_executed {sz : AccessSize} {rt rs : RegNum} {imm : BitVec 16} (hi : memAccess i ≠ .none)
    (h : s.store sz rt rs imm = .next t) : Executed i s t := by
  obtain ⟨p, hp, rfl⟩ := State.store_next h
  exact .stores hi hp

end Shapes

/-- What one instruction can do (R110, R190). -/
theorem exec_executed {i : Instr} {s t : State} (h : exec i s = .next t) : Executed i s t := by
  cases i with
  | add | sub | addi => exact State.writeTrapping_executed h
  | sll | srl | addu | subu | and | or | nor | slt | sltu | addiu | slti | sltiu | andi | ori | lui =>
    exact State.writeResult_executed h
  | beq | bne | blez | bgtz => exact State.branchIf_executed h
  | lw | lbu | lhu => exact State.load_executed (by simp [memAccess]) h
  | sb | sh | sw => exact State.store_executed (by simp [memAccess]) h
  | j target =>
    obtain rfl := Host.Outcome.next.inj h
    exact .moves s.npc (jumpTarget s.pc target)
  | jr rs =>
    obtain rfl := Host.Outcome.next.inj h
    exact .moves s.npc (s.reg rs)
  | jal target =>
    obtain rfl := Host.Outcome.next.inj h
    have hw : Executed (.jal target) s _ := .writes (linkValue s.pc) s.npc (jumpTarget s.pc target)
    simpa [State.transfer, destOf] using hw
  | halt =>
    obtain rfl := Host.Outcome.next.inj h
    exact .halts rfl

/-- A register write leaves the cell of register 0 as it is (R22). -/
@[simp] theorem State.setReg_regs_zero (s : State) (r : RegNum) (v : Word) : (s.setReg r v).regs[0] = s.regs[0] := by
  unfold State.setReg
  split
  · rfl
  · rename_i hr
    have hne : r.toNat ≠ 0 := fun hn => hr (BitVec.eq_of_toNat_eq hn)
    simp [hne]

namespace Executed
variable {i : Instr} {s t : State}

theorem reg_other (h : Executed i s t) {r : RegNum} (hr : r ≠ destOf i) : t.reg r = s.reg r := by
  cases h with
  | moves | halts | stores => rfl
  | writes v => exact s.reg_setReg_other hr v
  | loads => exact State.reg_setReg_other _ hr _

theorem regs_zero (h : Executed i s t) : t.regs[0] = s.regs[0] := by
  cases h with
  | moves | halts | stores => rfl
  | writes v => exact s.setReg_regs_zero _ v
  | loads => exact State.setReg_regs_zero ..

/-- Of the state beside the registers, the program counter, the data cache and the store, only `status` and `halt_seen` can
change. -/
theorem frame (h : Executed i s t) :
    t = { s with
      regs := t.regs, pc := t.pc, npc := t.npc, dc := t.dc, mem := t.mem, status := t.status, haltSeen := t.haltSeen } := by
  cases h with
  | moves | halts | stores => rfl
  | writes => rw [State.setReg_eq]
  | loads => rw [State.setReg_eq]; rfl

theorem data_of_no_access (h : Executed i s t) (hi : memAccess i = .none) : t.dc = s.dc ∧ t.mem = s.mem := by
  cases h with
  | moves | halts => exact ⟨rfl, rfl⟩
  | writes => exact ⟨by simp, by simp⟩
  | loads hne | stores hne => exact absurd hi hne

theorem status_of_ne_halt (h : Executed i s t) (hi : i ≠ .halt) : t.status = s.status ∧ t.haltSeen = s.haltSeen := by
  cases h with
  | moves | stores => exact ⟨rfl, rfl⟩
  | writes | loads => exact ⟨by simp, by simp⟩
  | halts he => exact absurd he hi

end Executed

/-- Settles O26: each clause read off what an instruction can do. -/
theorem onlyTheDestinationIsWritten : Obligations.OnlyTheDestinationIsWritten := by
  intro i s t h
  have ht := exec_executed h
  have hic : t.ic = s.ic := by rw [ht.frame]
  exact ⟨fun r => ht.reg_other, ht.regs_zero, hic, ht.data_of_no_access, ht.status_of_ne_halt, ht.frame⟩

end Sys2Proof.Machine
end

section
/-! PROOF. O42 and O43: what every tick does beside its latches (R220, R223, R255). -/

namespace Sys2Proof.Machine

/-! ## The commit leaves the registers, the caches, the store and the counters alone (R220 step 7) -/

/-- A commit changes the program counter, the latches, `halt_seen` and the wait bits alone. -/
theorem State.commit_frame (s : State) (f : FetchResult) (d : DecodeResult) (e : ExOutcome) (m : MemResult) :
    s.commit f d e m = { s.commit f d e m with
      view := s.view, cfg := s.cfg, regs := s.regs, status := s.status, cycle := s.cycle, ic := s.ic, dc := s.dc,
      mem := s.mem } := by
  obtain ⟨-, h⟩ | ⟨-, -, h⟩ | ⟨-, -, u, rfl, h⟩ := s.commit_cases f d e m
  · rw [h]
  · rw [h]
  · obtain ⟨-, h⟩ | ⟨-, -, h⟩ | ⟨-, -, w, -, h⟩ | ⟨-, -, -, target, -, h⟩ | ⟨-, -, -, -, h⟩ := h
    all_goals rw [h]

section Fields
variable (s : State) (f : FetchResult) (d : DecodeResult) (e : ExOutcome) (m : MemResult)

@[simp] theorem State.commit_view : (s.commit f d e m).view = s.view := by rw [State.commit_frame]
@[simp] theorem State.commit_cfg : (s.commit f d e m).cfg = s.cfg := by rw [State.commit_frame]
@[simp] theorem State.commit_regs : (s.commit f d e m).regs = s.regs := by rw [State.commit_frame]
@[simp] theorem State.commit_status : (s.commit f d e m).status = s.status := by rw [State.commit_frame]
@[simp] theorem State.commit_cycle : (s.commit f d e m).cycle = s.cycle := by rw [State.commit_frame]
@[simp] theorem State.commit_ic : (s.commit f d e m).ic = s.ic := by rw [State.commit_frame]
@[simp] theorem State.commit_dc : (s.commit f d e m).dc = s.dc := by rw [State.commit_frame]
@[simp] theorem State.commit_mem : (s.commit f d e m).mem = s.mem := by rw [State.commit_frame]

end Fields

/-! ## The tick -/

/-- A live tick ends in the commit of what its stages answered (R220). -/
theorem Ticked.eq_commit {s t : State} {f : FetchResult} {m : MemResult} (h : Ticked s t f m) :
    t = (s.writeBack.endOfTick f.side.cache m.side).commit f (s.decoded f) s.writeBack.executeStage m := by
  obtain ⟨hlive, hf, hm, hend⟩ := h
  simpa [tick, hlive, State.liveTick, hf, hm, State.decoded, eq_comm] using hend

/-- Write-back leaves the cell of register 0 as it is (R22). -/
@[simp] theorem State.writeBack_regs_zero (s : State) : s.writeBack.regs[0] = s.regs[0] := by
  unfold State.writeBack
  split
  · rfl
  · exact State.setReg_regs_zero ..

@[simp] theorem State.writeBack_haltNow (s : State) : s.writeBack.haltNow = s.haltNow := by simp [State.haltNow]

/-- The register file after a live tick is the one after its write-back (R256). -/
theorem Ticked.regs_eq {s t : State} {f : FetchResult} {m : MemResult} (h : Ticked s t f m) : t.regs = s.writeBack.regs := by
  simp [h.eq_commit]

/-- Settles O42: the register file after a tick is the one after write-back, which makes one register write. -/
theorem tickWritesOneRegister : Obligations.TickWritesOneRegister := by
  intro s t f m h
  refine ⟨fun r => ?_, ?_⟩
  · rw [State.reg_congr h.regs_eq r, State.writeBack_reg]
    simp only [eq_comm]
  · simp [h.regs_eq]

/-- Settles O43: the counter and the status are set at the end of the tick, and no commit touches them. -/
theorem tickCountsAndHalts : Obligations.TickCountsAndHalts := by
  intro s t f m h
  exact ⟨by simp [h.eq_commit], by simp [h.eq_commit, State.haltNow, h.live]⟩

end Sys2Proof.Machine
end

section
/-! PROOF. O32: no step changes the parameters or the view (R43). -/

namespace Sys2Proof.Machine

theorem liveTick_parameters {s t : State} (h : s.liveTick = .next t) : t.cfg = s.cfg ∧ t.view = s.view := by
  obtain ⟨f, m, -, -, rfl⟩ := State.liveTick_next h
  exact ⟨by simp, by simp⟩

theorem tick_parameters {s t : State} (h : tick s = .next t) : t.cfg = s.cfg ∧ t.view = s.view := by
  obtain ⟨-, rfl⟩ | ⟨-, h⟩ := tick_next h
  · exact ⟨rfl, rfl⟩
  · exact liveTick_parameters h

theorem exec_parameters {i : Instr} {s t : State} (h : exec i s = .next t) : t.cfg = s.cfg ∧ t.view = s.view := by
  have hframe := (exec_executed h).frame
  exact ⟨by rw [hframe], by rw [hframe]⟩

theorem State.runWord_parameters {s t : State} {w : Word} (h : s.runWord w = .next t) : t.cfg = s.cfg ∧ t.view = s.view := by
  obtain ⟨i, -, he⟩ | ⟨e, -, he⟩ := s.runWord_eq w
  · exact exec_parameters (he ▸ h)
  · obtain rfl := Host.Outcome.next.inj (he ▸ h)
    exact ⟨rfl, rfl⟩

/-- What a step of the instruction view can do: nothing in a core that has stopped, else a fetch and the word run (R190, R255). -/
theorem instructionStep_cases {s t : State} (h : instructionStep s = .next t) :
    t = s ∨ ∃ w s', s.fetchWhole = .ok (w, s') ∧ s'.runWord w = .next t := by
  cases hs : s.status with
  | notHalted => exact .inr (instructionStep_next hs h)
  | halted | aborted =>
    rw [instructionStep, hs] at h
    exact .inl (Host.Outcome.next.inj h).symm

theorem instructionStep_parameters {s t : State} (h : instructionStep s = .next t) : t.cfg = s.cfg ∧ t.view = s.view := by
  obtain rfl | ⟨w, s', hf, hr⟩ := instructionStep_cases h
  · exact ⟨rfl, rfl⟩
  · obtain ⟨bs, p, -, -, rfl⟩ := State.fetchWhole_ok hf
    exact State.runWord_parameters (s := s.withFetch p) hr

/-- Settles O32: by the view, each kind of step by what it can do. -/
theorem parametersNeverChange : Obligations.ParametersNeverChange := by
  intro s t h
  obtain ⟨-, ⟨-, h⟩ | ⟨-, h⟩⟩ := step_next h
  · exact tick_parameters h
  · exact instructionStep_parameters h

end Sys2Proof.Machine
end

section
/-! PROOF. O39: every step keeps the state well formed (R22, R62, R83, R263). -/

namespace Sys2Proof.Machine

/-! ## The instruction side -/

theorem State.wf.icfg_valid {s : State} (h : s.wf) : s.cfg.icfg.valid = true := by
  obtain ⟨hc, -⟩ := h
  simp only [CoreConfig.wellFormed, Bool.and_eq_true] at hc
  exact hc.1.2

/-- A fetch side that a fetch may leave: well formed, clean, over the store as it was (R83). -/
structure CacheStore.Fetched (s : State) (p : CacheStore) : Prop where
  wf : p.cache.wf s.cfg.icfg
  clean : p.cache.clean
  mem : p.mem = s.mem

theorem State.wf.fetched {s : State} (h : s.wf) : s.fetchSide.Fetched s := by
  obtain ⟨-, -, -, hi, hcl, -, -⟩ := h
  exact ⟨hi, hcl, rfl⟩

/-- A fetch through a clean `IC` leaves the state well formed (R83). -/
theorem State.wf.withFetch {s : State} (h : s.wf) {p : CacheStore} (hp : p.Fetched s) : (s.withFetch p).wf := by
  obtain ⟨hc, h0, hm, -, -, hd, hco⟩ := h
  have hmem : (s.withFetch p).mem = s.mem := hp.mem
  exact ⟨hc, h0, hmem ▸ hm, hp.wf, hp.clean, hd, hmem ▸ hco⟩

theorem State.wf.serveRead_fetched {s : State} (h : s.wf) {n : Nat} {bs : List Byte} {p : CacheStore}
    (hr : Cache.serveRead s.icEnv s.pc n s.fetchSide = .ok (bs, p)) : p.Fetched s :=
  have hclean := Cache.serveRead_clean h.fetched.clean hr
  ⟨Cache.serveRead_wf h.icfg_valid h.fetched.wf hr, hclean.1, hclean.2⟩

theorem State.wf.fetchStage_fetched {s : State} (h : s.wf) {f : FetchResult} (hf : s.fetchStage = .ok f) :
    f.side.Fetched s := by
  obtain ⟨-, rfl⟩ | ⟨-, r, hr, rfl⟩ := State.fetchStage_ok hf
  · exact h.fetched
  · have hclean := Cache.read_clean h.fetched.clean hr
    exact ⟨Cache.read_wf h.icfg_valid h.fetched.wf hr, hclean.1, hclean.2⟩

/-! ## One instruction -/

theorem Executed.wf {i : Instr} {s t : State} (h : s.wf) (ht : Executed i s t) : t.wf := by
  cases ht with
  | moves | halts => exact h.of_same rfl rfl rfl rfl rfl
  | writes v => exact (h.setReg (destOf i) v).of_same rfl rfl rfl rfl rfl
  | loads _ hp => exact ((h.withData (Cache.serveRead_sound h.data hp).1).setReg _ _).advance
  | stores _ hp => exact (h.withData (Cache.serveWrite_sound h.data hp).1).advance

theorem State.wf.runWord {s t : State} {w : Word} (h : s.wf) (hr : s.runWord w = .next t) : t.wf := by
  obtain ⟨i, -, he⟩ | ⟨e, -, he⟩ := s.runWord_eq w
  · exact (exec_executed (he ▸ hr)).wf h
  · obtain rfl := Host.Outcome.next.inj (he ▸ hr)
    exact h.takeException _

theorem State.wf.instructionStep {s t : State} (h : s.wf) (hs : instructionStep s = .next t) : t.wf := by
  obtain rfl | ⟨w, s', hf, hr⟩ := instructionStep_cases hs
  · exact h
  · obtain ⟨bs, p, hp, -, rfl⟩ := State.fetchWhole_ok hf
    exact (h.withFetch (h.serveRead_fetched hp)).runWord hr

/-! ## One tick -/

theorem State.wf.writeBack {s : State} (h : s.wf) : s.writeBack.wf := by
  unfold State.writeBack
  split
  · exact h
  · exact h.setReg _ _

/-- The memory stage leaves the data cache sound over the store (R245). -/
theorem State.memoryStage_sound {s : State} {mem : Memory} {m : MemResult}
    (h : CacheStore.Sound s.cfg.dcfg ⟨s.dc, mem⟩) (hm : s.memoryStage mem = .ok m) : m.side.Sound s.cfg.dcfg := by
  obtain ⟨i, sz, rs, imm, r, -, -, hr, rfl⟩ | ⟨i, sz, rt, rs, imm, r, -, -, hr, rfl⟩ | ⟨-, rfl⟩ := State.memoryStage_ok hm
  · exact (Cache.read_sound (e := s.dcEnv) h hr).1
  · exact (Cache.write_sound (e := s.dcEnv) h hr).1
  · exact h

/-- A tick's end with a fetched `IC` and a sound data side is well formed (R83, R255). -/
theorem State.wf.endOfTick {s : State} (h : s.wf) {p q : CacheStore} (hp : p.Fetched s) (hq : q.Sound s.cfg.dcfg) :
    (s.endOfTick p.cache q).wf :=
  ((h.withFetch hp).withData hq).of_same rfl rfl rfl rfl rfl

theorem State.wf.commit {s : State} (h : s.wf) (f : FetchResult) (d : DecodeResult) (e : ExOutcome) (m : MemResult) :
    (s.commit f d e m).wf :=
  h.of_same (by simp) (by simp) (by simp) (by simp) (by simp)

theorem State.wf.liveTick {s t : State} (h : s.wf) (ht : s.liveTick = .next t) : t.wf := by
  obtain ⟨f, m, hf, hm, rfl⟩ := State.liveTick_next ht
  have hw := h.writeBack
  have hfetched := hw.fetchStage_fetched hf
  have hdata := (hw.withFetch hfetched).data
  exact (hw.endOfTick hfetched (State.memoryStage_sound hdata hm)).commit f _ _ m

theorem State.wf.tick {s t : State} (h : s.wf) (ht : tick s = .next t) : t.wf := by
  obtain ⟨-, rfl⟩ | ⟨-, ht⟩ := tick_next ht
  · exact h
  · exact h.liveTick ht

/-- Settles O39: by the view, a tick stage by stage, an instruction by what it can do. -/
theorem everyStepKeepsTheStateWellFormed : Obligations.EveryStepKeepsTheStateWellFormed := by
  intro s t h hs
  obtain ⟨-, ⟨-, hs⟩ | ⟨-, hs⟩⟩ := step_next hs
  · exact h.tick hs
  · exact h.instructionStep hs

end Sys2Proof.Machine
end

section
/-! PROOF. O50: forwarding gives the youngest older write (R230 to R233). -/

namespace Sys2Proof.Machine

theorem Latch.forwards_getD (l : Latch) (r : RegNum) (x : Word) :
    (l.forwards r).getD x = if l.dest = r then l.wval.getD x else x := by
  unfold Latch.forwards
  split <;> rfl

/-- Write-back writes what `MEMWB` forwards (R22, R223, R233). -/
theorem State.writeBack_reg_eq_forwards (s : State) (r : RegNum) :
    s.writeBack.reg r = if r = 0 then 0 else (s.memwb.forwards r).getD (s.reg r) := by
  by_cases hr : r = 0
  · subst hr
    rfl
  · rw [State.writeBack_reg, if_neg hr, Latch.forwards_getD]
    simp only [ne_eq, hr, not_false_eq_true, and_true]

/-- The memory stage's operand is the register after the write that is pending in `MEMWB` (R232). -/
theorem State.memOperand_eq (s : State) (r : RegNum) : s.memOperand r = s.writeBack.reg r := by
  rw [State.writeBack_reg_eq_forwards]
  unfold State.memOperand
  cases s.memwb.forwards r <;> rfl

/-- The decode stage's operand: `EXMEM`, the younger write, over the memory stage's operand (R230). -/
theorem State.idOperand_eq (s : State) (r : RegNum) :
    s.idOperand r = if r = 0 then 0 else (s.exmem.forwards r).getD (s.memOperand r) := by
  unfold State.idOperand State.memOperand
  split
  · rfl
  · cases s.exmem.forwards r <;> rfl

/-- Decode and execute forward alike (R230, R231). -/
theorem State.exOperand_eq_idOperand (s : State) (r : RegNum) : s.exOperand r = s.idOperand r := rfl

/-- The same pending write twice is that write once (R223). -/
theorem State.writeBack_writeBack_reg (s : State) (r : RegNum) : s.writeBack.writeBack.reg r = s.writeBack.reg r := by
  simp only [State.writeBack_reg_eq_forwards, State.writeBack_memwb]
  split
  · rfl
  · cases s.memwb.forwards r <;> rfl

/-- The decode stage's operand in a tick, as two write-backs: of `MEMWB`, then of `EXMEM` (R230). -/
theorem State.writeBack_idOperand (s : State) (r : RegNum) :
    s.writeBack.idOperand r = ({ s.writeBack with memwb := s.exmem }).writeBack.reg r := by
  calc s.writeBack.idOperand r
      = if r = 0 then 0 else (s.exmem.forwards r).getD (s.writeBack.reg r) := by
        rw [State.idOperand_eq, State.memOperand_eq, State.writeBack_writeBack_reg, State.writeBack_exmem]
    _ = _ := (State.writeBack_reg_eq_forwards { s.writeBack with memwb := s.exmem } r).symm

/-- Settles O50: the memory operand is one write-back, the others are two, the younger last. -/
theorem operandsAreTheYoungestOlderWrites : Obligations.OperandsAreTheYoungestOlderWrites := by
  intro s r
  refine ⟨?_, s.writeBack_idOperand r, ?_⟩
  · rw [State.memOperand_eq, State.writeBack_writeBack_reg]
  · rw [State.exOperand_eq_idOperand, State.writeBack_idOperand]

end Sys2Proof.Machine
end

section
/-! PROOF. O35 and O60: a core that has stopped, and the host's run of ticks (R36, R41, R255, R258). -/

namespace Sys2Proof.Machine

theorem tick_of_stopped {s : State} (h : s.status ≠ .notHalted) : tick s = .next s := by
  cases hs : s.status with
  | notHalted => exact absurd hs h
  | halted | aborted => simp [tick, hs]

theorem instructionStep_of_stopped {s : State} (h : s.status ≠ .notHalted) : instructionStep s = .next s := by
  cases hs : s.status with
  | notHalted => exact absurd hs h
  | halted | aborted => simp [instructionStep, hs]

theorem hostTick_of_stopped {s : State} (h : s.status ≠ .notHalted) : hostTick s = s := by
  simp [hostTick, tick_of_stopped h]

/-- Settles O35: in either view, and for the host's tick. -/
theorem stoppedCoreIgnoresSteps : Obligations.StoppedCoreIgnoresSteps := by
  intro s hc hs
  refine ⟨?_, hostTick_of_stopped hs⟩
  cases hv : s.view with
  | cycle => rw [step_of_cycle_view hc hv, tick_of_stopped hs]
  | instruction => rw [step_of_instruction_view hc hv, instructionStep_of_stopped hs]

@[simp] theorem State.abort_status (s : State) (a : Word) (c : Nat) : (s.abort a c).status = .aborted a c := rfl

theorem hostTick_of_fault {s : State} {a : Word} {c : Nat} (h : tick s = .fault (.storeRefused a c)) :
    hostTick s = s.abort a c := by
  simp [hostTick, h]

theorem runCycles_of_stopped {s : State} (h : s.status ≠ .notHalted) (n : Nat) :
    runCycles n s = (s, decide (s.status = .halted)) := by
  cases n with
  | zero => rfl
  | succ n => simp [runCycles, h]

/-- `runCycles N` is `N` ticks of the host, for a tick changes nothing once the core has stopped (R41). -/
theorem runCycles_eq_iterate (n : Nat) (s : State) :
    runCycles n s = (hostTick^[n] s, decide ((hostTick^[n] s).status = .halted)) := by
  induction n generalizing s with
  | zero => rfl
  | succ n ih =>
    by_cases hs : s.status = .notHalted
    · rw [Function.iterate_succ_apply, ← ih (hostTick s)]
      simp [runCycles, hs]
    · rw [runCycles_of_stopped hs, Function.iterate_fixed (hostTick_of_stopped hs)]

/-- Settles O60: the abort is a stopped core, and the run by induction on the number of ticks. -/
theorem hostRunsAndAborts : Obligations.HostRunsAndAborts := by
  refine ⟨fun s a c h => ?_, fun n s => ?_⟩
  · rw [hostTick_of_fault h]
    exact ⟨rfl, hostTick_of_stopped (by simp)⟩
  · rw [runCycles_eq_iterate]
    exact ⟨rfl, rfl⟩

end Sys2Proof.Machine
end

section
/-! PROOF. O30 and O38: the state that `init` leaves (R42, R83, R263). -/

namespace Sys2Proof.Machine

/-! ## A cache right after `init` -/

theorem Cache.mem_set_reset {g : CacheConfig} {ls : List CacheLine} (h : ls ∈ (Cache.reset g).sets) :
    ls = List.replicate g.ways (CacheLine.reset g) := List.eq_of_mem_replicate h

/-- Every line is the reset line. -/
theorem Cache.mem_line_reset {g : CacheConfig} {ls : List CacheLine} (h : ls ∈ (Cache.reset g).sets) {l : CacheLine}
    (hl : l ∈ ls) : l = CacheLine.reset g := by
  rw [Cache.mem_set_reset h] at hl
  exact List.eq_of_mem_replicate hl

/-- Every line is invalid and clean (R42). -/
theorem Cache.reset_lines (g : CacheConfig) : ∀ ls ∈ (Cache.reset g).sets, ∀ l ∈ ls, l.valid = false ∧ l.dirty = false := by
  intro ls hls l hl
  rw [Cache.mem_line_reset hls hl]
  exact ⟨rfl, rfl⟩

theorem Cache.reset_clean (g : CacheConfig) : (Cache.reset g).clean := fun ls hls l hl => (Cache.reset_lines g ls hls l hl).2

/-- Reset gives every set its ways, and no valid line to break R83. -/
theorem Cache.reset_wf (g : CacheConfig) : (Cache.reset g).wf g := by
  refine ⟨by simp [Cache.reset], fun ls hls => ?_⟩
  have hinvalid : ¬ (CacheLine.reset g).valid = true := by simp [CacheLine.reset]
  rw [Cache.mem_set_reset hls]
  refine ⟨List.length_replicate, fun l hl => ?_, ?_⟩
  · obtain rfl := List.eq_of_mem_replicate hl
    exact ⟨⟨List.length_replicate, fun hv => absurd hv hinvalid⟩, fun hv => absurd hv hinvalid⟩
  · exact List.pairwise_replicate.2 (.inr fun hv => absurd hv hinvalid)

theorem Cache.reset_coherent (g : CacheConfig) (m : Memory) : (Cache.reset g).coherent g m := by
  intro s hs l hl hv
  have hset : (Cache.reset g).set s ∈ (Cache.reset g).sets := by
    rw [Cache.set, List.getD_eq_getElem _ _ hs]
    exact List.getElem_mem hs
  rw [(Cache.reset_lines g _ hset l hl).1] at hv
  cases hv

/-! ## The state -/

/-- Settles O30: each row of R42 holds of the state that `init` builds. -/
theorem resetLeavesTheTable : Obligations.ResetLeavesTheTable := by
  intro cfg mem hc
  exact ⟨State.initial cfg mem, if_pos hc, State.initial_reg cfg mem, rfl, rfl, rfl, rfl, rfl, rfl, rfl, rfl, rfl, rfl, rfl,
    Cache.reset_lines cfg.icfg, Cache.reset_lines cfg.dcfg, rfl, rfl, rfl, rfl, rfl, rfl⟩

theorem initial_wf {cfg : CoreConfig} {mem : Memory} (hc : cfg.wellFormed = true) (hm : mem.wf) : (State.initial cfg mem).wf :=
  ⟨hc, by simp [State.initial], hm, Cache.reset_wf _, Cache.reset_clean _, Cache.reset_wf _, Cache.reset_coherent _ _⟩

/-- Four bubbles keep the invariants of R263 (R226). -/
theorem initial_pipelineWf {cfg : CoreConfig} (mem : Memory) (hc : cfg.wellFormed = true) :
    (State.initial cfg mem).pipelineWf := by
  have hfree : haltWordFree cfg.haltWord = true := by
    simp only [CoreConfig.wellFormed, Bool.and_eq_true] at hc
    exact hc.1.1.1
  obtain ⟨hdest, hload, -, -⟩ := bubble_harmless hfree
  have hsentinels : (State.initial cfg mem).sentinels = 0 := by
    simp [State.sentinels, State.initial, Latch.bubble, haltWord_ne_bubble hfree]
  refine ⟨⟨rfl, rfl⟩, ?_, ?_, ?_, ?_, ?_, ?_, fun _ => hsentinels⟩
  · simp [State.initial, Latch.bubble, hdest]
  · simp [State.initial, Latch.bubble, opOf_bubble hfree]
  · simp [State.initial]
  · simp [State.initial, Latch.bubble]
  · simp [State.initial]
  · simp [hsentinels]

/-- Settles O38: for all parameters that `init` accepts; `State.reset` is one case. -/
theorem resetIsWellFormed : Obligations.ResetIsWellFormed := by
  have hdefault : CoreConfig.wellFormed Config.default = true := by decide
  refine ⟨fun cfg mem hc hm => ⟨initial_wf hc hm, initial_pipelineWf mem hc⟩, ?_, ?_⟩
  · rw [reset_eq_initial]
    exact initial_wf hdefault reset_mem_wf
  · rw [reset_eq_initial]
    exact initial_pipelineWf [] hdefault

end Sys2Proof.Machine
end

section
/-! PROOF. Values and their bytes (R54, R55): the facts that the statements about loads, stores, fetches and the image share. -/

namespace Sys2Proof.Machine

/-- One more byte of a value, as a number (R54). -/
theorem shiftLeft_or_byte (v : Word) (b : Byte) : v <<< 8 ||| b.setWidth 32 = BitVec.ofNat 32 (v.toNat * 256 + b.toNat) := by
  apply BitVec.eq_of_toNat_eq
  have hb : b.toNat < 2 ^ 8 := b.isLt
  have hbw : b.toNat % 2 ^ 32 = b.toNat := Nat.mod_eq_of_lt (by omega)
  have hshift : v.toNat <<< 8 % 2 ^ 32 = (v.toNat % 2 ^ 24) <<< 8 := by
    simp only [Nat.shiftLeft_eq]
    omega
  rw [BitVec.toNat_or, BitVec.toNat_shiftLeft, BitVec.toNat_setWidth, BitVec.toNat_ofNat, hbw, hshift,
    ← Nat.shiftLeft_add_eq_or_of_lt hb, Nat.shiftLeft_eq]
  omega

/-- The last byte of an access is the least significant (R54). -/
theorem valueOfBytes_concat (bs : List Byte) (b : Byte) :
    valueOfBytes (bs ++ [b]) = BitVec.ofNat 32 ((valueOfBytes bs).toNat * 256 + b.toNat) := by
  rw [← shiftLeft_or_byte]
  simp [valueOfBytes]

theorem byteAddresses_concat (n : Nat) (a : Word) : byteAddresses (n + 1) a = byteAddresses n a ++ [a + BitVec.ofNat 32 n] := by
  refine List.ext_getElem (by simp) fun k hk hk' => ?_
  rw [byteAddresses_getElem hk]
  rw [byteAddresses_length] at hk
  rcases Nat.lt_succ_iff_lt_or_eq.1 hk with h | rfl
  · rw [List.getElem_append_left (by simpa using h), byteAddresses_getElem]
  · simp

/-- The bytes of data memory from `a`, as the value of an access (R54, R56). -/
theorem valueOfBytes_dataBytes (s : State) (a : Word) (n : Nat) :
    valueOfBytes ((byteAddresses n a).map s.dataByte) = BitVec.ofNat 32 (bigEndian s a n) := by
  induction n with
  | zero => rfl
  | succ n ih =>
    rw [byteAddresses_concat, List.map_append, List.map_singleton, valueOfBytes_concat, ih]
    apply BitVec.eq_of_toNat_eq
    simp only [bigEndian, BitVec.toNat_ofNat]
    omega

theorem toNat_append_byte {w : Nat} (x : BitVec w) (b : Byte) : (x ++ b).toNat = x.toNat * 256 + b.toNat := by
  rw [BitVec.toNat_append, ← Nat.shiftLeft_add_eq_or_of_lt b.isLt, Nat.shiftLeft_eq]

/-- Four bytes and their value (R54). -/
theorem valueOfBytes_four (b₀ b₁ b₂ b₃ : Byte) : valueOfBytes [b₀, b₁, b₂, b₃] = b₀ ++ b₁ ++ b₂ ++ b₃ := by
  apply BitVec.eq_of_toNat_eq
  have h₀ : valueOfBytes [] = 0 := rfl
  have h := valueOfBytes_concat
  have hcons : [b₀, b₁, b₂, b₃] = [] ++ [b₀] ++ [b₁] ++ [b₂] ++ [b₃] := rfl
  rw [hcons, h, h, h, h, h₀]
  simp only [toNat_append_byte, BitVec.toNat_ofNat]
  have := b₀.isLt
  have := b₁.isLt
  have := b₂.isLt
  have := b₃.isLt
  omega

@[simp] theorem bytesOfValue_length (n : Nat) (v : Word) : (bytesOfValue n v).length = n := by simp [bytesOfValue]

theorem bytesOfValue_getElem {n : Nat} {v : Word} {k : Nat} (h : k < (bytesOfValue n v).length) :
    (bytesOfValue n v)[k] = v.extractLsb' (8 * (n - 1 - k)) 8 := by simp [bytesOfValue]

/-- The last of a value's bytes is its lowest; the others are the bytes of the value shifted (R54). -/
theorem bytesOfValue_succ (n : Nat) (v : Word) : bytesOfValue (n + 1) v = bytesOfValue n (v >>> 8) ++ [v.extractLsb' 0 8] := by
  refine List.ext_getElem (by simp) fun k hk hk' => ?_
  rw [bytesOfValue_getElem hk]
  rw [bytesOfValue_length] at hk
  rcases Nat.lt_succ_iff_lt_or_eq.1 hk with h | rfl
  · rw [List.getElem_append_left (by simpa using h), bytesOfValue_getElem]
    apply BitVec.eq_of_toNat_eq
    simp only [BitVec.extractLsb'_toNat, BitVec.toNat_ushiftRight, ← Nat.shiftRight_add]
    congr 2
    omega
  · simp

/-- The low `8n` bits of a value, written as `n` bytes and read back (R54, R55). -/
theorem valueOfBytes_bytesOfValue (n : Nat) (v : Word) :
    valueOfBytes (bytesOfValue n v) = BitVec.ofNat 32 (v.toNat % 2 ^ (8 * n)) := by
  induction n generalizing v with
  | zero => simp [bytesOfValue, valueOfBytes, Nat.mod_one]
  | succ n ih =>
    rw [bytesOfValue_succ, valueOfBytes_concat, ih]
    apply BitVec.eq_of_toNat_eq
    have hmod : v.toNat % 2 ^ (8 * (n + 1)) = v.toNat / 2 ^ 8 % 2 ^ (8 * n) * 256 + v.toNat % 256 := by
      rw [Nat.mul_succ, Nat.add_comm, pow_add, Nat.mod_mul]
      omega
    simp only [BitVec.toNat_ofNat, BitVec.extractLsb'_toNat, BitVec.toNat_ushiftRight, Nat.shiftRight_eq_div_pow, hmod]
    generalize v.toNat / 2 ^ 8 % 2 ^ (8 * n) = high
    omega

end Sys2Proof.Machine
end

section
/-! PROOF. O24, O25 and O28: what loads and stores do to the data memory and to the code that `IC` holds (R56, R57, R64). -/

namespace Sys2Proof.Machine

/-! ## A load and a store, by the data memory they see -/

section Access
variable {s t : State} {sz : AccessSize} {rt rs : RegNum} {imm : BitVec 16}

theorem State.load_reg (h : s.wf) (hl : s.load sz rt rs imm = .next t) (hrt : rt ≠ 0) :
    t.reg rt = valueOfBytes ((byteAddresses sz.bytes (effectiveAddress (s.reg rs) imm)).map s.dataByte) := by
  obtain ⟨bs, p, hr, rfl⟩ := State.load_next hl
  obtain ⟨-, -, rfl⟩ := Cache.serveRead_sound h.data hr
  rw [State.advance_reg, State.reg_setReg_same _ hrt]
  rfl

/-- A load moves lines between the cache and the store and changes no byte (R56). -/
theorem State.load_dataByte (h : s.wf) (hl : s.load sz rt rs imm = .next t) (a : Word) : t.dataByte a = s.dataByte a := by
  obtain ⟨bs, p, hr, rfl⟩ := State.load_next hl
  obtain ⟨-, hseen, -⟩ := Cache.serveRead_sound h.data hr
  rw [State.advance_dataByte, State.setReg_dataByte]
  exact hseen a

theorem State.store_reg (hs : s.store sz rt rs imm = .next t) (r : RegNum) : t.reg r = s.reg r := by
  obtain ⟨p, -, rfl⟩ := State.store_next hs
  rfl

theorem State.store_stored (h : s.wf) (hs : s.store sz rt rs imm = .next t) :
    Stored s.cfg.dcfg s.dataSide t.dataSide (effectiveAddress (s.reg rs) imm) (bytesOfValue sz.bytes (s.reg rt)) := by
  obtain ⟨p, hw, rfl⟩ := State.store_next hs
  exact (Cache.serveWrite_sound h.data hw).2

/-- A store puts its bytes in data memory, the most significant first (R54, R57). -/
theorem State.store_dataByte (h : s.wf) (hs : s.store sz rt rs imm = .next t) {k : Nat} (hk : k < sz.bytes) :
    t.dataByte (effectiveAddress (s.reg rs) imm + BitVec.ofNat 32 k) =
      (s.reg rt).extractLsb' (8 * (sz.bytes - 1 - k)) 8 := by
  obtain ⟨-, hbytes⟩ := State.store_stored h hs
  have hcfg : t.cfg = s.cfg := by
    obtain ⟨p, -, rfl⟩ := State.store_next hs
    rfl
  have hlen : sz.bytes ≤ 2 ^ 32 := by cases sz <;> decide
  rw [State.dataByte, hcfg, hbytes (by simpa using hlen) k (by simpa using hk), bytesOfValue_getElem]

end Access

/-! ## O24: a stored word, read back -/

/-- The `n` bytes from the `k`-th of a stored word are those of the word shifted down to the last of them (R54). -/
theorem map_dataByte_of_stored_word {t : State} {a v : Word}
    (hbytes : ∀ k < 4, t.dataByte (a + BitVec.ofNat 32 k) = v.extractLsb' (8 * (3 - k)) 8) {n k : Nat} (hk : k + n ≤ 4) :
    (byteAddresses n (a + BitVec.ofNat 32 k)).map t.dataByte = bytesOfValue n (v >>> (8 * (4 - k - n))) := by
  refine List.ext_getElem (by simp) fun j hj hj' => ?_
  rw [List.length_map, byteAddresses_length] at hj
  rw [List.getElem_map, byteAddresses_getElem, BitVec.add_assoc, ← BitVec.ofNat_add, hbytes _ (by omega), bytesOfValue_getElem]
  apply BitVec.eq_of_toNat_eq
  simp only [BitVec.extractLsb'_toNat, BitVec.toNat_ushiftRight, ← Nat.shiftRight_add]
  congr 2
  omega

/-- After `SW`, what a load of `n` bytes from the `k`-th byte of the stored word gives (R54, R63). -/
theorem load_of_stored_word {s t u : State} {rt rs rd rb : RegNum} {imm off : BitVec 16} {sz : AccessSize} {k : Nat} (h : s.wf)
    (hs : s.store .word rt rs imm = .next t) (hk : k + sz.bytes ≤ 4)
    (ha : effectiveAddress (s.reg rb) off = effectiveAddress (s.reg rs) imm + BitVec.ofNat 32 k)
    (hl : t.load sz rd rb off = .next u) (hrd : rd ≠ 0) :
    u.reg rd = BitVec.ofNat 32 ((s.reg rt >>> (8 * (4 - k - sz.bytes))).toNat % 2 ^ (8 * sz.bytes)) := by
  have ht : t.wf := (exec_executed (i := .sw rt rs imm) hs).wf h
  rw [State.load_reg ht hl hrd, State.store_reg hs, ha, map_dataByte_of_stored_word (fun k => State.store_dataByte h hs) hk,
    valueOfBytes_bytesOfValue]

/-- The low `n` bits of a word, by a mask. -/
theorem ofNat_mod_two_pow (x : Word) {n : Nat} (hn : n ≤ 32) :
    BitVec.ofNat 32 (x.toNat % 2 ^ n) = x &&& BitVec.ofNat 32 (2 ^ n - 1) := by
  apply BitVec.eq_of_toNat_eq
  have hpow : 2 ^ n ≤ 2 ^ 32 := Nat.pow_le_pow_right (by decide) hn
  have hpos : 0 < 2 ^ n := Nat.two_pow_pos n
  rw [BitVec.toNat_and, BitVec.toNat_ofNat, BitVec.toNat_ofNat, Nat.mod_eq_of_lt (a := 2 ^ n - 1) (by omega),
    Nat.and_two_pow_sub_one_eq_mod, Nat.mod_eq_of_lt (lt_of_lt_of_le (Nat.mod_lt _ hpos) hpow)]

/-- Settles O24: each load is the stored word shifted and cut to its width. -/
theorem storedWordReadsBackBigEndian : Obligations.StoredWordReadsBackBigEndian := by
  intro s t u rt rs rd rb imm off h hs hrd
  refine ⟨fun ha hl => ?_, fun k hk ha hl => ?_, fun k hk ha hl => ?_⟩
  · rw [load_of_stored_word (sz := .word) (k := 0) h hs (by decide) (by simpa using ha) hl hrd]
    apply BitVec.eq_of_toNat_eq
    simpa [AccessSize.bytes] using (s.reg rt).isLt
  · rw [load_of_stored_word (sz := .byte) h hs (by simp only [AccessSize.bytes]; omega) ha hl hrd,
      ofNat_mod_two_pow _ (by decide)]
    congr 3
    simp only [AccessSize.bytes]
    omega
  · rw [load_of_stored_word (sz := .half) h hs (by simp only [AccessSize.bytes]; omega) ha hl hrd,
      ofNat_mod_two_pow _ (by decide)]
    congr 3
    simp only [AccessSize.bytes]
    omega

/-! ## O25: code that `IC` holds -/

/-- What a fetch sees at an address that `IC` holds does not depend on the store (R64). -/
theorem State.fetchByte_of_held {s t : State} {a : Word} (hc : t.cfg = s.cfg) (hi : t.ic = s.ic)
    (ha : s.ic.find s.cfg.icfg a ≠ none) : t.fetchByte a = s.fetchByte a := by
  obtain ⟨w, hw⟩ := Option.ne_none_iff_exists'.1 ha
  have hs := seenByte_of_find (p := s.fetchSide) hw
  have ht := seenByte_of_find (p := ⟨s.ic, t.mem⟩) hw
  rw [State.fetchByte, State.fetchByte, State.fetchSide, hc, hi, hs, ht]
  rfl

/-- Settles O25: no instruction changes `IC`, and a held byte is `IC`'s. -/
theorem storesDoNotReachCachedCode : Obligations.StoresDoNotReachCachedCode := by
  intro s t rt rs imm a h ha
  obtain ⟨i, hi⟩ : ∃ i, exec i s = .next t := by
    rcases h with h | h | h <;> exact ⟨_, h⟩
  have hframe := (exec_executed hi).frame
  exact State.fetchByte_of_held (by rw [hframe]) (by rw [hframe]) ha

/-! ## O28: what changes data memory -/

theorem exec_of_load {i : Instr} {sz : AccessSize} {rs : RegNum} {imm : BitVec 16} (hi : memAccess i = .load sz rs imm)
    (s : State) : exec i s = s.load sz (destOf i) rs imm := by
  cases i with
  | lw | lhu | lbu =>
    obtain ⟨rfl, rfl, rfl⟩ := MemAccess.load.inj hi
    rfl
  | _ => cases hi

/-- Settles O28: by the access that the instruction makes. -/
theorem onlyStoresChangeDataMemory : Obligations.OnlyStoresChangeDataMemory := by
  intro i s t h hi ht a
  cases hacc : memAccess i with
  | none =>
    obtain ⟨hdc, hmem⟩ := (exec_executed ht).data_of_no_access hacc
    exact State.dataByte_congr (exec_parameters ht).1 hdc hmem a
  | load sz rs imm => exact State.load_dataByte h (exec_of_load hacc s ▸ ht) a
  | store sz rt rs imm => exact absurd hacc (hi sz rt rs imm)

end Sys2Proof.Machine
end

section
/-! PROOF. O34 and O59: the code that a fetch reads and the image that the host loads (R54, R59, R60, R64). -/

namespace Sys2Proof.Machine

/-! ## O34: a fetch of the architectural view -/

/-- The four bytes that fetches see from `a`, as the word of a fetch (R54, R59). -/
theorem valueOfBytes_codeBytes (s : State) (a : Word) : valueOfBytes ((byteAddresses 4 a).map s.fetchByte) =
    s.fetchByte a ++ s.fetchByte (a + 1) ++ s.fetchByte (a + 2) ++ s.fetchByte (a + 3) := by
  have haddr : byteAddresses 4 a = [a, a + 1, a + 2, a + 3] := by
    simp [byteAddresses, BitVec.add_assoc]
  rw [haddr]
  exact valueOfBytes_four ..

/-- A fetch through an `IC` that holds what the store holds (R59, R64). -/
theorem State.wf.fetchWhole_reads {s s' : State} {w : Word} (h : s.wf) (hco : s.codeCoherent)
    (hf : s.fetchWhole = .ok (w, s')) :
    w = valueOfBytes ((byteAddresses 4 s.pc).map s.fetchByte) ∧ s'.mem = s.mem ∧ ∀ a, s'.fetchByte a = s.fetchByte a := by
  obtain ⟨bs, p, hr, rfl, rfl⟩ := State.fetchWhole_ok hf
  obtain ⟨-, hseen, rfl⟩ := Cache.serveRead_sound (h.fetch hco) hr
  exact ⟨rfl, (h.serveRead_fetched hr).mem, hseen⟩

theorem State.fetchWhole_acceptsAll {s : State} (h : acceptsAll s.cfg.memValid) : ∃ w s', s.fetchWhole = .ok (w, s') := by
  obtain ⟨⟨bs, p⟩, hr⟩ : ∃ r, Cache.serveRead s.icEnv s.pc 4 s.fetchSide = .ok r := readLoop_acceptsAll h ..
  exact ⟨_, _, by rw [State.fetchWhole, hr]⟩

/-- Settles O34: the whole read of a clean `IC` that is sound over the store. -/
theorem fetchReadsTheCodeBytes : Obligations.FetchReadsTheCodeBytes := by
  intro s h hco
  refine ⟨fun w s' hf => ?_, State.fetchWhole_acceptsAll⟩
  obtain ⟨hw, hmem, hcode⟩ := h.fetchWhole_reads hco hf
  have hframe := State.fetchWhole_frame hf
  refine ⟨hw.trans (valueOfBytes_codeBytes s s.pc), hmem, hcode, ?_, ?_⟩
  · exact State.dataByte_congr (by rw [hframe]) (by rw [hframe]) hmem
  · rw [hmem] at hframe
    exact hframe

/-! ## O59: the image -/

theorem bytesOfWord_eq (w : Word) : bytesOfWord w = bytesOfValue 4 w := rfl

/-- A word written to the store has its bytes there, the most significant first (R54). -/
theorem readByte_writeWord_same {m : Memory} (hm : m.wf) {a : Word} (w : Word) {j : Nat} (hj : j < 4)
    (ha : a.toNat + 4 ≤ 2 ^ 32) :
    readByte (writeBytesAt m a (bytesOfWord w)) (a.toNat + j) = w.extractLsb' (8 * (3 - j)) 8 := by
  have haddr : (a + BitVec.ofNat 32 j).toNat = a.toNat + j := by
    rw [BitVec.toNat_add, BitVec.toNat_ofNat]
    omega
  rw [← haddr, bytesOfWord_eq, readByte_writeBytesAt_same hm (by simp) (by simpa using hj), bytesOfValue_getElem]

theorem readByte_writeWord_other {m : Memory} {a : Word} (w : Word) {x : Nat} (hx : x < 2 ^ 32) (ha : a.toNat + 4 ≤ 2 ^ 32)
    (h : x < a.toNat ∨ a.toNat + 4 ≤ x) : readByte (writeBytesAt m a (bytesOfWord w)) x = readByte m x := by
  have hx' : (BitVec.ofNat 32 x).toNat = x := by
    rw [BitVec.toNat_ofNat, Nat.mod_eq_of_lt hx]
  have hother : ∀ k < (bytesOfWord w).length, BitVec.ofNat 32 x ≠ a + BitVec.ofNat 32 k := by
    intro k hk he
    have hk : k < 4 := hk
    have := congrArg BitVec.toNat he
    rw [hx', BitVec.toNat_add, BitVec.toNat_ofNat] at this
    omega
  have := readByte_writeBytesAt_other (m := m) hother
  rwa [hx'] at this

/-- Loading an image leaves every byte outside it as it was (R60). -/
theorem readByte_loadWords_other {m : Memory} {a : Word} {ws : List Word} (ha : a.toNat + 4 * ws.length ≤ 2 ^ 32) {x : Nat}
    (hx : x < 2 ^ 32) (h : x < a.toNat ∨ a.toNat + 4 * ws.length ≤ x) : readByte (loadWords m a ws) x = readByte m x := by
  induction ws generalizing m a with
  | nil => rfl
  | cons w ws ih =>
    rw [List.length_cons] at ha h
    have hnext : (a + 4).toNat = (a.toNat + 4) % 2 ^ 32 := BitVec.toNat_add ..
    calc readByte (loadWords (writeBytesAt m a (bytesOfWord w)) (a + 4) ws) x
        = readByte (writeBytesAt m a (bytesOfWord w)) x := ih (by omega) (by omega)
      _ = readByte m x := readByte_writeWord_other w hx (by omega) (by omega)

/-- Word `k` of a loaded image is at the `k`-th word address, its bytes the most significant first (R54, R60). -/
theorem readByte_loadWords_same {m : Memory} (hm : m.wf) {a : Word} {ws : List Word} (ha : a.toNat + 4 * ws.length ≤ 2 ^ 32)
    {k : Nat} (hk : k < ws.length) {j : Nat} (hj : j < 4) :
    readByte (loadWords m a ws) (a.toNat + 4 * k + j) = ws[k].extractLsb' (8 * (3 - j)) 8 := by
  induction ws generalizing m a k with
  | nil => cases hk
  | cons w ws ih =>
    rw [List.length_cons] at ha hk
    have hnext : (a + 4).toNat = (a.toNat + 4) % 2 ^ 32 := BitVec.toNat_add ..
    unfold loadWords
    cases k with
    | zero =>
      rw [readByte_loadWords_other (by omega) (by omega) (by omega)]
      exact readByte_writeWord_same hm w hj (by omega)
    | succ k =>
      have haddr : a.toNat + 4 * (k + 1) + j = (a + 4).toNat + 4 * k + j := by omega
      rw [haddr]
      exact ih (writeBytesAt_wf hm _ _) (by omega) (by omega)

/-- Settles O59: by induction on the words, each written where the later ones do not reach. -/
theorem loadedImageIsBigEndian : Obligations.LoadedImageIsBigEndian := by
  intro m a ws hm ha
  exact ⟨fun k hk j hj => readByte_loadWords_same hm ha hk hj, fun x hx h => readByte_loadWords_other ha hx h⟩

end Sys2Proof.Machine
end

section
/-! PROOF. O36: a step faults only where the store refuses an address (R53, R258, R296). -/

namespace Sys2Proof.Machine

/-! ## A refused call names an address that `MEM_VALID` excludes -/

/-- An answer that fails, if it does, with an address outside `MEM_VALID` (R53). -/
structure RefusesOnly {α : Type} (valid : List Region) (r : Except Word α) : Prop where
  invalid : ∀ {bad}, r = .error bad → memValidAt valid bad = false

namespace RefusesOnly
variable {α β : Type} {valid : List Region}

theorem ok (x : α) : RefusesOnly valid (.ok x) := ⟨fun h => by cases h⟩

theorem error {bad : Word} (h : memValidAt valid bad = false) : RefusesOnly valid (.error bad : Except Word α) :=
  ⟨fun hb => Except.error.inj hb ▸ h⟩

/-- A refusal passed on is the refusal of the call that made it (R53). -/
theorem passed {r : Except Word α} {bad : Word} (hr : RefusesOnly valid r) (h : r = .error bad) :
    RefusesOnly valid (.error bad : Except Word β) := .error (hr.invalid h)

end RefusesOnly

theorem memValidAt_of_firstRefused {valid : List Region} {as : List Word} {bad : Word} (h : firstRefused valid as = some bad) :
    memValidAt valid bad = false := by
  simpa using List.find?_some h

theorem getValue_refusesOnly (valid : List Region) (m : Memory) (a : Word) (sz : AccessSize) :
    RefusesOnly valid (getValue valid m a sz) := by
  unfold getValue
  split
  · exact .error (memValidAt_of_firstRefused ‹_›)
  · exact .ok _

theorem setValue_refusesOnly (valid : List Region) (m : Memory) (a : Word) (bs : List Byte) :
    RefusesOnly valid (setValue valid m a bs) := by
  unfold setValue
  split
  · exact .error (memValidAt_of_firstRefused ‹_›)
  · exact .ok _

theorem fillBlock_refusesOnly (valid : List Region) (m : Memory) (n : Nat) (a : Word) :
    RefusesOnly valid (fillBlock valid m n a) := by
  induction n generalizing a with
  | zero => exact .ok _
  | succ n ih =>
    unfold fillBlock
    split
    · exact (getValue_refusesOnly ..).passed ‹_›
    · split
      · exact (ih _).passed ‹_›
      · exact .ok _

theorem writeBlock_refusesOnly (valid : List Region) (m : Memory) (a : Word) (bs : List Byte) :
    RefusesOnly valid (writeBlock valid m a bs) := by
  induction bs generalizing m a with
  | nil => exact .ok _
  | cons b bs ih =>
    unfold writeBlock
    split
    · exact (setValue_refusesOnly ..).passed ‹_›
    · exact ih ..

section Cache
variable (e : CacheEnv)

theorem writeBackLine_refusesOnly (s : Nat) (l : CacheLine) (m : Memory) : RefusesOnly e.valid (writeBackLine e s l m) := by
  unfold writeBackLine
  split
  · exact writeBlock_refusesOnly ..
  · exact .ok _

theorem missProc_refusesOnly (a : Word) (p : CacheStore) : RefusesOnly e.valid (missProc e a p) := by
  unfold missProc
  simp only
  split
  · exact (writeBackLine_refusesOnly ..).passed ‹_›
  · split
    · exact (fillBlock_refusesOnly ..).passed ‹_›
    · exact .ok _

theorem touch_refusesOnly (a : Word) (p : CacheStore) : RefusesOnly e.valid (touch e a p) := by
  unfold touch
  split
  · exact missProc_refusesOnly ..
  · exact .ok _

theorem ensure_refusesOnly (a : Word) (p : CacheStore) : RefusesOnly e.valid (ensure e a p) := by
  unfold ensure
  split
  · exact missProc_refusesOnly ..
  · exact .ok _

theorem readLoop_refusesOnly (n : Nat) (a : Word) (p : CacheStore) : RefusesOnly e.valid (readLoop e n a p) := by
  induction n generalizing a p with
  | zero => exact .ok _
  | succ n ih =>
    unfold readLoop
    split
    · exact (touch_refusesOnly ..).passed ‹_›
    · split
      · exact (ih ..).passed ‹_›
      · exact .ok _

theorem writeLoop_refusesOnly (st : AccessStatus) (bs : List Byte) (a : Word) (p : CacheStore) :
    RefusesOnly e.valid (writeLoop e st bs a p) := by
  induction bs generalizing a p with
  | nil => exact .ok _
  | cons b bs ih =>
    have hline : RefusesOnly e.valid (if st = .hit then touch e a p else ensure e a p) := by
      split
      · exact touch_refusesOnly ..
      · exact ensure_refusesOnly ..
    unfold writeLoop
    split
    · exact hline.passed ‹_›
    · exact ih ..

theorem Cache.read_refusesOnly (a : Word) (n : Nat) (first : Bool) (p : CacheStore) :
    RefusesOnly e.valid (Cache.read e a n first p) := by
  unfold Cache.read
  split
  · exact .ok _
  · split
    · exact (missProc_refusesOnly ..).passed ‹_›
    · exact .ok _
  · split
    · exact (readLoop_refusesOnly ..).passed ‹_›
    · exact .ok _

theorem Cache.write_refusesOnly (a : Word) (bs : List Byte) (first : Bool) (p : CacheStore) :
    RefusesOnly e.valid (Cache.write e a bs first p) := by
  unfold Cache.write
  split
  · exact .ok _
  · split
    · exact (missProc_refusesOnly ..).passed ‹_›
    · split
      · exact (writeLoop_refusesOnly ..).passed ‹_›
      · exact .ok _
  · split
    · exact (writeLoop_refusesOnly ..).passed ‹_›
    · exact .ok _

end Cache

theorem State.fetchWhole_refusesOnly (s : State) : RefusesOnly s.cfg.memValid s.fetchWhole := by
  unfold State.fetchWhole
  split
  · exact (readLoop_refusesOnly s.icEnv ..).passed ‹_›
  · exact .ok _

theorem State.fetchStage_refusesOnly (s : State) : RefusesOnly s.cfg.memValid s.fetchStage := by
  unfold State.fetchStage
  split
  · exact .ok _
  · split
    · exact (Cache.read_refusesOnly s.icEnv ..).passed ‹_›
    · exact .ok _

theorem State.memoryStage_refusesOnly (s : State) (m : Memory) : RefusesOnly s.cfg.memValid (s.memoryStage m) := by
  unfold State.memoryStage
  split
  · split
    · exact (Cache.read_refusesOnly s.dcEnv ..).passed ‹_›
    · exact .ok _
  · split
    · exact (Cache.write_refusesOnly s.dcEnv ..).passed ‹_›
    · exact .ok _
  · exact .ok _

/-! ## The faults of a result -/

/-- A result that faults, if it does, as the fatal error of `s` with an address outside `MEM_VALID` (R53, R296). -/
structure FaultsOnly (s : State) (r : Result) : Prop where
  fatal_of : ∀ {a c}, r = .fault (.storeRefused a c) → memValidAt s.cfg.memValid a = false ∧ c = s.cycle

namespace FaultsOnly
variable {s : State}

theorem next (t : State) : FaultsOnly s (.next t) := ⟨fun h => by cases h⟩

theorem refused (r : Refusal) : FaultsOnly s (.refused r) := ⟨fun h => by cases h⟩

theorem fatal {bad : Word} (h : memValidAt s.cfg.memValid bad = false) : FaultsOnly s (s.fatal bad) := by
  refine ⟨fun hf => ?_⟩
  cases hf
  exact ⟨h, rfl⟩

end FaultsOnly

theorem State.branchIf_faultsOnly (s : State) (taken : Bool) (target : Word) : FaultsOnly s (s.branchIf taken target) := by
  rw [State.branchIf_eq]
  exact .next _

theorem State.writeTrapping_faultsOnly (s : State) (rd : RegNum) (ov : Bool) (v : Word) :
    FaultsOnly s (s.writeTrapping rd ov v) := by
  rw [State.writeTrapping_eq]
  split <;> exact .next _

theorem State.load_faultsOnly (s : State) (sz : AccessSize) (rt rs : RegNum) (imm : BitVec 16) :
    FaultsOnly s (s.load sz rt rs imm) := by
  unfold State.load
  split
  · exact .fatal ((readLoop_refusesOnly s.dcEnv ..).invalid ‹_›)
  · exact .next _

theorem State.store_faultsOnly (s : State) (sz : AccessSize) (rt rs : RegNum) (imm : BitVec 16) :
    FaultsOnly s (s.store sz rt rs imm) := by
  unfold State.store
  split
  · exact .fatal ((writeLoop_refusesOnly s.dcEnv ..).invalid ‹_›)
  · exact .next _

theorem exec_faultsOnly (i : Instr) (s : State) : FaultsOnly s (exec i s) := by
  cases i with
  | add | sub | addi => exact s.writeTrapping_faultsOnly ..
  | beq | bne | blez | bgtz => exact s.branchIf_faultsOnly ..
  | lw | lbu | lhu => exact s.load_faultsOnly ..
  | sb | sh | sw => exact s.store_faultsOnly ..
  | _ => exact .next _

theorem State.runWord_faultsOnly (s : State) (w : Word) : FaultsOnly s (s.runWord w) := by
  obtain ⟨i, -, h⟩ | ⟨e, -, h⟩ := s.runWord_eq w
  · exact h ▸ exec_faultsOnly i s
  · exact h ▸ .next _

theorem State.liveTick_faultsOnly (s : State) : FaultsOnly s s.liveTick := by
  have hcfg := s.writeBack_cfg
  unfold State.liveTick
  simp only
  split
  · exact .fatal (hcfg ▸ s.writeBack.fetchStage_refusesOnly.invalid ‹_›)
  · split
    · exact .fatal (hcfg ▸ (s.writeBack.memoryStage_refusesOnly _).invalid ‹_›)
    · exact .next _

/-! ## The step -/

theorem tick_of_live {s : State} (h : s.status = .notHalted) : tick s = s.liveTick := by
  simp [tick, h]

theorem instructionStep_faultsOnly {s : State} (h : s.status = .notHalted) : FaultsOnly s (instructionStep s) := by
  unfold instructionStep
  rw [h]
  simp only
  split
  · exact .fatal (s.fetchWhole_refusesOnly.invalid ‹_›)
  · rename_i w s' hf
    obtain ⟨bs, p, -, -, rfl⟩ := State.fetchWhole_ok hf
    exact ⟨((s.withFetch p).runWord_faultsOnly w).fatal_of⟩

theorem step_faultsOnly {s : State} (h : s.status = .notHalted) : FaultsOnly s (step s) := by
  unfold step
  split
  · split
    · exact tick_of_live h ▸ s.liveTick_faultsOnly
    · exact instructionStep_faultsOnly h
  · exact .refused _

/-- A step that faults is a step of a live core (R255). -/
theorem live_of_step_fault {s : State} {f : Fault} (h : step s = .fault f) : s.status = .notHalted := by
  by_contra hs
  by_cases hc : s.cfg.wellFormed = true
  · rw [(stoppedCoreIgnoresSteps s hc hs).1] at h
    cases h
  · simp [step, hc] at h

/-- Settles O36: a fault is the first refusal of the calls that the step makes. -/
theorem faultsOnlyWhereTheStoreRefuses : Obligations.FaultsOnlyWhereTheStoreRefuses := by
  intro s a c h
  have hlive := live_of_step_fault h
  obtain ⟨ha, hc⟩ := (step_faultsOnly hlive).fatal_of h
  exact ⟨ha, hc, hlive⟩

end Sys2Proof.Machine
end

section
/-! PROOF. What one access of a cache counts, when it hits, and which bytes of the store it can change (R76 to R79, R82): the facts
that the statements about the tick's two cache accesses share. -/

namespace Sys2Proof.Machine

/-! ## The counters (R82) -/

/-- The two counters of R82 together. -/
def Cache.counters (c : Cache) : Nat × Nat := (c.hits, c.misses)

theorem Cache.count_total (c : Cache) (first : Bool) (st : AccessStatus) :
    (c.count first st).hits + (c.count first st).misses = c.hits + c.misses + if first then 1 else 0 := by
  cases first with
  | false => cases st <;> rfl
  | true =>
    cases st with
    | hit => exact Nat.add_right_comm ..
    | miss => rfl

@[simp] theorem Cache.putByte_counters (g : CacheConfig) (c : Cache) (a : Word) (b : Byte) :
    (c.putByte g a b).counters = c.counters := by
  unfold Cache.putByte
  split <;> rfl

section Counters
variable {e : CacheEnv} {a : Word} {p q : CacheStore}

theorem missProc_counters (h : missProc e a p = .ok q) : q.cache.counters = p.cache.counters := by
  obtain ⟨m, block, -, -, rfl⟩ := missProc_ok h
  rfl

theorem touch_counters (h : touch e a p = .ok q) : q.cache.counters = p.cache.counters := by
  obtain ⟨w, -, rfl⟩ | ⟨-, h⟩ := touch_ok h
  · rfl
  · exact missProc_counters h

theorem ensure_counters (h : ensure e a p = .ok q) : q.cache.counters = p.cache.counters := by
  obtain ⟨-, rfl⟩ | ⟨-, h⟩ := ensure_ok h
  · rfl
  · exact missProc_counters h

theorem readLoop_counters {n : Nat} {bs : List Byte} (h : readLoop e n a p = .ok (bs, q)) :
    q.cache.counters = p.cache.counters := by
  induction n generalizing a p bs with
  | zero =>
    cases h
    rfl
  | succ n ih =>
    obtain ⟨p₁, rest, ht, hr, -⟩ := readLoop_succ_ok h
    exact (ih hr).trans (touch_counters ht)

theorem writeLoop_counters {st : AccessStatus} {bs : List Byte} (h : writeLoop e st bs a p = .ok q) :
    q.cache.counters = p.cache.counters := by
  induction bs generalizing a p with
  | nil =>
    cases h
    rfl
  | cons b bs ih =>
    obtain ⟨p₁, hp, hw⟩ := writeLoop_cons_ok h
    have hp₁ : p₁.cache.counters = p.cache.counters := by
      split at hp
      · exact touch_counters hp
      · exact ensure_counters hp
    rw [ih hw, Cache.putByte_counters, hp₁]

/-- A read counts once, by its status (R78, R82). -/
theorem Cache.read_counters {n : Nat} {first : Bool} {r : ReadResult} (h : Cache.read e a n first p = .ok r) :
    r.store.cache.counters = (p.cache.count first (if r.value.isSome then .hit else .miss)).counters := by
  obtain ⟨-, rfl⟩ | ⟨-, hv, hp⟩ | ⟨-, bs, hv, hp⟩ := Cache.read_ok h
  · rfl
  · rw [missProc_counters hp, hv]
    rfl
  · rw [readLoop_counters hp, hv]
    rfl

/-- A write counts once, by its status (R79, R82). -/
theorem Cache.write_counters {bs : List Byte} {first : Bool} {r : WriteResult} (h : Cache.write e a bs first p = .ok r) :
    r.store.cache.counters = (p.cache.count first r.status).counters := by
  obtain ⟨-, rfl⟩ | ⟨-, hs, p₁, hp, hw⟩ | ⟨-, hs, hw⟩ := Cache.write_ok h
  · rfl
  · rw [writeLoop_counters hw, missProc_counters hp, hs]
  · rw [writeLoop_counters hw, hs]

end Counters

theorem Cache.total_of_counters {c c' : Cache} {first : Bool} {st : AccessStatus} (h : c'.counters = (c.count first st).counters) :
    c'.hits + c'.misses = c.hits + c.misses + if first then 1 else 0 := by
  obtain ⟨hh, hm⟩ := Prod.mk.inj h
  rw [hh, hm, Cache.count_total]

/-! ## When an access hits (R77) -/

theorem firstByte_eq_ready_iff {e : CacheEnv} {c : Cache} {a : Word} :
    firstByte e c a = .ready ↔ c.holdsReady e.cfg e.cycle a := by
  unfold firstByte Cache.holdsReady
  cases c.find e.cfg a with
  | none => simp
  | some w => simp

theorem firstByte_eq_absent_iff {e : CacheEnv} {c : Cache} {a : Word} : firstByte e c a = .absent ↔ c.find e.cfg a = none := by
  unfold firstByte
  cases c.find e.cfg a with
  | none => simp
  | some w =>
    simp only [reduceCtorEq, iff_false]
    split <;> simp

theorem Cache.read_hits_iff {e : CacheEnv} {a : Word} {n : Nat} {first : Bool} {p : CacheStore} {r : ReadResult}
    (h : Cache.read e a n first p = .ok r) : r.value.isSome = true ↔ p.cache.holdsReady e.cfg e.cycle a := by
  rw [← firstByte_eq_ready_iff]
  obtain ⟨hf, rfl⟩ | ⟨hf, hv, -⟩ | ⟨hf, bs, hv, -⟩ := Cache.read_ok h
  · simp [hf]
  · simp [hf, hv]
  · simp [hf, hv]

theorem Cache.write_hits_iff {e : CacheEnv} {a : Word} {bs : List Byte} {first : Bool} {p : CacheStore} {r : WriteResult}
    (h : Cache.write e a bs first p = .ok r) : r.status = .hit ↔ p.cache.holdsReady e.cfg e.cycle a := by
  rw [← firstByte_eq_ready_iff]
  obtain ⟨hf, rfl⟩ | ⟨hf, hv, -⟩ | ⟨hf, hv, -⟩ := Cache.write_ok h
  · simp [hf]
  · simp [hf, hv]
  · simp [hf, hv]

/-! ## A byte that the store holds up to date stays so (R62, R76) -/

/-- A valid line shows its byte (R56, R83). -/
theorem CacheStore.Sound.line_byte {g : CacheConfig} {p : CacheStore} (h : p.Sound g) {x : Word} {w : Nat}
    (hw : w < (p.cache.set (g.index x)).length) (hv : (p.cache.line (g.index x) w).valid = true)
    (ht : g.tag x = (p.cache.line (g.index x) w).tag) :
    (p.cache.line (g.index x) w).data.getD (g.offset x) 0 = seenByte g p x :=
  (seenByte_of_find (Cache.find_eq_some h.valid h.cache hw hv ht.symm)).symm

/-- The cache over the store shows `v` at `x`, and the store holds it. -/
structure CacheStore.Current (g : CacheConfig) (p : CacheStore) (x : Word) (v : Byte) : Prop where
  seen : seenByte g p x = v
  stored : readByte p.mem x.toNat = v

theorem CacheStore.Current.count {g : CacheConfig} {p : CacheStore} {x : Word} {v : Byte} (h : p.Current g x v) (first : Bool)
    (st : AccessStatus) : CacheStore.Current g { p with cache := p.cache.count first st } x v :=
  ⟨(seenByte_count ..).trans h.seen, h.stored⟩

section Current
variable {e : CacheEnv} {a x : Word} {v : Byte} {p q : CacheStore}

/-- A write-back stores what the cache shows (R76). -/
theorem missProc_current (hp : p.Sound e.cfg) (hf : p.cache.find e.cfg a = none) (h : missProc e a p = .ok q)
    (hx : p.Current e.cfg x v) : q.Current e.cfg x v := by
  obtain ⟨-, -, hseen⟩ := missProc_sound hp hf h
  refine ⟨(hseen x).trans hx.seen, ?_⟩
  obtain ⟨_, rfl, hw, -⟩ := missProc_lines hp.valid hp.cache hf h
  obtain ⟨m, block, hm, -, rfl⟩ := missProc_ok h
  rw [(hp.writeBack_byte (Cache.index_lt_sets hp.valid hp.cache a) hw hm).2 x]
  split
  · rename_i hline
    obtain ⟨hv, -, ht, hi⟩ := hline
    rw [← hi] at hw hv ht ⊢
    rw [hp.line_byte hw hv ht, hx.seen]
  · exact hx.stored

theorem touch_current (hp : p.Sound e.cfg) (h : touch e a p = .ok q) (hx : p.Current e.cfg x v) : q.Current e.cfg x v := by
  obtain ⟨w, -, rfl⟩ | ⟨hf, hm⟩ := touch_ok h
  · exact ⟨((touch_sound hp h).2.2 x).trans hx.seen, hx.stored⟩
  · exact missProc_current hp hf hm hx

theorem ensure_current (hp : p.Sound e.cfg) (h : ensure e a p = .ok q) (hx : p.Current e.cfg x v) : q.Current e.cfg x v := by
  obtain ⟨-, rfl⟩ | ⟨hf, hm⟩ := ensure_ok h
  · exact hx
  · exact missProc_current hp hf hm hx

theorem readLoop_current {n : Nat} {bs : List Byte} (hp : p.Sound e.cfg) (h : readLoop e n a p = .ok (bs, q))
    (hx : p.Current e.cfg x v) : q.Current e.cfg x v := by
  induction n generalizing a p bs with
  | zero =>
    cases h
    exact hx
  | succ n ih =>
    obtain ⟨p₁, rest, ht, hr, -⟩ := readLoop_succ_ok h
    exact ih (touch_sound hp ht).1 hr (touch_current hp ht hx)

/-- Writing bytes, of which any at `x` is `v`. -/
theorem writeLoop_current {st : AccessStatus} {bs : List Byte} (hp : p.Sound e.cfg) (h : writeLoop e st bs a p = .ok q)
    (hbs : ∀ k (hk : k < bs.length), x = a + BitVec.ofNat 32 k → bs[k] = v) (hx : p.Current e.cfg x v) :
    q.Current e.cfg x v := by
  induction bs generalizing a p with
  | nil =>
    cases h
    exact hx
  | cons b bs ih =>
    obtain ⟨p₁, hp₁, hw⟩ := writeLoop_cons_ok h
    obtain ⟨hs₁, ⟨w, hfind⟩, hx₁⟩ : p₁.Sound e.cfg ∧ (∃ w, p₁.cache.find e.cfg a = some w) ∧ p₁.Current e.cfg x v := by
      split at hp₁
      · obtain ⟨hs, hf, -⟩ := touch_sound hp hp₁
        exact ⟨hs, hf, touch_current hp hp₁ hx⟩
      · obtain ⟨hs, hf, -⟩ := ensure_sound hp hp₁
        exact ⟨hs, hf, ensure_current hp hp₁ hx⟩
    obtain ⟨hs₂, hput⟩ := putByte_sound hs₁ hfind b
    refine ih hs₂ hw (fun k hk hxk => ?_) ⟨?_, hx₁.stored⟩
    · refine hbs (k + 1) (Nat.succ_lt_succ hk) ?_
      rw [hxk, BitVec.add_assoc, Nat.add_comm, BitVec.ofNat_add]
      rfl
    · rw [hput x]
      split
      · rename_i hxa
        exact hbs 0 (Nat.zero_lt_succ _) (by simpa using hxa)
      · exact hx₁.seen

theorem Cache.read_current {n : Nat} {first : Bool} {r : ReadResult} (hp : p.Sound e.cfg)
    (h : Cache.read e a n first p = .ok r) (hx : p.Current e.cfg x v) : r.store.Current e.cfg x v := by
  obtain ⟨-, rfl⟩ | ⟨hf, -, hm⟩ | ⟨-, bs, -, hr⟩ := Cache.read_ok h
  · exact hx.count first .miss
  · refine missProc_current (hp.count first .miss) ?_ hm (hx.count first .miss)
    exact (Cache.find_congr (Cache.count_sets ..) ..).trans (firstByte_eq_absent_iff.1 hf)
  · exact readLoop_current (hp.count first .hit) hr (hx.count first .hit)

/-- A write that leaves the byte seen at `x` as it was leaves it in the store (R57, R79). -/
theorem Cache.write_current {bs : List Byte} {first : Bool} {r : WriteResult} (hp : p.Sound e.cfg) (hlen : bs.length ≤ 2 ^ 32)
    (h : Cache.write e a bs first p = .ok r) (hx : p.Current e.cfg x v) (hv : seenByte e.cfg r.store x = v) :
    r.store.Current e.cfg x v := by
  have hbs (hf : firstByte e p.cache a ≠ .pending) : ∀ k (hk : k < bs.length), x = a + BitVec.ofNat 32 k → bs[k] = v := by
    obtain ⟨-, ⟨hpend, -⟩ | ⟨-, -, hnew⟩⟩ := Cache.write_sound hp h
    · exact absurd hpend hf
    · rintro k hk rfl
      exact (hnew hlen k hk).symm.trans hv
  obtain ⟨-, rfl⟩ | ⟨hf, -, p₁, hm, hw⟩ | ⟨hf, -, hw⟩ := Cache.write_ok h
  · exact hx.count first .miss
  · have hp' := hp.count first .miss
    have hnone := (Cache.find_congr (Cache.count_sets p.cache first .miss) e.cfg a).trans (firstByte_eq_absent_iff.1 hf)
    exact writeLoop_current (missProc_sound hp' hnone hm).1 hw (hbs (by simp [hf]))
      (missProc_current hp' hnone hm (hx.count first .miss))
  · exact writeLoop_current (hp.count first .hit) hw (hbs (by simp [hf])) (hx.count first .hit)

end Current

end Sys2Proof.Machine
end

section
/-! PROOF. O48 and O49: the two cache accesses of a tick, by its fetch stage and by its memory stage (R240, R245). -/

namespace Sys2Proof.Machine

/-! ## What the stages of a tick run over -/

@[simp] theorem State.writeBack_icEnv (s : State) : s.writeBack.icEnv = s.icEnv := by simp [State.icEnv]
@[simp] theorem State.writeBack_dcEnv (s : State) : s.writeBack.dcEnv = s.dcEnv := by simp [State.dcEnv]
@[simp] theorem State.writeBack_fetchSide (s : State) : s.writeBack.fetchSide = s.fetchSide := by simp [State.fetchSide]

/-- The fetch stage reads no register. -/
@[simp] theorem State.writeBack_fetchStage (s : State) : s.writeBack.fetchStage = s.fetchStage := by simp [State.fetchStage]

/-- What a fetch through an `IC` that holds what the store holds sees and delivers (R59, R64, R78). -/
theorem State.wf.fetchStage_reads {s : State} {f : FetchResult} (h : s.wf) (hco : s.codeCoherent) (hf : s.fetchStage = .ok f) :
    (∀ a, seenByte s.cfg.icfg f.side a = s.fetchByte a) ∧
      ∀ w, f.word = some w → w = valueOfBytes ((byteAddresses 4 s.pc).map s.fetchByte) := by
  obtain ⟨-, rfl⟩ | ⟨-, r, hr, rfl⟩ := State.fetchStage_ok hf
  · exact ⟨fun a => rfl, fun w hw => by cases hw⟩
  · obtain ⟨-, hseen, hbytes⟩ := Cache.read_sound (h.fetch hco) hr
    refine ⟨hseen, fun w hw => ?_⟩
    obtain ⟨bs, hbs, rfl⟩ := Option.map_eq_some_iff.1 hw
    rw [hbytes bs hbs]
    rfl

section MemoryStage
variable {s : State} {mem : Memory} {m : MemResult} {i : Instr} {sz : AccessSize} {rt rs : RegNum} {imm : BitVec 16}

theorem State.memoryStage_load (hm : s.memoryStage mem = .ok m) (ho : opOf s.cfg.haltWord s.exmem.word = some i)
    (hi : memAccess i = .load sz rs imm) :
    ∃ r, Cache.read s.dcEnv (effectiveAddress (s.memOperand rs) imm) sz.bytes (!s.memWait) ⟨s.dc, mem⟩ = .ok r ∧
      m = ⟨r.store, r.value.map valueOfBytes, r.value.isNone⟩ := by
  simp only [State.memoryStage, ho, Option.map_some, hi] at hm
  split at hm
  · cases hm
  · rename_i r hr
    exact ⟨r, hr, (Except.ok.inj hm).symm⟩

theorem State.memoryStage_store (hm : s.memoryStage mem = .ok m) (ho : opOf s.cfg.haltWord s.exmem.word = some i)
    (hi : memAccess i = .store sz rt rs imm) :
    ∃ r, Cache.write s.dcEnv (effectiveAddress (s.memOperand rs) imm) (bytesOfValue sz.bytes (s.memOperand rt)) (!s.memWait)
        ⟨s.dc, mem⟩ = .ok r ∧ m = ⟨r.store, none, decide (r.status = .miss)⟩ := by
  simp only [State.memoryStage, ho, Option.map_some, hi] at hm
  split at hm
  · cases hm
  · rename_i r hr
    exact ⟨r, hr, (Except.ok.inj hm).symm⟩

theorem State.memoryStage_pass (hm : s.memoryStage mem = .ok m)
    (hi : ∀ i, opOf s.cfg.haltWord s.exmem.word = some i → memAccess i = .none) :
    m = ⟨⟨s.dc, mem⟩, s.exmem.wval, false⟩ := by
  unfold State.memoryStage at hm
  cases ho : opOf s.cfg.haltWord s.exmem.word with
  | none =>
    rw [ho] at hm
    exact (Except.ok.inj hm).symm
  | some i =>
    rw [ho, Option.map_some, hi i ho] at hm
    exact (Except.ok.inj hm).symm

/-- A byte that the memory stage leaves as it was in data memory, and that the store held up to date, the store still holds (R62,
R245). -/
theorem State.memoryStage_current {x : Word} {v : Byte} (h : CacheStore.Sound s.cfg.dcfg ⟨s.dc, mem⟩)
    (hm : s.memoryStage mem = .ok m) (hx : CacheStore.Current s.cfg.dcfg ⟨s.dc, mem⟩ x v)
    (hv : seenByte s.cfg.dcfg m.side x = v) : m.side.Current s.cfg.dcfg x v := by
  obtain ⟨i, sz, rs, imm, r, -, -, hr, rfl⟩ | ⟨i, sz, rt, rs, imm, r, -, -, hr, rfl⟩ | ⟨-, rfl⟩ := State.memoryStage_ok hm
  · exact Cache.read_current (e := s.dcEnv) h hr hx
  · have hlen : sz.bytes ≤ 2 ^ 32 := by cases sz <;> decide
    exact Cache.write_current (e := s.dcEnv) h (by simpa using hlen) hr hx hv
  · exact hx

end MemoryStage

/-! ## What a tick leaves of the caches and the store -/

namespace Ticked
variable {s t : State} {f : FetchResult} {m : MemResult}

theorem ic_eq (h : Ticked s t f m) : t.ic = f.side.cache := by simp [h.eq_commit]
theorem dc_eq (h : Ticked s t f m) : t.dc = m.side.cache := by simp [h.eq_commit]
theorem mem_eq (h : Ticked s t f m) : t.mem = m.side.mem := by simp [h.eq_commit]
theorem cfg_eq (h : Ticked s t f m) : t.cfg = s.cfg := by simp [h.eq_commit]

theorem fetchStage_eq (h : Ticked s t f m) : s.fetchStage = .ok f := by simpa using h.fetch

/-- The fetch of a tick leaves the store as it was, and the memory stage runs over it (R68). -/
theorem fetch_mem (h : Ticked s t f m) (hs : s.wf) : f.side.mem = s.mem := (hs.fetchStage_fetched h.fetchStage_eq).mem

theorem memoryStage_eq (h : Ticked s t f m) (hs : s.wf) : s.writeBack.memoryStage s.mem = .ok m := h.fetch_mem hs ▸ h.memory

theorem dataByte_eq (h : Ticked s t f m) (a : Word) : t.dataByte a = seenByte s.cfg.dcfg m.side a := by
  simp [State.dataByte, State.dataSide, h.cfg_eq, h.dc_eq, h.mem_eq]

theorem fetchByte_eq (h : Ticked s t f m) (a : Word) :
    t.fetchByte a = seenByte s.cfg.icfg ⟨f.side.cache, m.side.mem⟩ a := by
  simp [State.fetchByte, State.fetchSide, h.cfg_eq, h.ic_eq, h.mem_eq]

/-! ## O48: the fetch -/

/-- The store has the byte after the tick that it had before, when it held the byte up to date and the tick leaves it (R62). -/
theorem readByte_of_same_dataByte (h : Ticked s t f m) (hs : s.wf) {a : Word} (hcur : s.dataByte a = readByte s.mem a.toNat)
    (hsame : t.dataByte a = s.dataByte a) : readByte m.side.mem a.toNat = readByte s.mem a.toNat := by
  have hsound : CacheStore.Sound s.writeBack.cfg.dcfg ⟨s.writeBack.dc, s.mem⟩ := by
    simpa [State.dataSide] using hs.data
  have hx : CacheStore.Current s.writeBack.cfg.dcfg ⟨s.writeBack.dc, s.mem⟩ a (readByte s.mem a.toNat) := by
    simpa using ⟨hcur, rfl⟩
  refine (State.memoryStage_current hsound (h.memoryStage_eq hs) hx ?_).stored
  rw [State.writeBack_cfg, ← h.dataByte_eq, hsame, hcur]

/-- Code that the tick does not store to is seen by fetches as before (R64). -/
theorem fetchByte_same (h : Ticked s t f m) (hs : s.wf) (hco : s.codeCoherent) {a : Word}
    (hcur : s.dataByte a = readByte s.mem a.toNat) (hsame : t.dataByte a = s.dataByte a) : t.fetchByte a = s.fetchByte a := by
  calc t.fetchByte a = seenByte s.cfg.icfg ⟨f.side.cache, m.side.mem⟩ a := h.fetchByte_eq a
    _ = seenByte s.cfg.icfg f.side a := by
      simp only [seenByte, h.readByte_of_same_dataByte hs hcur hsame, h.fetch_mem hs]
    _ = s.fetchByte a := (hs.fetchStage_reads hco h.fetchStage_eq).1 a

end Ticked

/-- Settles O48: the fetch stage is one read of `IC`, or none; its bytes are those fetches see. -/
theorem fetchStopsAtTheSentinel : Obligations.FetchStopsAtTheSentinel := by
  intro s t f m h
  refine ⟨fun hh => ?_, fun hh => ?_, fun hs hco => ⟨fun w hw => ?_, fun a => h.fetchByte_same hs hco⟩⟩
  · obtain ⟨-, rfl⟩ | ⟨hh', -⟩ := State.fetchStage_ok h.fetchStage_eq
    · exact ⟨rfl, rfl, h.ic_eq⟩
    · cases hh.symm.trans hh'
  · obtain ⟨hh', -⟩ | ⟨-, r, hr, rfl⟩ := State.fetchStage_ok h.fetchStage_eq
    · cases hh.symm.trans hh'
    · refine ⟨rfl, ?_, ?_, r, hr, h.ic_eq⟩
      · rw [h.ic_eq, Cache.total_of_counters (Cache.read_counters hr)]
        cases s.ifWait <;> rfl
      · simpa [State.icEnv, State.fetchSide] using Cache.read_hits_iff hr
  · rw [← valueOfBytes_codeBytes]
    exact (hs.fetchStage_reads hco h.fetchStage_eq).2 w hw

/-! ## O49: the data access -/

theorem memAccess_of_loadsBytes {i : Instr} {n : Nat} {rs : RegNum} {imm : BitVec 16} (h : loadsBytes i n rs imm) :
    ∃ sz, n = sz.bytes ∧ memAccess i = .load sz rs imm := by
  obtain ⟨rt, ⟨rfl, rfl⟩ | ⟨rfl, rfl⟩ | ⟨rfl, rfl⟩⟩ := h
  · exact ⟨.word, rfl, rfl⟩
  · exact ⟨.half, rfl, rfl⟩
  · exact ⟨.byte, rfl, rfl⟩

theorem memAccess_of_storesBytes {i : Instr} {n : Nat} {rt rs : RegNum} {imm : BitVec 16} (h : storesBytes i n rt rs imm) :
    ∃ sz, n = sz.bytes ∧ memAccess i = .store sz rt rs imm := by
  obtain ⟨rfl, rfl⟩ | ⟨rfl, rfl⟩ | ⟨rfl, rfl⟩ := h
  · exact ⟨.word, rfl, rfl⟩
  · exact ⟨.half, rfl, rfl⟩
  · exact ⟨.byte, rfl, rfl⟩

/-- An instruction that is neither load nor store accesses no data (R245). -/
theorem memAccess_of_not_accesses {i : Instr} (h : ¬ accesses i) : memAccess i = .none := by
  cases i with
  | lw | lbu | lhu => exact absurd (by simp [accesses, loadsBytes]) h
  | sb | sh | sw => exact absurd (by simp [accesses, storesBytes]) h
  | _ => rfl

namespace Ticked
variable {s t : State} {f : FetchResult} {m : MemResult} {i : Instr} {sz : AccessSize} {rt rs : RegNum} {imm : BitVec 16}

/-- Nothing accessed: the value of `EXMEM` passes (R245). -/
theorem memory_pass (h : Ticked s t f m) (hs : s.wf)
    (hi : ∀ i, opOf s.cfg.haltWord s.exmem.word = some i → memAccess i = .none) :
    m = ⟨s.dataSide, s.exmem.wval, false⟩ := by
  simpa [State.dataSide] using State.memoryStage_pass (h.memoryStage_eq hs) (by simpa using hi)

/-- A load is one read of `DC` (R245). -/
theorem memory_load (h : Ticked s t f m) (hs : s.wf) (ho : opOf s.cfg.haltWord s.exmem.word = some i)
    (hi : memAccess i = .load sz rs imm) :
    ∃ r, Cache.read s.dcEnv (effectiveAddress (s.writeBack.memOperand rs) imm) sz.bytes (!s.memWait) s.dataSide = .ok r ∧
      m = ⟨r.store, r.value.map valueOfBytes, r.value.isNone⟩ := by
  simpa [State.dataSide] using State.memoryStage_load (h.memoryStage_eq hs) (by simpa using ho) hi

/-- A store is one write of `DC` (R245). -/
theorem memory_store (h : Ticked s t f m) (hs : s.wf) (ho : opOf s.cfg.haltWord s.exmem.word = some i)
    (hi : memAccess i = .store sz rt rs imm) :
    ∃ r, Cache.write s.dcEnv (effectiveAddress (s.writeBack.memOperand rs) imm)
        (bytesOfValue sz.bytes (s.writeBack.memOperand rt)) (!s.memWait) s.dataSide = .ok r ∧
      m = ⟨r.store, none, decide (r.status = .miss)⟩ := by
  simpa [State.dataSide] using State.memoryStage_store (h.memoryStage_eq hs) (by simpa using ho) hi

/-- The bytes that a load of a tick gives (R54, R56). -/
theorem load_result (hs : s.wf) {a : Word} {n : Nat} {first : Bool} {r : ReadResult}
    (hr : Cache.read s.dcEnv a n first s.dataSide = .ok r) (hv : r.value.isNone = false) :
    r.value.map valueOfBytes = some (BitVec.ofNat 32 (bigEndian s a n)) := by
  obtain ⟨bs, hbs⟩ := Option.isSome_iff_exists.1 (Option.isNone_eq_false_iff.1 hv)
  obtain ⟨-, -, hbytes⟩ := Cache.read_sound (e := s.dcEnv) hs.data hr
  rw [hbs, Option.map_some, hbytes bs hbs]
  exact congrArg some (valueOfBytes_dataBytes s a n)

/-- What a store of a tick does to data memory (R57, R79). -/
theorem store_bytes (h : Ticked s t f m) (hs : s.wf) {a v : Word} {n : Nat} (hn : n ≤ 2 ^ 32) {first : Bool} {r : WriteResult}
    (hr : Cache.write s.dcEnv a (bytesOfValue n v) first s.dataSide = .ok r) (hm : m.side = r.store) :
    (firstByte s.dcEnv s.dc a ≠ .pending → ∀ k < n, t.dataByte (a + BitVec.ofNat 32 k) = v.extractLsb' (8 * (n - 1 - k)) 8) ∧
      ∀ x, (∀ k < n, x ≠ a + BitVec.ofNat 32 k) → t.dataByte x = s.dataByte x := by
  simp only [h.dataByte_eq, hm]
  obtain ⟨-, ⟨hpend, hseen⟩ | ⟨-, hother, hnew⟩⟩ := Cache.write_sound (e := s.dcEnv) hs.data hr
  · exact ⟨fun hf => absurd hpend hf, fun x _ => hseen x⟩
  · refine ⟨fun _ k hk => ?_, fun x hx => hother x (by simpa using hx)⟩
    exact (hnew (by simpa using hn) k (by simpa using hk)).trans (bytesOfValue_getElem _)

end Ticked

/-- Settles O49: by the access of the instruction in `EXMEM`; a load and a store are one read and one write of `DC`. -/
theorem tickMemoryStage : Obligations.TickMemoryStage := by
  intro s t f m hs h
  refine ⟨fun hno => ?_, fun i n rs imm ho hi => ?_, fun i n rt rs imm ho hi => ?_⟩
  · obtain rfl := h.memory_pass hs fun i ho => memAccess_of_not_accesses (hno i ho)
    exact ⟨rfl, rfl, h.dc_eq, h.mem_eq⟩
  · obtain ⟨sz, rfl, hacc⟩ := memAccess_of_loadsBytes hi
    obtain ⟨r, hr, rfl⟩ := h.memory_load hs ho hacc
    obtain ⟨-, hseen, -⟩ := Cache.read_sound (e := s.dcEnv) hs.data hr
    refine ⟨Option.isNone_eq_false_iff.trans (Cache.read_hits_iff hr), fun a => (h.dataByte_eq a).trans (hseen a),
      ⟨r, hr, h.dc_eq, h.mem_eq⟩, ?_, Ticked.load_result hs hr⟩
    rw [h.dc_eq, Cache.total_of_counters (Cache.read_counters hr)]
    cases s.memWait <;> rfl
  · obtain ⟨sz, rfl, hacc⟩ := memAccess_of_storesBytes hi
    obtain ⟨r, hr, rfl⟩ := h.memory_store hs ho hacc
    have hlen : sz.bytes ≤ 2 ^ 32 := by cases sz <;> decide
    have hhit : decide (r.status = .miss) = false ↔ r.status = .hit := by
      cases r.status <;> simp
    obtain ⟨hbytes, hother⟩ := h.store_bytes hs hlen hr rfl
    refine ⟨hhit.trans (Cache.write_hits_iff hr), ⟨r, hr, h.dc_eq, h.mem_eq⟩, ?_, rfl, fun hgo => hbytes ?_, hother⟩
    · rw [h.dc_eq, Cache.total_of_counters (Cache.write_counters hr)]
      cases s.memWait <;> rfl
    · obtain hgo | habs := hgo
      · have hready := firstByte_eq_ready_iff.2 ((Cache.write_hits_iff hr).1 (hhit.1 hgo))
        exact fun hp => by cases hp.symm.trans hready
      · have habsent := firstByte_eq_absent_iff (e := s.dcEnv).2 habs
        exact fun hp => by cases hp.symm.trans habsent

end Sys2Proof.Machine
end

section
/-! PROOF. O58: after the drains of `finalize` the store holds the data memory (R62, R84, R316). -/

namespace Sys2Proof.Machine

/-! ## A cache with its lines cleaned -/

/-- The cache after a drain (R84). -/
def Cache.drained (c : Cache) : Cache := { c with sets := c.sets.map (List.map CacheLine.drained) }

@[simp] theorem Cache.drained_set (c : Cache) (s : Nat) : c.drained.set s = (c.set s).map CacheLine.drained := by
  simp only [Cache.drained, Cache.set, List.getD_eq_getElem?_getD, List.getElem?_map]
  cases c.sets[s]? <;> rfl

@[simp] theorem Cache.drained_line (c : Cache) (s w : Nat) : c.drained.line s w = (c.line s w).drained := by
  simp only [Cache.line, Cache.drained_set, List.getD_eq_getElem?_getD, List.getElem?_map]
  cases (c.set s)[w]? <;> rfl

theorem CacheLine.drained_of_clean {l : CacheLine} (h : l.dirty = false) : l.drained = l := by
  obtain ⟨valid, dirty, tag, lru, readyAt, data⟩ := l
  obtain rfl : dirty = false := h
  rfl

theorem Cache.drained_byte? (g : CacheConfig) (c : Cache) (a : Word) : c.drained.byte? g a = c.byte? g a :=
  Cache.byte?_of_same_lines (by simp) (by simp) a

/-- A drain keeps the invariants of R83. -/
theorem Cache.drained_wf {g : CacheConfig} {c : Cache} (h : c.wf g) : c.drained.wf g := by
  obtain ⟨hlen, hsets⟩ := h
  refine ⟨by simpa [Cache.drained] using hlen, fun ls hls => ?_⟩
  obtain ⟨ls, hmem, rfl⟩ := List.mem_map.1 hls
  obtain ⟨hways, hlines, hsep⟩ := hsets ls hmem
  refine ⟨by simpa using hways, fun l hl => ?_, List.pairwise_map.2 hsep⟩
  obtain ⟨l, hmem, rfl⟩ := List.mem_map.1 hl
  exact hlines l hmem

/-! ## What a drain does -/

/-- Draining clean lines does nothing (R84). -/
theorem drainWays_of_clean (e : CacheEnv) (s : Nat) {ls : List CacheLine} (h : ∀ l ∈ ls, l.dirty = false) (m : Memory) :
    drainWays e s ls m = .ok (ls, m) := by
  induction ls with
  | nil => rfl
  | cons l ls ih =>
    rw [List.forall_mem_cons] at h
    have hline : ({ l with dirty := l.dirty && !l.valid } : CacheLine) = l := CacheLine.drained_of_clean h.1
    have hwrite : writeBackLine e s l m = .ok m := by simp [writeBackLine, h.1]
    simp only [drainWays, hwrite, ih h.2, hline]

theorem drainSets_of_clean (e : CacheEnv) (s : Nat) {sets : List (List CacheLine)} (h : ∀ ls ∈ sets, ∀ l ∈ ls, l.dirty = false)
    (m : Memory) : drainSets e s sets m = .ok (sets, m) := by
  induction sets generalizing s with
  | nil => rfl
  | cons ls sets ih =>
    rw [List.forall_mem_cons] at h
    simp [drainSets, drainWays_of_clean e s h.1, ih (s + 1) h.2]

/-- Draining a cache that is never written does nothing (R83, R84). -/
theorem Cache.drain_of_clean (e : CacheEnv) {p : CacheStore} (h : p.cache.clean) : Cache.drain e p = .ok p := by
  simp [Cache.drain, drainSets_of_clean e 0 h]

theorem Cache.getElem_sets (c : Cache) {s : Nat} (h : s < c.sets.length) : c.sets[s] = c.set s :=
  (List.getD_eq_getElem _ _ h).symm

/-- Every valid line that holds an address shows its byte (R56, R83). -/
theorem CacheStore.Sound.mem_line_byte {g : CacheConfig} {p : CacheStore} (h : p.Sound g) {x : Word} {l : CacheLine}
    (hl : l ∈ p.cache.set (g.index x)) (hv : l.valid = true) (ht : g.tag x = l.tag) :
    l.data.getD (g.offset x) 0 = seenByte g p x := by
  obtain ⟨w, hw, rfl⟩ := List.getElem_of_mem hl
  rw [← p.cache.line_eq_getElem hw] at hv ht ⊢
  exact h.line_byte hw hv ht

/-- A byte seen is in the store, or in a valid dirty line (R62). -/
theorem CacheStore.Sound.stored_or_dirty {g : CacheConfig} {p : CacheStore} (h : p.Sound g) (x : Word) :
    readByte p.mem x.toNat = seenByte g p x ∨
      ∃ l ∈ p.cache.set (g.index x), l.valid = true ∧ l.dirty = true ∧ g.tag x = l.tag := by
  cases hf : p.cache.find g x with
  | none => exact .inl (seenByte_of_absent hf).symm
  | some w =>
    obtain ⟨hw, hv, ht⟩ := Cache.find_some hf
    cases hd : (p.cache.line (g.index x) w).dirty with
    | false => exact .inl ((seenByte_of_find hf).trans (h.clean_byte hf hd)).symm
    | true => exact .inr ⟨_, p.cache.line_mem hw, hv, hd, ht.symm⟩

/-- A drain cleans the lines, and the store then holds every byte that was seen (R62, R84). -/
theorem CacheStore.Sound.drain {e : CacheEnv} {p q : CacheStore} (h : p.Sound e.cfg) (hd : Cache.drain e p = .ok q) :
    q.cache = p.cache.drained ∧ ∀ x : Word, readByte q.mem x.toNat = seenByte e.cfg p x := by
  obtain ⟨sets, hs, hq⟩ := Cache.drain_ok hd
  have hsets : 0 + p.cache.sets.length ≤ 2 ^ e.cfg.indexBits := by
    rw [h.cache.1, ((CacheConfig.valid_iff e.cfg).1 h.valid).2.2.2.1]
    omega
  obtain ⟨rfl, hstore⟩ := drainSets_ok h.valid hsets h.mem (fun ls hls l hl => ((h.cache.2 ls hls).2.1 l hl).1) hs
  refine ⟨hq, fun x => hstore x _ (fun k hk l hl hv _ ht hi => ?_) ?_⟩
  · obtain rfl : e.cfg.index x = k := by simpa using hi
    exact h.mem_line_byte (p.cache.getElem_sets hk ▸ hl) hv ht
  · obtain hstored | ⟨l, hl, hv, hdirty, ht⟩ := h.stored_or_dirty x
    · exact .inl hstored
    · have hi := Cache.index_lt_sets h.valid h.cache x
      exact .inr ⟨e.cfg.index x, hi, l, p.cache.getElem_sets hi ▸ hl, hv, hdirty, ht, by simp⟩

/-- After a drain every byte seen is as before (R84). -/
theorem CacheStore.Sound.drain_seen {e : CacheEnv} {p q : CacheStore} (h : p.Sound e.cfg) (hd : Cache.drain e p = .ok q)
    (x : Word) : seenByte e.cfg q x = seenByte e.cfg p x := by
  obtain ⟨hcache, hstore⟩ := h.drain hd
  rw [seenByte, hcache, Cache.drained_byte?, hstore]
  unfold seenByte
  cases p.cache.byte? e.cfg x <;> rfl

/-- A drain keeps the cache sound: a valid line is clean and the store holds its bytes (R62, R83, R84). -/
theorem CacheStore.Sound.drained {e : CacheEnv} {p q : CacheStore} (h : p.Sound e.cfg) (hd : Cache.drain e p = .ok q) :
    q.Sound e.cfg := by
  obtain ⟨hcache, hstore⟩ := h.drain hd
  refine ⟨h.valid, Cache.drain_mem_wf h.mem hd, hcache ▸ Cache.drained_wf h.cache, fun s hs l hl hv _ => ?_⟩
  rw [hcache] at hs hl
  rw [Cache.drained_set] at hl
  obtain ⟨l, hmem, rfl⟩ := List.mem_map.1 hl
  have hs' : s < p.cache.sets.length := by simpa [Cache.drained] using hs
  obtain ⟨hdata, htag⟩ := ((Cache.waysWf_set h.cache hs').2.1 l hmem).1
  have hindex : s < 2 ^ e.cfg.indexBits := by
    rwa [← ((CacheConfig.valid_iff e.cfg).1 h.valid).2.2.2.1, ← h.cache.1]
  refine List.ext_getElem (by simpa using hdata) fun k hk hk' => ?_
  rw [List.getElem_map, byteAddresses_getElem, hstore]
  have hoffset : k < 2 ^ e.cfg.offsetBits := by
    rw [← ((CacheConfig.valid_iff e.cfg).1 h.valid).1, ← hdata]
    exact hk
  obtain ⟨ht, hi, ho⟩ := CacheConfig.slices_lineBase_add h.valid (htag hv) hindex hoffset
  rw [CacheLine.drained_tag, ← h.mem_line_byte (l := l) (hi.symm ▸ hmem) hv ht, ho]
  exact (List.getD_eq_getElem _ _ hk).symm

/-! ## The drains of `finalize` -/

theorem State.drained_ok {s t : State} (h : s.wf) (hd : s.drained = .ok t) :
    ∃ q, Cache.drain s.dcEnv s.dataSide = .ok q ∧ t = s.withData q := by
  obtain ⟨-, -, -, -, hclean, -⟩ := h
  unfold State.drained at hd
  rw [Cache.drain_of_clean s.icEnv (p := s.fetchSide) hclean] at hd
  simp only at hd
  split at hd
  · cases hd
  · rename_i q hq
    exact ⟨q, hq, (Except.ok.inj hd).symm⟩

/-- Settles O58: the drain of a clean `IC` does nothing, and that of a sound `DC` writes the bytes seen. -/
theorem drainMakesTheStoreCurrent : Obligations.DrainMakesTheStoreCurrent := by
  intro s t h hd
  obtain ⟨q, hq, rfl⟩ := State.drained_ok h hd
  obtain ⟨hcache, hstore⟩ := CacheStore.Sound.drain (e := s.dcEnv) h.data hq
  have hsound : q.Sound s.cfg.dcfg := CacheStore.Sound.drained (e := s.dcEnv) h.data hq
  have hseen := CacheStore.Sound.drain_seen (e := s.dcEnv) h.data hq
  refine ⟨hstore, hseen, fun ls hls l hl hv => ?_, fun k w => ?_, ?_, rfl, h.withData hsound⟩
  · rw [State.withData_dc, hcache] at hls
    obtain ⟨ls, -, rfl⟩ := List.mem_map.1 hls
    obtain ⟨l, -, rfl⟩ := List.mem_map.1 hl
    rw [CacheLine.drained_valid] at hv
    simp [hv]
  · rw [State.withData_dc, hcache, Cache.drained_line]
    rfl
  · rw [State.withData_dc, hcache]
    rfl

end Sys2Proof.Machine
end

section
/-! PROOF. O31: the valid cache configurations (R71) and what an invalid one refuses (R313). -/

namespace Sys2Proof

/-- A block of `2^o` bytes in `2^k` sets has `o` offset bits and `k` index bits (R71, R74). -/
theorem CacheConfig.offsetBits_indexBits {g : CacheConfig} {o k : Nat} (hB : g.blockSizeBytes = 2 ^ o)
    (hk : g.totalSizeBytes / (2 ^ o * g.ways) = 2 ^ k) : g.offsetBits = o ∧ g.numSets = 2 ^ k ∧ g.indexBits = k := by
  have hsets : g.numSets = 2 ^ k := by rw [numSets, hB, hk]
  exact ⟨by rw [offsetBits, hB, Nat.log2_two_pow], hsets, by rw [indexBits, hsets, Nat.log2_two_pow]⟩

/-- A valid configuration, by the powers of two that R71 asks for and not by their logarithms. -/
theorem CacheConfig.valid_iff_exists_pow (g : CacheConfig) : g.valid = true ↔
    ∃ o, g.blockSizeBytes = 2 ^ o ∧ g.totalSizeBytes % (2 ^ o * g.ways) = 0 ∧ 2 ^ o * g.ways ≤ g.totalSizeBytes ∧
      ∃ k, g.totalSizeBytes / (2 ^ o * g.ways) = 2 ^ k ∧ o + k ≤ 32 := by
  rw [valid_iff]
  constructor
  · rintro ⟨hB, hmod, hle, hsets, hbits⟩
    rw [hB] at hmod hle
    rw [numSets, hB] at hsets
    exact ⟨_, hB, hmod, hle, _, hsets, hbits⟩
  · rintro ⟨o, hB, hmod, hle, k, hk, hbits⟩
    obtain ⟨ho, hsets, hi⟩ := offsetBits_indexBits hB hk
    rw [ho, hi, hB]
    exact ⟨rfl, hmod, hle, hsets, hbits⟩

theorem CoreConfig.wellFormed_of_malformed_cache {cfg : CoreConfig} (h : cfg.icfg.valid = false ∨ cfg.dcfg.valid = false) :
    cfg.wellFormed = false := by
  obtain h | h := h
  · simp [wellFormed, h]
  · simp [wellFormed, h]

end Sys2Proof

namespace Sys2Proof.Machine

/-- Settles O31, by the logarithm of a power of two; `init` and `step` test the parameters first. -/
theorem malformedConfigurationIsNoCore : Obligations.MalformedConfigurationIsNoCore := by
  refine ⟨CacheConfig.valid_iff_exists_pow, fun cfg mem h => ?_, fun s h => ?_⟩
  · simp [init, CoreConfig.wellFormed_of_malformed_cache h]
  · simp [step, h]

end Sys2Proof.Machine
end

section
/-! PROOF. O55 and O56: what an access counts (R82), and the latency of a miss (R77 to R81). -/

namespace Sys2Proof.Machine

/-! ## Counting an access (R82) -/

/-- Counting a miss changes the miss counter alone (R82). -/
theorem Cache.count_miss (c : Cache) (first : Bool) :
    c.count first .miss = { c with misses := c.misses + if first then 1 else 0 } := by
  cases first <;> rfl

@[simp] theorem Cache.count_find (g : CacheConfig) (c : Cache) (first : Bool) (st : AccessStatus) (a : Word) :
    (c.count first st).find g a = c.find g a := Cache.find_congr (Cache.count_sets ..) g a

@[simp] theorem Cache.count_set (c : Cache) (first : Bool) (st : AccessStatus) (s : Nat) : (c.count first st).set s = c.set s := by
  rw [Cache.set, Cache.set, Cache.count_sets]

@[simp] theorem Cache.count_line (c : Cache) (first : Bool) (st : AccessStatus) (s w : Nat) :
    (c.count first st).line s w = c.line s w := Cache.line_of_set_eq (Cache.count_set ..) w

/-- What one access adds to each counter (R82). -/
theorem Cache.hits_misses_of_counters {c c' : Cache} {first : Bool} {st : AccessStatus}
    (h : c'.counters = (c.count first st).counters) :
    c'.hits = c.hits + (if first = true ∧ st = .hit then 1 else 0) ∧
      c'.misses = c.misses + (if first = true ∧ st = .miss then 1 else 0) := by
  obtain ⟨hh, hm⟩ := Prod.mk.inj h
  rw [hh, hm]
  cases first with
  | false => cases st <;> simp [Cache.count]
  | true => cases st <;> simp [Cache.count]

/-- Settles O55: an access counts by its status, and a read has the status hit exactly when it answers a value. -/
theorem accessesAreCountedOnce : Obligations.AccessesAreCountedOnce := by
  refine fun e a n bs first p => ⟨fun r h => ?_, fun r h => Cache.hits_misses_of_counters (Cache.write_counters h)⟩
  have hcount := Cache.hits_misses_of_counters (Cache.read_counters h)
  cases hv : r.value with
  | none => simpa [hv] using hcount
  | some bs => simpa [hv] using hcount

/-! ## What a miss fills (R76, R79) -/

namespace Cache.onlyFills
variable {e : CacheEnv} {c c' c'' : Cache}

theorem of_same_sets (h : c'.sets = c.sets) : Cache.onlyFills e c c' := fun st l hl =>
  .inr ⟨l, by simpa [Cache.set, h] using hl, rfl⟩

theorem trans (h : Cache.onlyFills e c c') (h' : Cache.onlyFills e c' c'') : Cache.onlyFills e c c'' := by
  intro st l hl
  obtain hready | ⟨l₁, hl₁, heq⟩ := h' st l hl
  · exact .inl hready
  · obtain hready | ⟨l₀, hl₀, heq₁⟩ := h st l₁ hl₁
    · exact .inl (heq ▸ hready)
    · exact .inr ⟨l₀, hl₀, heq.trans (by rw [heq₁])⟩

theorem putByte (a : Word) (b : Byte) : Cache.onlyFills e c (c.putByte e.cfg a b) := by
  intro st l hl
  obtain ⟨w, hw, rfl⟩ := List.getElem_of_mem hl
  obtain ⟨hvalid, htag, hlru, hready⟩ := c.putByte_same e.cfg a b st w
  rw [← Cache.line_eq_getElem _ hw]
  refine .inr ⟨c.line st w, c.line_mem (by simpa using hw), ?_⟩
  rw [← hvalid, ← htag, ← hlru, ← hready]

end Cache.onlyFills

theorem missProc_onlyFills {e : CacheEnv} {a : Word} {p q : CacheStore} (h : missProc e a p = .ok q) :
    Cache.onlyFills e p.cache q.cache := fun st l hl =>
  (missProc_readyAt h st l hl).elim (fun hl => .inr ⟨l, hl, rfl⟩) .inl

theorem ensure_onlyFills {e : CacheEnv} {a : Word} {p q : CacheStore} (h : ensure e a p = .ok q) :
    Cache.onlyFills e p.cache q.cache := by
  obtain ⟨-, rfl⟩ | ⟨-, h⟩ := ensure_ok h
  · exact .of_same_sets rfl
  · exact missProc_onlyFills h

/-- "Write the bytes" on a miss uses no present line (R79). -/
theorem writeLoop_onlyFills {e : CacheEnv} {bs : List Byte} {a : Word} {p q : CacheStore}
    (h : writeLoop e .miss bs a p = .ok q) : Cache.onlyFills e p.cache q.cache := by
  induction bs generalizing a p with
  | nil =>
    cases h
    exact .of_same_sets rfl
  | cons b bs ih =>
    obtain ⟨p₁, hp, hw⟩ := writeLoop_cons_ok h
    exact ((ensure_onlyFills hp).trans (.putByte a b)).trans (ih hw)

/-- A line that was absent and is held after fills alone is one that they filled: it is pending for `L` ticks (R77, R81). -/
theorem Cache.onlyFills.firstByte_filled {e : CacheEnv} {a : Word} {c c' : Cache} (h : Cache.onlyFills e c c')
    (habs : c.find e.cfg a = none) (hheld : c'.find e.cfg a ≠ none) (t : Nat) :
    firstByte { e with cycle := t } c' a = if t < e.cycle + e.cfg.missLatencyCycles then .pending else .ready := by
  obtain ⟨w, hw⟩ := Option.ne_none_iff_exists'.1 hheld
  obtain ⟨hlt, hvalid, htag⟩ := Cache.find_some hw
  have hready : (c'.line (e.cfg.index a) w).readyAt = e.cycle + e.cfg.missLatencyCycles := by
    obtain hready | ⟨l₀, hl₀, heq⟩ := h _ _ (c'.line_mem hlt)
    · exact hready
    · rw [heq] at hvalid htag
      exact absurd htag (Cache.find_none.1 habs l₀ hl₀ hvalid)
  simp only [firstByte, hw, hready]
  by_cases ht : t < e.cycle + e.cfg.missLatencyCycles
  · simp [ht]
  · simp [ht, not_lt.1 ht]

/-! ## An access whose line is absent -/

/-- The bytes of one block have one line (R74, R75). -/
theorem Cache.find_of_same_block {g : CacheConfig} (hg : g.valid = true) (c : Cache) (a : Word) {k : Nat}
    (hk : g.offset a + k < g.blockSizeBytes) : c.find g (a + BitVec.ofNat 32 k) = c.find g a := by
  obtain ⟨htag, hindex⟩ := CacheConfig.slices_of_same_block hg a hk
  rw [Cache.find, Cache.find, htag, hindex]

theorem add_one_add_ofNat (a : Word) (k : Nat) : a + 1 + BitVec.ofNat 32 k = a + BitVec.ofNat 32 (k + 1) := by
  rw [BitVec.add_assoc, Nat.add_comm, BitVec.ofNat_add]
  rfl

/-- Writing bytes whose lines are all present, on a miss, changes no lookup: nothing is evicted (R79). -/
theorem writeLoop_find_of_held {e : CacheEnv} {bs : List Byte} {a : Word} {p q : CacheStore}
    (h : writeLoop e .miss bs a p = .ok q) (hheld : ∀ k < bs.length, p.cache.find e.cfg (a + BitVec.ofNat 32 k) ≠ none) (x : Word) :
    q.cache.find e.cfg x = p.cache.find e.cfg x := by
  induction bs generalizing a p with
  | nil =>
    cases h
    rfl
  | cons b bs ih =>
    obtain ⟨p₁, hp, hw⟩ := writeLoop_cons_ok h
    obtain ⟨-, rfl⟩ | ⟨hnone, -⟩ := ensure_ok hp
    · rw [ih hw fun k hk => ?_]
      · exact Cache.putByte_find ..
      · rw [Cache.putByte_find, add_one_add_ofNat]
        exact hheld (k + 1) (Nat.succ_lt_succ hk)
    · exact absurd hnone (by simpa using hheld 0 (Nat.zero_lt_succ _))

/-- A miss leaves the line of its address held (R76). -/
theorem missProc_holds {e : CacheEnv} {a : Word} {p q : CacheStore} (hg : e.cfg.valid = true) (hc : p.cache.wf e.cfg)
    (hf : p.cache.find e.cfg a = none) (h : missProc e a p = .ok q) : q.cache.find e.cfg a ≠ none := by
  obtain ⟨w, -, -, -, hw, -⟩ := missProc_lines hg hc hf h
  simp [hw]

/-- A read whose line is absent: a miss that fills it (R78). -/
theorem Cache.read_of_absent {e : CacheEnv} {a : Word} {n : Nat} {first : Bool} {p : CacheStore} {r : ReadResult}
    (hf : p.cache.find e.cfg a = none) (h : Cache.read e a n first p = .ok r) :
    r.value = none ∧ missProc e a { p with cache := p.cache.count first .miss } = .ok r.store := by
  have habs : firstByte e p.cache a = .absent := firstByte_eq_absent_iff.2 hf
  obtain ⟨hfb, -⟩ | ⟨-, hmiss⟩ | ⟨hfb, -⟩ := Cache.read_ok h
  · simp [habs] at hfb
  · exact hmiss
  · simp [habs] at hfb

/-- A write whose line is absent: a miss that fills it, then the bytes (R79). -/
theorem Cache.write_of_absent {e : CacheEnv} {a : Word} {bs : List Byte} {first : Bool} {p : CacheStore} {r : WriteResult}
    (hf : p.cache.find e.cfg a = none) (h : Cache.write e a bs first p = .ok r) :
    r.status = .miss ∧ ∃ p₁, missProc e a { p with cache := p.cache.count first .miss } = .ok p₁ ∧
      writeLoop e .miss bs a p₁ = .ok r.store := by
  have habs : firstByte e p.cache a = .absent := firstByte_eq_absent_iff.2 hf
  obtain ⟨hfb, -⟩ | ⟨-, hmiss⟩ | ⟨hfb, -⟩ := Cache.write_ok h
  · simp [habs] at hfb
  · exact hmiss
  · simp [habs] at hfb

/-- Settles O56: an absent line is filled and nothing else is used, so what is held afterwards is new; a pending one only counts. -/
theorem missLatency : Obligations.MissLatency := by
  refine ⟨fun e a first p c hg hc hf => ⟨fun n r h => ?_, fun bs r h => ?_⟩, fun e a first p hpend => ⟨fun n => ?_, fun bs => ?_⟩⟩
  · obtain ⟨hvalue, hmiss⟩ := Cache.read_of_absent hf h
    have hfills : Cache.onlyFills e p.cache r.store.cache :=
      Cache.onlyFills.trans (.of_same_sets (Cache.count_sets ..)) (missProc_onlyFills hmiss)
    have hheld := missProc_holds hg (Cache.wf_count hc first .miss) (by simpa using hf) hmiss
    exact ⟨hvalue, hfills, hfills.firstByte_filled hf hheld c⟩
  · obtain ⟨hstatus, p₁, hmiss, hw⟩ := Cache.write_of_absent hf h
    have hfills : Cache.onlyFills e p.cache r.store.cache :=
      (Cache.onlyFills.trans (.of_same_sets (Cache.count_sets ..)) (missProc_onlyFills hmiss)).trans (writeLoop_onlyFills hw)
    have hheld := missProc_holds hg (Cache.wf_count hc first .miss) (by simpa using hf) hmiss
    refine ⟨hstatus, hfills, fun hblock => ?_, fun hheld => hfills.firstByte_filled hf hheld c⟩
    rw [writeLoop_find_of_held hw fun k hk => ?_]
    · exact hheld
    · rw [Cache.find_of_same_block hg _ a (by omega)]
      exact hheld
  · exact ⟨_, by rw [Cache.read, hpend], rfl, by rw [Cache.count_miss]⟩
  · exact ⟨_, by rw [Cache.write, hpend], rfl, by rw [Cache.count_miss]⟩

end Sys2Proof.Machine
end

section
/-! PROOF. O57: the victim of a set, the line a miss fills, and the lines an access uses (R76, R78, R79, R80). -/

namespace Sys2Proof.Machine

/-! ## The victim -/

/-- An invalid way is taken first, the lowest-numbered one (R76). -/
theorem victimWay_of_invalid {ls : List CacheLine} {w : Nat} (h : w < ls.length) (hinv : ls[w].valid = false)
    (hmin : ∀ (v : Nat) (hv : v < w), (ls[v]'(hv.trans h)).valid = true) : victimWay ls = w := by
  have hfind : ls.findIdx? (fun l => !l.valid) = some w :=
    List.findIdx?_eq_some_iff_getElem.2 ⟨h, by simp [hinv], fun v hv => by simp [hmin v hv]⟩
  simp [victimWay, hfind]

/-- `best` is a way of `ls` with its recency marker, and no line of `ls` is older. -/
structure OldestOf (ls : List CacheLine) (best : Nat × Nat) : Prop where
  lt : best.1 < ls.length
  marker : ls[best.1].lru = best.2
  least : ∀ l ∈ ls, best.2 ≤ l.lru

/-- One more line is compared with the oldest so far, as `oldestWay` does it. -/
theorem OldestOf.snoc {ls : List CacheLine} {best : Nat × Nat} (h : OldestOf ls best) (l : CacheLine) :
    OldestOf (ls ++ [l]) (if l.lru < best.2 then (ls.length, l.lru) else best) := by
  split
  · rename_i hl
    exact ⟨by simp, by simp, List.forall_mem_append.2 ⟨fun k hk => hl.le.trans (h.least k hk), by simp⟩⟩
  · rename_i hl
    exact ⟨by simpa using h.lt.trans (Nat.lt_succ_self _), by rw [List.getElem_append_left h.lt]; exact h.marker,
      List.forall_mem_append.2 ⟨h.least, by simpa using hl⟩⟩

theorem oldestWay_oldestOf {ls rest : List CacheLine} {best : Nat × Nat} (h : OldestOf ls best) :
    ∃ m, OldestOf (ls ++ rest) (oldestWay rest ls.length best, m) := by
  induction rest generalizing ls best with
  | nil => exact ⟨best.2, by simpa [oldestWay] using h⟩
  | cons l rest ih => simpa [oldestWay] using ih (h.snoc l)

/-- In a full set the victim has the least recency marker (R76). -/
theorem victimWay_least {ls : List CacheLine} (hne : ls ≠ []) (hfull : ∀ l ∈ ls, l.valid = true) :
    ∃ h : victimWay ls < ls.length, ∀ l ∈ ls, (ls[victimWay ls]).lru ≤ l.lru := by
  have hnone : ls.findIdx? (fun l => !l.valid) = none := List.findIdx?_eq_none_iff.2 fun l hl => by simp [hfull l hl]
  obtain ⟨l, rest, rfl⟩ := List.exists_cons_of_ne_nil hne
  obtain ⟨m, hm⟩ := oldestWay_oldestOf (ls := [l]) (rest := rest) (best := (0, l.lru)) ⟨by simp, rfl, by simp⟩
  have hvictim : victimWay (l :: rest) = oldestWay rest 1 (0, l.lru) := by simp [victimWay, hnone]
  rw [hvictim]
  exact ⟨hm.lt, fun k hk => hm.marker.le.trans (hm.least k hk)⟩

/-- Of two valid ways, one of them the newest, the victim is the other (R76, R80). -/
theorem Cache.victimWay_of_newest {c : Cache} {s v w : Nat} (hlen : (c.set s).length = 2) (hv : v < 2) (hw : w < 2)
    (hvw : v ≠ w) (hvalid : (c.line s v).valid = true) (hnew : c.newest s w) : victimWay (c.set s) = v := by
  have hfull : ∀ l ∈ c.set s, l.valid = true := by
    intro l hl
    obtain ⟨i, hi, rfl⟩ := List.getElem_of_mem hl
    rw [← c.line_eq_getElem hi]
    obtain rfl | rfl : i = v ∨ i = w := by omega
    · exact hvalid
    · exact hnew.1
  obtain ⟨hlt, hleast⟩ := victimWay_least (List.ne_nil_of_length_pos (by omega)) hfull
  have holder : (c.line s v).lru < (c.line s w).lru := hnew.2 v (by omega) hvw hvalid
  by_contra hne
  have hvictim : victimWay (c.set s) = w := by omega
  have hle := hleast _ (c.line_mem (s := s) (w := v) (by omega))
  simp only [hvictim, ← Cache.line_eq_getElem] at hle
  omega

theorem CacheConfig.ways_of_twoWay {g : CacheConfig} (h : g.associativityMode = .twoWay) : g.ways = 2 := by
  simp [CacheConfig.ways, h]

theorem Cache.set_length {g : CacheConfig} {c : Cache} (hc : c.wf g) {s : Nat} (hs : s < c.sets.length) :
    (c.set s).length = g.ways := (Cache.waysWf_set hc hs).1

/-- Of two ways used one after the other, the victim is the first (R80). -/
theorem Cache.victimWay_use_use {g : CacheConfig} {c : Cache} {s v w : Nat} (htwo : g.associativityMode = .twoWay) (hc : c.wf g)
    (hs : s < c.sets.length) (hv : v < 2) (hw : w < 2) (hvw : v ≠ w) (hfull : ∀ l ∈ c.set s, l.valid = true) :
    victimWay (((c.use s v).use s w).set s) = v := by
  have hlen : (c.set s).length = 2 := (Cache.set_length hc hs).trans (CacheConfig.ways_of_twoWay htwo)
  have hvl : v < (c.set s).length := by omega
  have hwl : w < (c.set s).length := by omega
  have hvv : (c.line s v).valid = true := hfull _ (c.line_mem hvl)
  have hwv : (c.line s w).valid = true := hfull _ (c.line_mem hwl)
  refine Cache.victimWay_of_newest (by simpa using hlen) hv hw hvw ?_ ?_
  · rw [Cache.use_line_other _ (.inr hvw), Cache.use_line_same c hvl]
    exact hvv
  · refine Cache.use_newest (Cache.use_wf hc hs hvl) (by simpa [Cache.use] using hs) (by simpa using hwl) ?_
    rw [Cache.use_line_other c (.inr hvw.symm)]
    exact hwv

/-! ## What a miss fills -/

/-- A well-formed line's write-back changes exactly the bytes of its block (R76). -/
theorem writeBackLine_byte {e : CacheEnv} {s : Nat} {l : CacheLine} {m m' : Memory} (hg : e.cfg.valid = true) (hm : m.wf)
    (hl : l.wf e.cfg) (hs : s < 2 ^ e.cfg.indexBits) (h : writeBackLine e s l m = .ok m') (x : Word) :
    readByte m' x.toNat =
      if l.valid = true ∧ l.dirty = true ∧ e.cfg.tag x = l.tag ∧ e.cfg.index x = s then l.data.getD (e.cfg.offset x) 0
      else readByte m x.toNat := by
  rw [writeBackLine_ok h]
  by_cases hvd : l.valid = true ∧ l.dirty = true
  · obtain ⟨hv, hd⟩ := hvd
    simp [hv, hd, readByte_writeLine hg hm (hl.2 hv) hs hl.1]
  · have hnot : (l.valid && l.dirty) = false := by simpa using hvd
    rw [hnot, if_neg (by simp), if_neg fun hline => hvd ⟨hline.1, hline.2.1⟩]

/-- What the miss procedure leaves (R76). -/
theorem missProc_filled {e : CacheEnv} {a : Word} {p q : CacheStore} (hg : e.cfg.valid = true) (hc : p.cache.wf e.cfg)
    (hm : p.mem.wf) (hf : p.cache.find e.cfg a = none) (h : missProc e a p = .ok q) :
    p.filled e a q (victimWay (p.cache.set (e.cfg.index a))) := by
  obtain ⟨w, rfl, hw, -, hfind, hnew, hother, -⟩ := missProc_lines hg hc hf h
  obtain ⟨m, block, hwb, hfill, rfl⟩ := missProc_ok h
  have hline := ((Cache.waysWf_set hc (Cache.index_lt_sets hg hc a)).2.1 _ (p.cache.line_mem hw)).1
  refine ⟨hfind, hnew, ?_, hother, writeBackLine_byte hg hm hline (e.cfg.index_lt a) hwb⟩
  rw [Cache.use_line_same _ (by simpa [Cache.set_setLine] using hw), Cache.line_setLine_same _ _ hw, ← fillBlock_ok hfill]

/-! ## The bytes of an access that hits

The loops of R78 and R79 do one thing with each byte: its line is made present or used, and a write then puts the byte there. -/

/-- A byte put in its line where there is one to write. -/
def Cache.putByte? (g : CacheConfig) (c : Cache) (a : Word) : Option Byte → Cache
  | none => c
  | some b => c.putByte g a b

/-- From `p` to `q` the lines of the bytes from `a` are touched one after the other, and the bytes to write are put. -/
inductive TouchesBytes (e : CacheEnv) : List (Option Byte) → Word → CacheStore → CacheStore → Prop
  /-- No byte is left. -/
  | nil (a : Word) (p : CacheStore) : TouchesBytes e [] a p p
  /-- One byte, then the rest. -/
  | cons {o : Option Byte} {os : List (Option Byte)} {a : Word} {p p₁ q : CacheStore} (htouch : touch e a p = .ok p₁)
      (hrest : TouchesBytes e os (a + 1) { p₁ with cache := p₁.cache.putByte? e.cfg a o } q) : TouchesBytes e (o :: os) a p q

theorem readLoop_touchesBytes {e : CacheEnv} {n : Nat} {a : Word} {p q : CacheStore} {bs : List Byte}
    (h : readLoop e n a p = .ok (bs, q)) : TouchesBytes e (List.replicate n none) a p q := by
  induction n generalizing a p bs with
  | zero =>
    cases h
    exact .nil ..
  | succ n ih =>
    obtain ⟨p₁, rest, ht, hr, -⟩ := readLoop_succ_ok h
    exact .cons ht (ih hr)

theorem writeLoop_touchesBytes {e : CacheEnv} {bs : List Byte} {a : Word} {p q : CacheStore}
    (h : writeLoop e .hit bs a p = .ok q) : TouchesBytes e (bs.map some) a p q := by
  induction bs generalizing a p with
  | nil =>
    cases h
    exact .nil ..
  | cons b bs ih =>
    obtain ⟨p₁, ht, hw⟩ := writeLoop_cons_ok h
    exact .cons ht (ih hw)

section PutByte
variable (g : CacheConfig) (c : Cache) (a : Word) (o : Option Byte)

@[simp] theorem Cache.putByte?_find (x : Word) : (c.putByte? g a o).find g x = c.find g x := by
  cases o with
  | none => rfl
  | some b => exact Cache.putByte_find ..

@[simp] theorem Cache.putByte?_newest (s w : Nat) : (c.putByte? g a o).newest s w ↔ c.newest s w := by
  cases o with
  | none => rfl
  | some b => exact Cache.putByte_newest ..

theorem Cache.putByte?_set_other {s : Nat} (h : s ≠ g.index a) : (c.putByte? g a o).set s = c.set s := by
  cases o with
  | none => rfl
  | some b => exact Cache.putByte_set_other _ _ _ _ h

theorem Cache.putByte?_wf {g : CacheConfig} {c : Cache} (hc : c.wf g) : (c.putByte? g a o).wf g := by
  cases o with
  | none => exact hc
  | some b => exact Cache.putByte_wf hc a b

end PutByte

section Touches
variable {e : CacheEnv} {os : List (Option Byte)} {a : Word} {p q : CacheStore}

theorem TouchesBytes.wf (hg : e.cfg.valid = true) (h : TouchesBytes e os a p q) (hc : p.cache.wf e.cfg) : q.cache.wf e.cfg := by
  induction h with
  | nil => exact hc
  | cons ht _ ih => exact ih (Cache.putByte?_wf _ _ (touch_wf hg hc ht))

/-- A set of none of the bytes is left as it was. -/
theorem TouchesBytes.set_other (hg : e.cfg.valid = true) (h : TouchesBytes e os a p q) (hc : p.cache.wf e.cfg) {s : Nat}
    (hs : ∀ k < os.length, e.cfg.index (a + BitVec.ofNat 32 k) ≠ s) : q.cache.set s = p.cache.set s := by
  induction h with
  | nil => rfl
  | @cons o os a p p₁ q ht _ ih =>
    have ha : s ≠ e.cfg.index a := by simpa [eq_comm] using hs 0 (Nat.zero_lt_succ _)
    rw [ih (Cache.putByte?_wf _ _ (touch_wf hg hc ht)) fun k hk => ?_, Cache.putByte?_set_other _ _ _ _ ha,
      (touch_newest hg hc ht).2 s ha]
    rw [add_one_add_ofNat]
    exact hs (k + 1) (Nat.succ_lt_succ hk)

/-- Each byte's line is used: of the bytes in one set, the last leaves its line the newest (R80). -/
theorem TouchesBytes.usedBytes (hg : e.cfg.valid = true) (h : TouchesBytes e os a p q) (hc : p.cache.wf e.cfg) :
    q.cache.usedBytes e.cfg a os.length := by
  induction h with
  | nil => exact fun k hk => absurd hk (Nat.not_lt_zero k)
  | @cons o os a p p₁ q ht hrest ih =>
    have hc₁ := Cache.putByte?_wf a o (touch_wf hg hc ht)
    intro k hk hlast
    cases k with
    | zero =>
      have hset := hrest.set_other hg hc₁ (s := e.cfg.index a) fun j hj => by
        rw [add_one_add_ofNat]
        simpa using hlast (j + 1) (Nat.succ_lt_succ hj) (Nat.zero_lt_succ j)
      obtain ⟨w, hfind, hnew⟩ := (touch_newest hg hc ht).1
      rw [BitVec.add_zero]
      exact ⟨w, by rw [Cache.find_of_set_eq hset, Cache.putByte?_find]; exact hfind,
        (Cache.newest_of_set_eq hset).2 ((Cache.putByte?_newest ..).2 hnew)⟩
    | succ k =>
      rw [← add_one_add_ofNat] at hlast ⊢
      refine ih hc₁ k (Nat.lt_of_succ_lt_succ hk) fun j hj hkj => ?_
      rw [add_one_add_ofNat]
      exact hlast (j + 1) (Nat.succ_lt_succ hj) (Nat.succ_lt_succ hkj)


end Touches

/-! ## An access inside one block -/

section OneLine
variable {g : CacheConfig} {p q r : CacheStore} {a : Word} {w : Nat}

theorem CacheStore.onlyLine.refl (h : p.cache.find g a = some w) : p.onlyLine g p a w :=
  ⟨h, h, rfl, fun _ _ _ => rfl⟩

theorem CacheStore.onlyLine.trans (h : p.onlyLine g q a w) (h' : q.onlyLine g r a w) : p.onlyLine g r a w := by
  obtain ⟨hp, -, hmem, hlines⟩ := h
  obtain ⟨-, hr, hmem', hlines'⟩ := h'
  exact ⟨hp, hr, hmem'.trans hmem, fun st v hv => (hlines' st v hv).trans (hlines st v hv)⟩

/-- The line is said by any address of its block. -/
theorem CacheStore.onlyLine_congr {b : Word} (ht : g.tag b = g.tag a) (hi : g.index b = g.index a) :
    p.onlyLine g q b w ↔ p.onlyLine g q a w := by
  simp only [CacheStore.onlyLine, Cache.find, ht, hi]

theorem CacheStore.onlyLine.count (h : p.cache.find g a = some w) (first : Bool) (st : AccessStatus) :
    p.onlyLine g { p with cache := p.cache.count first st } a w :=
  ⟨h, by simpa using h, rfl, fun _ _ _ => by simp⟩

theorem CacheStore.onlyLine.use (h : p.cache.find g a = some w) :
    p.onlyLine g { p with cache := p.cache.use (g.index a) w } a w :=
  ⟨h, by simpa using h, rfl, fun _ _ hv => Cache.use_line_other _ hv⟩

theorem CacheStore.onlyLine.putByte? (h : p.cache.find g a = some w) (o : Option Byte) :
    p.onlyLine g { p with cache := p.cache.putByte? g a o } a w := by
  cases o with
  | none => exact .refl h
  | some b => exact ⟨h, by simpa using h, rfl, (p.cache.putByte_line g h b).2⟩

end OneLine

/-- `l'` is the line `l` after uses, and after a write of some byte to it when `wr` is true (R78, R79). -/
structure UsedLine (wr : Bool) (l l' : CacheLine) : Prop where
  same : l' = { l with lru := l'.lru, data := l'.data, dirty := l.dirty || wr }
  data : wr = false → l'.data = l.data

namespace UsedLine
variable {wr wr' : Bool} {l l' l'' : CacheLine}

theorem refl (l : CacheLine) : UsedLine false l l := ⟨by simp, fun _ => rfl⟩

theorem trans (h : UsedLine wr l l') (h' : UsedLine wr' l' l'') : UsedLine (wr || wr') l l'' := by
  refine ⟨h'.same.trans ?_, fun hwr => ?_⟩
  · rw [h.same]
    simp [Bool.or_assoc]
  · rw [Bool.or_eq_false_iff] at hwr
    exact (h'.data hwr.2).trans (h.data hwr.1)

theorem eq_of_read (h : UsedLine false l l') : l' = { l with lru := l'.lru } := by
  conv_lhs => rw [h.same, h.data rfl, Bool.or_false]

theorem eq_of_write (h : UsedLine true l l') : l' = { l with lru := l'.lru, data := l'.data, dirty := true } := by
  conv_lhs => rw [h.same, Bool.or_true]

end UsedLine

theorem Cache.use_usedLine {c : Cache} {s w : Nat} (hw : w < (c.set s).length) :
    UsedLine false (c.line s w) ((c.use s w).line s w) := by
  rw [Cache.use_line_same c hw]
  exact ⟨by simp, fun _ => rfl⟩

theorem Cache.putByte?_usedLine {g : CacheConfig} {c : Cache} {a : Word} {w : Nat} (h : c.find g a = some w) (o : Option Byte) :
    UsedLine o.isSome (c.line (g.index a) w) ((c.putByte? g a o).line (g.index a) w) := by
  cases o with
  | none => exact .refl _
  | some b =>
    rw [Cache.putByte?, (c.putByte_line g h b).1]
    exact ⟨by simp, by simp⟩

theorem touch_of_held {e : CacheEnv} {a : Word} {p p₁ : CacheStore} {w : Nat} (hf : p.cache.find e.cfg a = some w)
    (h : touch e a p = .ok p₁) : p₁ = { p with cache := p.cache.use (e.cfg.index a) w } := by
  simpa [touch, hf, eq_comm] using h

/-- Bytes of the block of `a`, whose line is held: that line is used, and written when a byte is put, and nothing else changes. -/
theorem TouchesBytes.oneLine {e : CacheEnv} {os : List (Option Byte)} {a b : Word} {p q : CacheStore} {w : Nat}
    (h : TouchesBytes e os b p q) (hf : p.cache.find e.cfg a = some w)
    (hblock : ∀ k < os.length, e.cfg.tag (b + BitVec.ofNat 32 k) = e.cfg.tag a ∧
      e.cfg.index (b + BitVec.ofNat 32 k) = e.cfg.index a) :
    p.onlyLine e.cfg q a w ∧
      UsedLine (os.any Option.isSome) (p.cache.line (e.cfg.index a) w) (q.cache.line (e.cfg.index a) w) := by
  induction h with
  | nil => exact ⟨.refl hf, .refl _⟩
  | @cons o os b p p₁ q ht _ ih =>
    obtain ⟨htag, hindex⟩ : e.cfg.tag b = e.cfg.tag a ∧ e.cfg.index b = e.cfg.index a := by
      simpa using hblock 0 (Nat.zero_lt_succ _)
    have hfb : p.cache.find e.cfg b = some w := by rwa [Cache.find, htag, hindex]
    obtain rfl := touch_of_held hfb ht
    have huse := CacheStore.onlyLine.use hfb
    have hput := CacheStore.onlyLine.putByte? huse.2.1 o
    obtain ⟨hrest, hline⟩ := ih (by simpa using hf) fun k hk => by
      rw [add_one_add_ofNat]
      exact hblock (k + 1) (Nat.succ_lt_succ hk)
    refine ⟨((CacheStore.onlyLine_congr htag hindex).1 (huse.trans hput)).trans hrest, ?_⟩
    have hstep := (Cache.use_usedLine (Cache.find_some hfb).1).trans (Cache.putByte?_usedLine huse.2.1 o)
    rw [hindex] at hline
    rw [hindex, Bool.false_or] at hstep
    simpa using hstep.trans hline

/-! ## An access that hits -/

/-- A read whose line is ready: a hit that touches its bytes (R78). -/
theorem Cache.read_of_ready {e : CacheEnv} {a : Word} {n : Nat} {first : Bool} {p : CacheStore} {r : ReadResult}
    (hf : firstByte e p.cache a = .ready) (h : Cache.read e a n first p = .ok r) : r.value.isSome = true ∧
      TouchesBytes e (List.replicate n none) a { p with cache := p.cache.count first .hit } r.store := by
  obtain ⟨hfb, -⟩ | ⟨hfb, -⟩ | ⟨-, bs, hvalue, hr⟩ := Cache.read_ok h
  · simp [hf] at hfb
  · simp [hf] at hfb
  · exact ⟨by simp [hvalue], readLoop_touchesBytes hr⟩

/-- A write whose line is ready: a hit that touches its bytes and puts them (R79). -/
theorem Cache.write_of_ready {e : CacheEnv} {a : Word} {bs : List Byte} {first : Bool} {p : CacheStore} {r : WriteResult}
    (hf : firstByte e p.cache a = .ready) (h : Cache.write e a bs first p = .ok r) : r.status = .hit ∧
      TouchesBytes e (bs.map some) a { p with cache := p.cache.count first .hit } r.store := by
  obtain ⟨hfb, -⟩ | ⟨hfb, -⟩ | ⟨-, hstatus, hw⟩ := Cache.write_ok h
  · simp [hf] at hfb
  · simp [hf] at hfb
  · exact ⟨hstatus, writeLoop_touchesBytes hw⟩

section Hit
variable {e : CacheEnv} {os : List (Option Byte)} {a : Word} {p q : CacheStore} {first : Bool}

/-- An access inside the block of its first byte, whose line is held. -/
theorem TouchesBytes.inBlock {w : Nat} (hg : e.cfg.valid = true)
    (h : TouchesBytes e os a { p with cache := p.cache.count first .hit } q) (hf : p.cache.find e.cfg a = some w)
    (hblock : e.cfg.offset a + os.length ≤ e.cfg.blockSizeBytes) : p.onlyLine e.cfg q a w ∧
      UsedLine (os.any Option.isSome) (p.cache.line (e.cfg.index a) w) (q.cache.line (e.cfg.index a) w) := by
  obtain ⟨honly, hline⟩ := h.oneLine (by simpa using hf) fun k hk => CacheConfig.slices_of_same_block hg a (by omega)
  exact ⟨(CacheStore.onlyLine.count hf first .hit).trans honly, by simpa using hline⟩

/-- Using at least one byte, all of one block, leaves the line of that block held and the newest of its set (R80). -/
theorem Cache.usedBytes.newest {g : CacheConfig} {c : Cache} {n : Nat} (hg : g.valid = true) (h : c.usedBytes g a n) (hn : 0 < n)
    (hblock : g.offset a + n ≤ g.blockSizeBytes) : ∃ w, c.find g a = some w ∧ c.newest (g.index a) w := by
  obtain ⟨w, hfind, hnew⟩ := h (n - 1) (by omega) fun j hj hlast => by omega
  rw [Cache.find_of_same_block hg c a (by omega)] at hfind
  rw [(CacheConfig.slices_of_same_block hg a (by omega)).2] at hnew
  exact ⟨w, hfind, hnew⟩

/-- An access is a count and a touch of its bytes, whether it reads or writes. -/
theorem Cache.accessed.touchesBytes (h : Cache.accessed e a p q) :
    ∃ os first, os ≠ [] ∧ e.cfg.offset a + os.length ≤ e.cfg.blockSizeBytes ∧
      TouchesBytes e os a { p with cache := p.cache.count first .hit } q := by
  obtain ⟨hready, ⟨n, first, r, hn, hblock, hr, rfl⟩ | ⟨bs, first, r, hbs, hblock, hr, rfl⟩⟩ := h
  · exact ⟨_, first, by simpa using Nat.ne_of_gt hn, by simpa using hblock, (Cache.read_of_ready hready hr).2⟩
  · exact ⟨_, first, by simpa using hbs, by simpa using hblock, (Cache.write_of_ready hready hr).2⟩

/-- An access uses the line of its block: it stays held, is the newest of its set, and no other line changes (R80). -/
theorem Cache.accessed.usesLine (hg : e.cfg.valid = true) (hc : p.cache.wf e.cfg) (h : Cache.accessed e a p q) :
    q.cache.wf e.cfg ∧ ∃ w, p.onlyLine e.cfg q a w ∧ q.cache.newest (e.cfg.index a) w := by
  obtain ⟨v, hf, -⟩ := firstByte_eq_ready_iff.1 h.1
  obtain ⟨os, first, hne, hblock, ht⟩ := h.touchesBytes
  have hc' := Cache.wf_count hc first .hit
  obtain ⟨honly, -⟩ := ht.inBlock hg hf hblock
  obtain ⟨w, hw, hnew⟩ := (ht.usedBytes hg hc').newest hg (List.length_pos_of_ne_nil hne) hblock
  obtain rfl : v = w := Option.some.inj (honly.2.1.symm.trans hw)
  exact ⟨ht.wf hg hc', v, honly, hnew⟩

end Hit

/-- After an access to one line of a two-way set and then to another, the victim is the first (R76, R80, R86). -/
theorem victimWay_of_accessed {e : CacheEnv} {t : Nat} {a b : Word} {p q r : CacheStore} {w : Nat} (hg : e.cfg.valid = true)
    (htwo : e.cfg.associativityMode = .twoWay) (hc : p.cache.wf e.cfg) (hi : e.cfg.index b = e.cfg.index a)
    (ht : e.cfg.tag b ≠ e.cfg.tag a) (hf : p.cache.find e.cfg a = some w) (ha : Cache.accessed e a p q)
    (hb : Cache.accessed { e with cycle := t } b q r) : victimWay (r.cache.set (e.cfg.index a)) = w := by
  obtain ⟨hq, w', honlya, -⟩ := ha.usesLine hg hc
  obtain rfl : w = w' := Option.some.inj (hf.symm.trans honlya.1)
  obtain ⟨hr, v, honlyb, hnew⟩ := hb.usesLine (e := { e with cycle := t }) hg hq
  obtain ⟨hqb, hrb, -, hsame⟩ : q.onlyLine e.cfg r b v := honlyb
  have hlen {c : Cache} (hc : c.wf e.cfg) : (c.set (e.cfg.index a)).length = 2 :=
    (Cache.set_length hc (Cache.index_lt_sets hg hc a)).trans (CacheConfig.ways_of_twoWay htwo)
  obtain ⟨hwlt, hwvalid, hwtag⟩ := Cache.find_some honlya.2.1
  obtain ⟨hvlt, -, hvtag⟩ := Cache.find_some hqb
  rw [hi] at hvlt hvtag
  have hwv : w ≠ v := fun heq => ht (by rw [← hvtag, ← hwtag, heq])
  refine Cache.victimWay_of_newest (hlen hr) (hlen hq ▸ hwlt) (hlen hq ▸ hvlt) hwv ?_ (hi ▸ hnew)
  rw [hsame _ _ (.inr hwv)]
  exact hwvalid

/-- Settles O57: the victim by its search, the fill by the miss procedure, the uses by the bytes that an access touches. -/
theorem victimIsLeastRecentlyUsed : Obligations.VictimIsLeastRecentlyUsed := by
  refine ⟨fun ls w h hinv hmin => victimWay_of_invalid h hinv hmin, fun ls hne hfull => victimWay_least hne hfull,
    fun g c s v w _ htwo hc hs hv hw hvw hfull => Cache.victimWay_use_use htwo hc hs hv hw hvw hfull,
    fun e a p q hg hc hm hf h => missProc_filled hg hc hm hf h, fun e a first p hg hc hready => ?_,
    fun e c a b p q r w hg htwo hc hi ht hf ha hb => victimWay_of_accessed hg htwo hc hi ht hf ha hb⟩
  obtain ⟨w, hf, -⟩ := firstByte_eq_ready_iff.1 hready
  have hc' := Cache.wf_count hc first .hit
  refine ⟨fun n r h => ?_, fun bs r h => ?_⟩
  · obtain ⟨hvalue, ht⟩ := Cache.read_of_ready hready h
    refine ⟨hvalue, by simpa using ht.usedBytes hg hc', fun hblock => ?_⟩
    obtain ⟨honly, hline⟩ := ht.inBlock hg hf (by simpa using hblock)
    exact ⟨w, honly, UsedLine.eq_of_read (by simpa using hline)⟩
  · obtain ⟨hstatus, ht⟩ := Cache.write_of_ready hready h
    refine ⟨hstatus, by simpa using ht.usedBytes hg hc', fun hblock hne => ?_⟩
    obtain ⟨honly, hline⟩ := ht.inBlock hg hf (by simpa using hblock)
    have hany : (bs.map some).any Option.isSome = true := by
      obtain ⟨b, rest, rfl⟩ := List.exists_cons_of_ne_nil hne
      rfl
    exact ⟨w, honly, UsedLine.eq_of_write (hany ▸ hline)⟩

end Sys2Proof.Machine
end

section
/-! PROOF. O1 and O2: the encoder and the decoder undo each other, but for the bits that an instruction ignores (R100 to R111). -/

namespace Sys2Proof

/-! ## The bits of an encoded word (R102 to R104) -/

theorem encodeR_getLsbD (rs rt rd sa : RegNum) (funct : BitVec 6) (k : Nat) :
    (encodeR rs rt rd sa funct).getLsbD k =
      if k < 6 then funct.getLsbD k else if k < 11 then sa.getLsbD (k - 6) else if k < 16 then rd.getLsbD (k - 11)
      else if k < 21 then rt.getLsbD (k - 16) else if k < 26 then rs.getLsbD (k - 21) else false := by
  simp only [encodeR, BitVec.getLsbD_append]
  grind

theorem encodeI_getLsbD (op : BitVec 6) (rs rt : RegNum) (imm : BitVec 16) (k : Nat) :
    (encodeI op rs rt imm).getLsbD k =
      if k < 16 then imm.getLsbD k else if k < 21 then rt.getLsbD (k - 16) else if k < 26 then rs.getLsbD (k - 21)
      else op.getLsbD (k - 26) := by
  simp only [encodeI, BitVec.getLsbD_append]
  grind

theorem encodeJ_getLsbD (op : BitVec 6) (target : BitVec 26) (k : Nat) :
    (encodeJ op target).getLsbD k = if k < 26 then target.getLsbD k else op.getLsbD (k - 26) := by
  simp only [encodeJ, BitVec.getLsbD_append]

/-! ## The fields of an encoded word (R101 to R104) -/

section Fields
variable (rs rt rd sa : RegNum) (funct op : BitVec 6) (imm : BitVec 16) (target : BitVec 26)

@[simp] theorem opcodeField_encodeR : opcodeField (encodeR rs rt rd sa funct) = 0 := by
  ext; grind [opcodeField, encodeR_getLsbD]
@[simp] theorem rsField_encodeR : rsField (encodeR rs rt rd sa funct) = rs := by
  ext; grind [rsField, encodeR_getLsbD]
@[simp] theorem rtField_encodeR : rtField (encodeR rs rt rd sa funct) = rt := by
  ext; grind [rtField, encodeR_getLsbD]
@[simp] theorem rdField_encodeR : rdField (encodeR rs rt rd sa funct) = rd := by
  ext; grind [rdField, encodeR_getLsbD]
@[simp] theorem shamtField_encodeR : shamtField (encodeR rs rt rd sa funct) = sa := by
  ext; grind [shamtField, encodeR_getLsbD]
@[simp] theorem functField_encodeR : functField (encodeR rs rt rd sa funct) = funct := by
  ext; grind [functField, encodeR_getLsbD]

@[simp] theorem opcodeField_encodeI : opcodeField (encodeI op rs rt imm) = op := by
  ext; grind [opcodeField, encodeI_getLsbD]
@[simp] theorem rsField_encodeI : rsField (encodeI op rs rt imm) = rs := by
  ext; grind [rsField, encodeI_getLsbD]
@[simp] theorem rtField_encodeI : rtField (encodeI op rs rt imm) = rt := by
  ext; grind [rtField, encodeI_getLsbD]
@[simp] theorem immField_encodeI : immField (encodeI op rs rt imm) = imm := by
  ext; grind [immField, encodeI_getLsbD]

@[simp] theorem opcodeField_encodeJ : opcodeField (encodeJ op target) = op := by
  ext; grind [opcodeField, encodeJ_getLsbD]
@[simp] theorem targetField_encodeJ : targetField (encodeJ op target) = target := by
  ext; grind [targetField, encodeJ_getLsbD]

end Fields

/-! ## Decoding an encoded word (R106, R109) -/

theorem classify_encodeR (rs rt rd sa : RegNum) (funct : BitVec 6) :
    classify (encodeR rs rt rd sa funct) = classifyFunct funct (encodeR rs rt rd sa funct) := by
  simp [classify, classifyOpcode]

theorem classify_encodeI (op : BitVec 6) (rs rt : RegNum) (imm : BitVec 16) :
    classify (encodeI op rs rt imm) = classifyOpcode op (encodeI op rs rt imm) := by
  simp [classify]

theorem classify_encodeJ (op : BitVec 6) (target : BitVec 26) :
    classify (encodeJ op target) = classifyOpcode op (encodeJ op target) := by
  simp [classify]

/-- The tables of R109 give back every instruction but the sentinel, format by format. -/
theorem classify_encode (hw : Word) {i : Instr} (hi : i ≠ .halt) : classify (encode hw i) = .ok i := by
  cases i with
  | halt => exact absurd rfl hi
  | sll | srl | jr | add | addu | sub | subu | and | or | nor | slt | sltu =>
    exact (classify_encodeR ..).trans (by simp [classifyFunct])
  | j | jal => exact (classify_encodeJ ..).trans (by simp [classifyOpcode])
  | beq | bne | blez | bgtz | addi | addiu | slti | sltiu | andi | ori | lui | lw | lbu | lhu | sb | sh | sw =>
    exact (classify_encodeI ..).trans (by simp [classifyOpcode])

theorem decode_of_ne {hw w : Word} (h : w ≠ hw) : decode hw w = classify w := if_neg h

theorem decode_haltWord (hw : Word) : decode hw hw = .ok .halt := if_pos rfl

/-- The sentinel is the whole word and is tested first (R107); no other word is classified as it. -/
theorem decode_encode_of_ne {hw : Word} {i : Instr} (hi : i ≠ .halt) (hne : encode hw i ≠ hw) :
    decode hw (encode hw i) = .ok i := (decode_of_ne hne).trans (classify_encode hw hi)

theorem decode_encode {hw : Word} {i : Instr} (h : i.wellFormed hw = true) : decode hw (encode hw i) = .ok i := by
  by_cases hi : i = .halt
  · subst hi
    exact decode_haltWord hw
  · exact decode_encode_of_ne hi (by simpa [Instr.wellFormed, hi] using h)

/-- The bytes of a word make the word again (R54, R100). -/
theorem wordOfBytes_extract (w : Word) :
    wordOfBytes (w.extractLsb' 24 8) (w.extractLsb' 16 8) (w.extractLsb' 8 8) (w.extractLsb' 0 8) = w := by
  ext; grind [wordOfBytes]

theorem decodeBytes_bytesOfWord {hw w : Word} {i : Instr} (h : decode hw w = .ok i) (rest : List Byte) :
    decodeBytes hw (bytesOfWord w ++ rest) = .ok (i, rest) := by
  simp [bytesOfWord, decodeBytes, wordOfBytes_extract, h]

/-- Settles O1: each format's fields are read back from its word, and the word from its bytes. -/
theorem decodeEncodeAgree : Obligations.DecodeEncodeAgree := by
  intro hw i rest h
  exact ⟨decode_encode h, decodeBytes_bytesOfWord (decode_encode h) rest⟩

/-! ## Clearing the ignored bits of a word (R111) -/

/-- Clearing no bit of a field. -/
theorem clear_none {n : Nat} (x : BitVec n) : x &&& ~~~0 = x := by ext; simp

/-- Clearing every bit of a field. -/
theorem clear_all {n : Nat} (x : BitVec n) : x &&& ~~~.allOnes n = 0 := by ext; simp

section Ignored
open Machine
variable {w : Word} {op funct : BitVec 6}

theorem eq_encodeR (hop : opcodeField w = 0) (hf : functField w = funct) :
    w = encodeR (rsField w) (rtField w) (rdField w) (shamtField w) funct := by
  subst hf
  apply BitVec.eq_of_getLsbD_eq
  intro k hk
  have hbit : (opcodeField w).getLsbD (k - 26) = false := by simp [hop]
  grind [encodeR_getLsbD, opcodeField, rsField, rtField, rdField, shamtField, functField]

theorem eq_encodeI (hop : opcodeField w = op) : w = encodeI op (rsField w) (rtField w) (immField w) := by
  subst hop
  apply BitVec.eq_of_getLsbD_eq
  grind [encodeI_getLsbD, opcodeField, rsField, rtField, immField]

theorem eq_encodeJ (hop : opcodeField w = op) : w = encodeJ op (targetField w) := by
  subst hop
  apply BitVec.eq_of_getLsbD_eq
  grind [encodeJ_getLsbD, opcodeField, targetField]

theorem encodeR_clear (rs rt rd sa rs' rt' rd' sa' : RegNum) (funct funct' : BitVec 6) :
    encodeR rs rt rd sa funct &&& ~~~encodeR rs' rt' rd' sa' funct' =
      encodeR (rs &&& ~~~rs') (rt &&& ~~~rt') (rd &&& ~~~rd') (sa &&& ~~~sa') (funct &&& ~~~funct') := by
  apply BitVec.eq_of_getLsbD_eq
  grind [encodeR_getLsbD]

theorem encodeI_clear (op op' : BitVec 6) (rs rt rs' rt' : RegNum) (imm imm' : BitVec 16) :
    encodeI op rs rt imm &&& ~~~encodeI op' rs' rt' imm' =
      encodeI (op &&& ~~~op') (rs &&& ~~~rs') (rt &&& ~~~rt') (imm &&& ~~~imm') := by
  apply BitVec.eq_of_getLsbD_eq
  grind [encodeI_getLsbD]

/-! The words below are the masks of `ignoredBits`, each a word of its own format with ones in one or more ignored fields. -/

theorem clear_rs_of_R (hop : opcodeField w = 0) (hf : functField w = funct) :
    w &&& ~~~0x03E00000 = encodeR 0 (rtField w) (rdField w) (shamtField w) funct := by
  have hm : (0x03E00000 : Word) = encodeR (.allOnes 5) 0 0 0 0 := rfl
  conv_lhs => rw [eq_encodeR hop hf, hm, encodeR_clear]
  simp only [clear_none, clear_all]

theorem clear_sa_of_R (hop : opcodeField w = 0) (hf : functField w = funct) :
    w &&& ~~~0x000007C0 = encodeR (rsField w) (rtField w) (rdField w) 0 funct := by
  have hm : (0x000007C0 : Word) = encodeR 0 0 0 (.allOnes 5) 0 := rfl
  conv_lhs => rw [eq_encodeR hop hf, hm, encodeR_clear]
  simp only [clear_none, clear_all]

theorem clear_rt_rd_sa_of_R (hop : opcodeField w = 0) (hf : functField w = funct) :
    w &&& ~~~0x001FFFC0 = encodeR (rsField w) 0 0 0 funct := by
  have hm : (0x001FFFC0 : Word) = encodeR 0 (.allOnes 5) (.allOnes 5) (.allOnes 5) 0 := rfl
  conv_lhs => rw [eq_encodeR hop hf, hm, encodeR_clear]
  simp only [clear_none, clear_all]

theorem clear_rs_of_I (hop : opcodeField w = op) : w &&& ~~~0x03E00000 = encodeI op 0 (rtField w) (immField w) := by
  have hm : (0x03E00000 : Word) = encodeI 0 (.allOnes 5) 0 0 := rfl
  conv_lhs => rw [eq_encodeI hop, hm, encodeI_clear]
  simp only [clear_none, clear_all]

theorem clear_rt_of_I (hop : opcodeField w = op) : w &&& ~~~0x001F0000 = encodeI op (rsField w) 0 (immField w) := by
  have hm : (0x001F0000 : Word) = encodeI 0 0 (.allOnes 5) 0 := rfl
  conv_lhs => rw [eq_encodeI hop, hm, encodeI_clear]
  simp only [clear_none, clear_all]

/-- A word of the R table without its ignored bits is its instruction's encoding. -/
theorem clear_ignoredBits_of_classifyFunct (hw : Word) {i : Instr} (hop : opcodeField w = 0)
    (h : classifyFunct (functField w) w = .ok i) : w &&& ~~~ignoredBits i = encode hw i := by
  generalize hf : functField w = f at h
  unfold classifyFunct at h
  split at h
  case h_1 | h_2 =>
    cases h
    exact clear_rs_of_R hop hf
  case h_3 =>
    cases h
    exact clear_rt_rd_sa_of_R hop hf
  case h_13 => cases h
  all_goals
    cases h
    exact clear_sa_of_R hop hf

/-- A classified word without its ignored bits is its instruction's encoding. -/
theorem clear_ignoredBits_of_classify (hw : Word) {i : Instr} (h : classify w = .ok i) :
    w &&& ~~~ignoredBits i = encode hw i := by
  unfold classify at h
  generalize hop : opcodeField w = o at h
  unfold classifyOpcode at h
  split at h
  case h_1 => exact clear_ignoredBits_of_classifyFunct hw hop h
  case h_2 | h_3 =>
    cases h
    exact (clear_none w).trans (eq_encodeJ hop)
  case h_6 | h_7 =>
    cases h
    exact clear_rt_of_I hop
  case h_14 =>
    cases h
    exact clear_rs_of_I hop
  case h_21 => cases h
  all_goals
    cases h
    exact (clear_none w).trans (eq_encodeI hop)

end Ignored

/-- What the decoder answers with an instruction (R106, R107): the sentinel for the sentinel's word, else by the tables. -/
theorem decode_ok {hw w : Word} {i : Instr} (h : decode hw w = .ok i) : (w = hw ∧ i = .halt) ∨ (w ≠ hw ∧ classify w = .ok i) := by
  by_cases hne : w = hw
  · subst hne
    exact .inl ⟨rfl, (Except.ok.inj ((decode_haltWord w).symm.trans h)).symm⟩
  · exact .inr ⟨hne, (decode_of_ne hne).symm.trans h⟩

/-- Settles O2: row by row, a word without its ignored bits is the encoding of what it is classified as. -/
theorem encodeDecodeAgree : Obligations.EncodeDecodeAgree := by
  intro hw w i h hi
  obtain ⟨-, rfl⟩ | ⟨-, hc⟩ := decode_ok h
  · exact absurd rfl hi
  · exact ⟨clear_ignoredBits_of_classify hw hc, decode_encode_of_ne hi⟩

end Sys2Proof
end

section
/-! PROOF. O3: the illegal words (R106, R112). -/

namespace Sys2Proof

/-! ## Fields as numbers (R101, R102) -/

theorem opcodeField_toNat (w : Word) : (opcodeField w).toNat = w.toNat / 2 ^ 26 := by
  simp only [opcodeField, BitVec.extractLsb'_toNat, Nat.shiftRight_eq_div_pow]
  omega

theorem functField_toNat (w : Word) : (functField w).toNat = w.toNat % 2 ^ 6 := by
  simp [functField, BitVec.extractLsb'_toNat]

/-! ## What no row of R109 selects -/

/-- The function codes that are not in the R table (R112). -/
def illegalFunct (n : Nat) : Prop :=
  n = 0x01 ∨ 0x03 ≤ n ∧ n ≤ 0x07 ∨ 0x09 ≤ n ∧ n ≤ 0x1F ∨ n ∈ [0x26, 0x28, 0x29] ∨ 0x2C ≤ n

/-- The opcodes other than 0 that are in neither the I nor the J table (R112). -/
def illegalOpcode (n : Nat) : Prop :=
  n ∈ [0x01, 0x0E] ∨ 0x10 ≤ n ∧ n ≤ 0x22 ∨ n ∈ [0x26, 0x27, 0x2A] ∨ 0x2C ≤ n

theorem classifyFunct_error_iff (f : BitVec 6) (w : Word) :
    (∃ e, classifyFunct f w = .error e) ↔ illegalFunct f.toNat := by
  unfold classifyFunct
  split
  case h_13 =>
    refine iff_of_true ⟨_, rfl⟩ ?_
    simp only [imp_false, BitVec.toNat_eq, BitVec.toNat_ofNat] at *
    simp only [illegalFunct, List.mem_cons, List.not_mem_nil]
    omega
  all_goals simp [illegalFunct]

theorem classifyOpcode_error_iff (op : BitVec 6) (w : Word) :
    (∃ e, classifyOpcode op w = .error e) ↔
      illegalOpcode op.toNat ∨ op.toNat = 0 ∧ illegalFunct (functField w).toNat := by
  unfold classifyOpcode
  split
  case h_1 => simp [classifyFunct_error_iff, illegalOpcode]
  case h_21 =>
    refine iff_of_true ⟨_, rfl⟩ (.inl ?_)
    simp only [imp_false, BitVec.toNat_eq, BitVec.toNat_ofNat] at *
    simp only [illegalOpcode, List.mem_cons, List.not_mem_nil]
    omega
  all_goals simp [illegalOpcode]

/-- The sentinel is never illegal, and any other word is when no row selects it (R106, R107, R112). -/
theorem decode_error_iff (hw w : Word) :
    (∃ e, decode hw w = .error e) ↔ w ≠ hw ∧
      (illegalOpcode (w.toNat / 2 ^ 26) ∨ w.toNat / 2 ^ 26 = 0 ∧ illegalFunct (w.toNat % 2 ^ 6)) := by
  by_cases h : w = hw
  · simp [h, decode_haltWord]
  · rw [decode_of_ne h, classify, classifyOpcode_error_iff, opcodeField_toNat, functField_toNat]
    exact (and_iff_right h).symm

/-! ## The decode stage (R241) -/

namespace Machine

theorem opOf_eq_some_iff {hw w : Word} {i : Instr} : opOf hw w = some i ↔ decode hw w = .ok i := by
  cases h : decode hw w <;> simp [opOf, h, Except.toOption]

theorem opOf_eq_none_iff {hw w : Word} : opOf hw w = none ↔ ∃ e, decode hw w = .error e := by
  cases h : decode hw w <;> simp [opOf, h, Except.toOption]

theorem State.decodeStage_illegal (s : State) (fetchOk : Bool) :
    (s.decodeStage fetchOk).illegal = (opOf s.cfg.haltWord s.ifid.word).isNone := rfl

/-- Settles O3: the default cases of the decoder's two tables, as ranges of numbers. -/
theorem illegalWordsExactly : Obligations.IllegalWordsExactly := by
  rintro s w fetchOk rfl
  refine ⟨?_, (decode_error_iff _ _).trans (and_congr_right fun _ => ?_)⟩
  · rw [State.decodeStage_illegal, Option.isNone_iff_eq_none, opOf_eq_none_iff]
  · simp only [illegalOpcode, illegalFunct, or_assoc]

end Machine
end Sys2Proof
end

section
/-! PROOF. O51: when the two operand stalls hold (R234, R235). -/

namespace Sys2Proof.Machine

/-! ## The classes of instructions that the hazard unit asks for -/

theorem isLoad_iff (i : Instr) : isLoad i = true ↔ ∃ rt rs imm, i = .lw rt rs imm ∨ i = .lhu rt rs imm ∨ i = .lbu rt rs imm := by
  cases i <;> simp [isLoad]

theorem resolvesOnRegister_iff (i : Instr) : resolvesOnRegister i = true ↔ ∃ rs rt imm,
    i = .beq rs rt imm ∨ i = .bne rs rt imm ∨ i = .blez rs imm ∨ i = .bgtz rs imm ∨ i = .jr rs := by
  cases i <;> simp [resolvesOnRegister]

/-! ## The same of a latch's word (R29) -/

theorem isLoadWord_iff (hw w : Word) : isLoadWord hw w = true ↔ ∃ i, opOf hw w = some i ∧ isLoad i = true := by
  cases h : opOf hw w <;> simp [isLoadWord, h]

theorem mem_srcsOfWord_iff (hw w : Word) (r : RegNum) : r ∈ srcsOfWord hw w ↔ ∃ j, opOf hw w = some j ∧ r ∈ srcsOf j := by
  cases h : opOf hw w <;> simp [srcsOfWord, h]

theorem resolvesWord_iff (hw w : Word) :
    ((opOf hw w).map resolvesOnRegister).getD false = true ↔ ∃ j, opOf hw w = some j ∧ resolvesOnRegister j = true := by
  cases h : opOf hw w <;> simp

/-! ## The stalls -/

/-- The load-use stall (R234). -/
theorem State.loadUse_iff (s : State) : s.loadUse = true ↔
    isLoadWord s.cfg.haltWord s.idex.word = true ∧ s.idex.dest ≠ 0 ∧ s.idex.dest ∈ srcsOfWord s.cfg.haltWord s.ifid.word := by
  simp [State.loadUse, and_assoc]

/-- The branch-operand stall (R235). -/
theorem State.branchStall_iff (s : State) : s.branchStall = true ↔
    ∃ j, opOf s.cfg.haltWord s.ifid.word = some j ∧ resolvesOnRegister j = true ∧ ∃ r ∈ srcsOf j, r ≠ 0 ∧
      (s.idex.dest = r ∨ s.exmem.dest = r ∧ isLoadWord s.cfg.haltWord s.exmem.word = true) := by
  cases h : opOf s.cfg.haltWord s.ifid.word with
  | none => simp [State.branchStall, h]
  | some j => simp [State.branchStall, srcsOfWord, h, and_comm]

/-- Settles O51: each stall's condition, with its classes of instructions written out. -/
theorem operandStallConditions : Obligations.OperandStallConditions := by
  intro s
  refine ⟨?_, ?_⟩
  · rw [State.loadUse_iff, isLoadWord_iff, mem_srcsOfWord_iff]
    simp only [← isLoad_iff]
    constructor
    · rintro ⟨⟨i, hi, hl⟩, hd, j, hj, hr⟩
      exact ⟨hd, i, j, hi, hj, hr, hl⟩
    · rintro ⟨hd, i, j, hi, hj, hr, hl⟩
      exact ⟨⟨i, hi, hl⟩, hd, j, hj, hr⟩
  · simp only [State.branchStall_iff, isLoadWord_iff, ← isLoad_iff, ← resolvesOnRegister_iff]

end Sys2Proof.Machine
end

section
/-! PROOF. O4 and O5: the sentinel in every stage (R107), and words of the tables (R109). -/

namespace Sys2Proof.Machine

theorem opOf_haltWord (hw : Word) : opOf hw hw = some .halt := opOf_eq_some_iff.2 (decode_haltWord hw)

/-- Settles O4: the sentinel decodes to `HALT`, which no stage does anything for. -/
theorem sentinelDrainsHarmlessly : Obligations.SentinelDrainsHarmlessly := by
  refine ⟨fun hw => ⟨decode_haltWord hw, ?_, ?_⟩, fun p x => ⟨rfl, rfl, rfl⟩, ?_⟩
  · simp [destOfWord, opOf_haltWord, destOf]
  · simp [srcsOfWord, opOf_haltWord, srcsOf]
  · decide

/-- Settles O5: each word is evaluated. -/
theorem decodedWordsOfTheTables : Obligations.DecodedWordsOfTheTables :=
  ⟨rfl, rfl, rfl, rfl, rfl, rfl, rfl, rfl, rfl, rfl, rfl⟩

end Sys2Proof.Machine
end

section
/-! PROOF. O27: an instruction reads its sources alone (R110). -/

namespace Sys2Proof.Machine

/-! ## A register write and the updates of an instruction commute (R11, R22) -/

/-- Writes to two registers commute. -/
theorem State.setReg_comm (s : State) {r rd : RegNum} (h : r ≠ rd) (v x : Word) :
    (s.setReg r v).setReg rd x = (s.setReg rd x).setReg r v := by
  have hne : r.toNat ≠ rd.toNat := fun hn => h (BitVec.eq_of_toNat_eq hn)
  unfold State.setReg
  split <;> split <;> simp [Vector.set_comm _ _ hne]

section Updates
variable (s : State) (r : RegNum) (v : Word)

theorem State.setReg_advance : (s.setReg r v).advance = s.advance.setReg r v := by
  unfold State.setReg
  split <;> rfl

theorem State.setReg_transfer (target : Word) : (s.setReg r v).transfer target = (s.transfer target).setReg r v := by
  unfold State.setReg
  split <;> rfl

theorem State.setReg_takeException (e : Exception) : (s.setReg r v).takeException e = (s.takeException e).setReg r v := by
  unfold State.setReg
  split <;> rfl

theorem State.setReg_withData (p : CacheStore) : (s.setReg r v).withData p = (s.withData p).setReg r v := by
  unfold State.setReg
  split <;> rfl

theorem State.setReg_halted :
    { (s.setReg r v) with haltSeen := true, status := .halted } = { s with haltSeen := true, status := .halted }.setReg r v := by
  unfold State.setReg
  split <;> rfl

@[simp] theorem State.setReg_dcEnv : (s.setReg r v).dcEnv = s.dcEnv := by simp [State.dcEnv]

@[simp] theorem State.setReg_dataSide : (s.setReg r v).dataSide = s.dataSide := by simp [State.dataSide]

end Updates

/-! ## The shapes of an instruction after a write to a register that they do not use -/

section Shapes
variable {s t : State} {r rd rs : RegNum} {x y v : Word}

theorem State.writeResult_setReg (hd : r ≠ rd) (hxy : y = x) (h : s.writeResult rd x = .next t) :
    (s.setReg r v).writeResult rd y = .next (t.setReg r v) := by
  obtain rfl := Host.Outcome.next.inj (s.writeResult_eq rd x ▸ h)
  rw [hxy, State.writeResult_eq, State.setReg_comm s hd, State.setReg_advance]

theorem State.writeTrapping_setReg {ov ov' : Bool} (hd : r ≠ rd) (ho : ov' = ov) (hxy : y = x)
    (h : s.writeTrapping rd ov x = .next t) : (s.setReg r v).writeTrapping rd ov' y = .next (t.setReg r v) := by
  subst ho
  cases ov' with
  | true =>
    obtain rfl := Host.Outcome.next.inj h
    exact congrArg Host.Outcome.next (s.setReg_takeException r v .overflow)
  | false => exact State.writeResult_setReg hd hxy h

theorem State.branchIf_setReg {b b' : Bool} (hb : b' = b) (hxy : y = x) (h : s.branchIf b x = .next t) :
    (s.setReg r v).branchIf b' y = .next (t.setReg r v) := by
  subst hb hxy
  rw [State.branchIf_eq] at h ⊢
  obtain rfl := Host.Outcome.next.inj h
  cases b' with
  | true => exact congrArg Host.Outcome.next (s.setReg_transfer r v y)
  | false => exact congrArg Host.Outcome.next (s.setReg_advance r v)

theorem State.load_setReg {sz : AccessSize} {imm : BitVec 16} (hd : r ≠ rd) (hs : (s.setReg r v).reg rs = s.reg rs)
    (h : s.load sz rd rs imm = .next t) : (s.setReg r v).load sz rd rs imm = .next (t.setReg r v) := by
  obtain ⟨bs, p, hp, rfl⟩ := State.load_next h
  simp only [State.load, hs, State.setReg_dcEnv, State.setReg_dataSide, hp]
  rw [State.setReg_withData]
  exact State.writeResult_setReg hd rfl rfl

theorem State.store_setReg {sz : AccessSize} {rt : RegNum} {imm : BitVec 16} (hs : (s.setReg r v).reg rs = s.reg rs)
    (ht : (s.setReg r v).reg rt = s.reg rt) (h : s.store sz rt rs imm = .next t) :
    (s.setReg r v).store sz rt rs imm = .next (t.setReg r v) := by
  obtain ⟨p, hp, rfl⟩ := State.store_next h
  simp only [State.store, hs, ht, State.setReg_dcEnv, State.setReg_dataSide, hp]
  rw [State.setReg_withData, State.setReg_advance]

end Shapes

/-! ## The transfers and the sentinel, whose arms of `exec` are no shape of the above -/

theorem exec_j (target : BitVec 26) (s : State) : exec (.j target) s = .next (s.transfer (jumpTarget s.pc target)) := rfl

theorem exec_jr (rs : RegNum) (s : State) : exec (.jr rs) s = .next (s.transfer (s.reg rs)) := rfl

theorem exec_jal (target : BitVec 26) (s : State) :
    exec (.jal target) s = .next ((s.setReg 31 (linkValue s.pc)).transfer (jumpTarget s.pc target)) := rfl

theorem exec_halt (s : State) : exec .halt s = .next { s.advance with haltSeen := true, status := .halted } := rfl

/-- Settles O27: by the shape of the instruction, whose operands are registers among its sources. -/
theorem unreadRegisterPlaysNoPart : Obligations.UnreadRegisterPlaysNoPart := by
  intro i s t r v hs hd h
  have hread : ∀ x ∈ srcsOf i, (s.setReg r v).reg x = s.reg x :=
    fun x hx => s.reg_setReg_other (ne_of_mem_of_not_mem hx hs) v
  cases i with
  | add | sub | addi =>
    simp only [srcsOf, List.forall_mem_cons] at hread
    exact State.writeTrapping_setReg hd (by simp [hread]) (by simp [hread]) h
  | sll | srl | addu | subu | and | or | nor | slt | sltu | addiu | slti | sltiu | andi | ori =>
    simp only [srcsOf, List.forall_mem_cons] at hread
    exact State.writeResult_setReg hd (by simp [hread]) h
  | lui => exact State.writeResult_setReg hd rfl h
  | beq | bne | blez | bgtz =>
    simp only [srcsOf, List.forall_mem_cons] at hread
    exact State.branchIf_setReg (by simp [hread]) (by simp) h
  | lw | lbu | lhu =>
    simp only [srcsOf, List.forall_mem_cons] at hread
    exact State.load_setReg hd (by simp [hread]) h
  | sb | sh | sw =>
    simp only [srcsOf, List.forall_mem_cons] at hread
    exact State.store_setReg (by simp [hread]) (by simp [hread]) h
  | j target =>
    obtain rfl := Host.Outcome.next.inj h
    rw [exec_j, State.setReg_pc, State.setReg_transfer]
  | jr rs =>
    obtain rfl := Host.Outcome.next.inj h
    rw [exec_jr, hread rs (by simp [srcsOf]), State.setReg_transfer]
  | jal target =>
    obtain rfl := Host.Outcome.next.inj h
    have hlink : r ≠ 31 := hd
    rw [exec_jal, State.setReg_comm s hlink, State.setReg_transfer, State.setReg_pc]
  | halt =>
    obtain rfl := Host.Outcome.next.inj h
    rw [exec_halt, State.setReg_advance, State.setReg_halted]

end Sys2Proof.Machine
end

section
/-! PROOF. What the claims about the ALU instructions share: the encoding rows (R102, R109), a register result (R130) and a trapping
result (R131, R142). -/

namespace Sys2Proof.Machine

/-! ## The rows of the R table (R102, R109) -/

/-- The bits of a word, as a number and as a slice (R10). -/
theorem extractLsb'_eq_fieldAt (w : Word) (lo n : Nat) : w.extractLsb' lo n = fieldAt w lo n := by
  simp [fieldAt, BitVec.extractLsb', Nat.shiftRight_eq_div_pow]

theorem rsField_eq_fieldAt (w : Word) : rsField w = fieldAt w 21 5 := extractLsb'_eq_fieldAt w 21 5

theorem rtField_eq_fieldAt (w : Word) : rtField w = fieldAt w 16 5 := extractLsb'_eq_fieldAt w 16 5

theorem rdField_eq_fieldAt (w : Word) : rdField w = fieldAt w 11 5 := extractLsb'_eq_fieldAt w 11 5

theorem shamtField_eq_fieldAt (w : Word) : shamtField w = fieldAt w 6 5 := extractLsb'_eq_fieldAt w 6 5

theorem classify_of_opcode_zero {w : Word} (h : opcodeField w = 0) : classify w = classifyFunct (functField w) w := by
  rw [classify, h]
  rfl

/-- A row of the R table is the encoding of its instruction. -/
theorem encodedByFunct_of_row {funct : Nat} {mk : Word → Instr}
    (h : ∀ w, classifyFunct (BitVec.ofNat 6 funct) w = .ok (mk w)) : encodedByFunct funct mk := by
  intro hw w hne hop hfunct
  have hop' : opcodeField w = 0 := BitVec.eq_of_toNat_eq ((opcodeField_toNat w).trans hop)
  have hfunct' : functField w = BitVec.ofNat 6 funct := by
    apply BitVec.eq_of_toNat_eq
    rw [functField_toNat, BitVec.toNat_ofNat, ← hfunct, Nat.mod_mod]
  rw [decode_of_ne hne, classify_of_opcode_zero hop', hfunct', h]

/-- A row of the R table with three registers. -/
theorem encodedByFunct_of_registers {funct : Nat} {mk : RegNum → RegNum → RegNum → Instr}
    (h : ∀ w, classifyFunct (BitVec.ofNat 6 funct) w = .ok (mk (rdField w) (rsField w) (rtField w))) :
    encodedByFunct funct (fun w => mk (fieldAt w 11 5) (fieldAt w 21 5) (fieldAt w 16 5)) :=
  encodedByFunct_of_row fun w => by rw [h, rdField_eq_fieldAt, rsField_eq_fieldAt, rtField_eq_fieldAt]

/-- A row of the R table with two registers and a shift amount. -/
theorem encodedByFunct_of_shift {funct : Nat} {mk : RegNum → RegNum → BitVec 5 → Instr}
    (h : ∀ w, classifyFunct (BitVec.ofNat 6 funct) w = .ok (mk (rdField w) (rtField w) (shamtField w))) :
    encodedByFunct funct (fun w => mk (fieldAt w 11 5) (fieldAt w 16 5) (fieldAt w 6 5)) :=
  encodedByFunct_of_row fun w => by rw [h, rdField_eq_fieldAt, rtField_eq_fieldAt, shamtField_eq_fieldAt]

/-! ## The two shapes of a register result -/

/-- A register write followed by the next instruction has exactly the effect of the rules (R22, R130, R190). -/
theorem State.setReg_advance_effect (s : State) (rd : RegNum) (v : Word) :
    Effect s (s.setReg rd v).advance rd v (s.npc + 4) := by
  have hreg : ∀ r, (s.setReg rd v).advance.reg r = if r = rd ∧ r ≠ 0 then v else s.reg r := by
    intro r
    rw [State.advance_reg, State.reg_setReg]
    exact if_congr (and_congr_right fun hr => by rw [hr]) rfl rfl
  have hframe : (s.setReg rd v).advance = { s with regs := (s.setReg rd v).regs, pc := s.npc, npc := s.npc + 4 } := by
    rw [State.setReg_eq]
    rfl
  exact ⟨hreg, s.setReg_regs_zero rd v, s.setReg_npc rd v, by simp, s.setReg_dataByte rd v, by simpa using hframe⟩

theorem writes_of_writeResult {i : Instr} {s : State} {rd : RegNum} {x v : Word} (hexec : exec i s = s.writeResult rd x)
    (hx : x = v) : writes i s rd v := by
  subst hx
  exact ⟨_, hexec, s.setReg_advance_effect rd x⟩

/-- A trapping result (R131, R133, R151, R285): its exact value `n` where 32 signed bits hold it, otherwise the exception in the
architectural view and the overflow condition in the execute stage. -/
theorem writes_or_trapped {i : Instr} {s : State} {rd : RegNum} {ov : Bool} {x p : Word} {n : Int}
    (hexec : exec i s = s.writeTrapping rd ov x) (hstage : executor i p s.reg = .trapping ov x)
    (hov : ov = false ↔ -2 ^ 31 ≤ n ∧ n < 2 ^ 31) (hx : x = BitVec.ofInt 32 n) :
    if -2 ^ 31 ≤ n ∧ n < 2 ^ 31 then writes i s rd (BitVec.ofInt 32 n)
    else (∃ t, exec i s = .next t ∧ Trapped s t) ∧ executor i p s.reg = .overflow := by
  cases ov with
  | false =>
    rw [if_pos (hov.1 rfl)]
    exact writes_of_writeResult hexec hx
  | true =>
    rw [if_neg (mt hov.2 Bool.noConfusion)]
    exact ⟨⟨_, hexec, s.takeException_trapped .overflow⟩, hstage⟩

end Sys2Proof.Machine
end

section
/-! PROOF. O6 to O10: the register-format ALU instructions (R130 to R142). -/

namespace Sys2Proof.Machine

/-! ## The arithmetic of 32-bit words -/

theorem ofInt_sub {n : Nat} (x y : Int) : BitVec.ofInt n (x - y) = BitVec.ofInt n x - BitVec.ofInt n y := by
  rw [Int.sub_eq_add_neg, BitVec.ofInt_add, BitVec.ofInt_neg, BitVec.sub_eq_add_neg]

theorem boolWord_decide (c : Prop) [Decidable c] : boolWord (decide c) = if c then 1 else 0 := by
  simp [boolWord]

section Words
variable (a b : Word)

/-- The sign test of R142 and the range of the exact sum. -/
theorem addOverflows_eq_false_iff :
    addOverflows a b = false ↔ -2 ^ 31 ≤ a.toInt + b.toInt ∧ a.toInt + b.toInt < 2 ^ 31 := by
  have hsigns : addOverflows a b = a.saddOverflow b := (BitVec.saddOverflow_eq a b).symm
  simp only [hsigns, BitVec.saddOverflow, Bool.or_eq_false_iff, decide_eq_false_iff_not]
  omega

/-- The sign test of R142 and the range of the exact difference. -/
theorem subOverflows_eq_false_iff :
    subOverflows a b = false ↔ -2 ^ 31 ≤ a.toInt - b.toInt ∧ a.toInt - b.toInt < 2 ^ 31 := by
  have hsigns : subOverflows a b = a.ssubOverflow b := by
    rw [BitVec.ssubOverflow_eq, subOverflows]
    cases a.msb <;> cases b.msb <;> simp
  simp only [hsigns, BitVec.ssubOverflow, Bool.or_eq_false_iff, decide_eq_false_iff_not]
  omega

theorem add_eq_ofInt_toInt : a + b = BitVec.ofInt 32 (a.toInt + b.toInt) := by
  rw [BitVec.ofInt_add, BitVec.ofInt_toInt, BitVec.ofInt_toInt]

theorem sub_eq_ofInt_toInt : a - b = BitVec.ofInt 32 (a.toInt - b.toInt) := by
  rw [ofInt_sub, BitVec.ofInt_toInt, BitVec.ofInt_toInt]

theorem sub_eq_ofInt_toNat : a - b = BitVec.ofInt 32 ((a.toNat : Int) - b.toNat) := by
  simp [ofInt_sub, BitVec.ofInt_natCast]

theorem shiftLeft_eq_ofNat (k : Nat) : a <<< k = BitVec.ofNat 32 (a.toNat * 2 ^ k) := by
  apply BitVec.eq_of_toNat_eq
  rw [BitVec.toNat_shiftLeft, Nat.shiftLeft_eq, BitVec.toNat_ofNat]

theorem shiftRight_eq_ofNat (k : Nat) : a >>> k = BitVec.ofNat 32 (a.toNat / 2 ^ k) := by
  apply BitVec.eq_of_toNat_eq
  have hlt : a.toNat / 2 ^ k < 2 ^ 32 := (Nat.div_le_self _ _).trans_lt a.isLt
  rw [BitVec.toNat_ushiftRight, Nat.shiftRight_eq_div_pow, BitVec.toNat_ofNat, Nat.mod_eq_of_lt hlt]

end Words

/-! ## The claims -/

/-- Settles O6: the overflow test is the range of the exact result, and where that fits the word is the exact result. -/
theorem addSubExactOrOverflow : Obligations.AddSubExactOrOverflow := by
  refine ⟨encodedByFunct_of_registers fun _ => rfl, encodedByFunct_of_registers fun _ => rfl, ?_⟩
  intro s rd rs rt p
  constructor
  · exact writes_or_trapped rfl rfl (addOverflows_eq_false_iff _ _) (add_eq_ofInt_toInt _ _)
  · exact writes_or_trapped rfl rfl (subOverflows_eq_false_iff _ _) (sub_eq_ofInt_toInt _ _)

/-- Settles O7: word addition and subtraction are the unsigned ones modulo 2^32. -/
theorem adduSubuModulo : Obligations.AdduSubuModulo := by
  refine ⟨encodedByFunct_of_registers fun _ => rfl, encodedByFunct_of_registers fun _ => rfl, ?_⟩
  intro s rd rs rt
  constructor
  · exact writes_of_writeResult rfl (BitVec.add_def _ _)
  · exact writes_of_writeResult rfl (sub_eq_ofInt_toNat _ _)

/-- Settles O8: the values are the word operations, read bit by bit. -/
theorem bitwiseResults : Obligations.BitwiseResults := by
  refine ⟨encodedByFunct_of_registers fun _ => rfl, encodedByFunct_of_registers fun _ => rfl,
    encodedByFunct_of_registers fun _ => rfl, ?_⟩
  intro s rd rs rt
  refine ⟨s.reg rs &&& s.reg rt, s.reg rs ||| s.reg rt, ~~~(s.reg rs ||| s.reg rt), writes_of_writeResult rfl rfl,
    writes_of_writeResult rfl rfl, writes_of_writeResult rfl rfl, fun k hk => ⟨?_, ?_, ?_⟩⟩
  · exact BitVec.getLsbD_and
  · exact BitVec.getLsbD_or
  · simp [hk]

/-- Settles O9: the comparison's register value is 1 or 0 by the comparison itself. -/
theorem compareResults : Obligations.CompareResults := by
  refine ⟨encodedByFunct_of_registers fun _ => rfl, encodedByFunct_of_registers fun _ => rfl, ?_⟩
  intro s rd rs rt
  constructor
  · exact writes_of_writeResult rfl (boolWord_decide _)
  · exact writes_of_writeResult rfl (boolWord_decide _)

/-- Settles O10: a shift by `sa` is the multiplication and the division by 2^sa. -/
theorem shiftResults : Obligations.ShiftResults := by
  refine ⟨encodedByFunct_of_shift fun _ => rfl, encodedByFunct_of_shift fun _ => rfl, ?_⟩
  intro s rd rt sa
  constructor
  · exact writes_of_writeResult rfl (shiftLeft_eq_ofNat _ _)
  · exact writes_of_writeResult rfl (shiftRight_eq_ofNat _ _)

end Sys2Proof.Machine
end

section
/-! PROOF. What the claims about the immediate formats share: the encoding rows (R103, R109) and the values of the operands (R105). -/

namespace Sys2Proof.Machine

/-! ## The rows of the I and J tables (R103, R104, R109) -/

theorem immField_eq_fieldAt (w : Word) : immField w = fieldAt w 0 16 := extractLsb'_eq_fieldAt w 0 16

/-- A row of the I or the J table is the encoding of its instruction. -/
theorem encodedByOpcode_of_row {opcode : Nat} {mk : Word → Instr}
    (h : ∀ w, classifyOpcode (BitVec.ofNat 6 opcode) w = .ok (mk w)) : encodedByOpcode opcode mk := by
  intro hw w hne hop
  have hop' : opcodeField w = BitVec.ofNat 6 opcode := by
    rw [← hop, ← opcodeField_toNat, BitVec.ofNat_toNat, BitVec.setWidth_eq]
  rw [decode_of_ne hne, classify, hop', h]

/-- A row of the I table with a destination, a source and an immediate. -/
theorem encodedByOpcode_of_rt_rs_imm {opcode : Nat} {mk : RegNum → RegNum → BitVec 16 → Instr}
    (h : ∀ w, classifyOpcode (BitVec.ofNat 6 opcode) w = .ok (mk (rtField w) (rsField w) (immField w))) :
    encodedByOpcode opcode (fun w => mk (fieldAt w 16 5) (fieldAt w 21 5) (fieldAt w 0 16)) :=
  encodedByOpcode_of_row fun w => by rw [h, rtField_eq_fieldAt, rsField_eq_fieldAt, immField_eq_fieldAt]

/-- A row of the I table with a destination and an immediate. -/
theorem encodedByOpcode_of_rt_imm {opcode : Nat} {mk : RegNum → BitVec 16 → Instr}
    (h : ∀ w, classifyOpcode (BitVec.ofNat 6 opcode) w = .ok (mk (rtField w) (immField w))) :
    encodedByOpcode opcode (fun w => mk (fieldAt w 16 5) (fieldAt w 0 16)) :=
  encodedByOpcode_of_row fun w => by rw [h, rtField_eq_fieldAt, immField_eq_fieldAt]

/-! ## The three extensions of an immediate (R105) -/

section Immediates
variable (imm : BitVec 16)

@[simp] theorem simm_toInt : (simm imm).toInt = imm.toInt := BitVec.toInt_signExtend_of_le (by decide)

theorem simm_eq_ofInt : simm imm = BitVec.ofInt 32 imm.toInt := by
  rw [← simm_toInt, BitVec.ofInt_toInt]

/-- The sign-extended immediate read as unsigned (R156). -/
theorem simm_toNat : ((simm imm).toNat : Int) = imm.toInt % 2 ^ 32 := by
  rw [simm_eq_ofInt, BitVec.toNat_ofInt]
  exact Int.toNat_of_nonneg (Int.emod_nonneg _ (by decide))

theorem zimm_getLsbD (k : Nat) : (zimm imm).getLsbD k = (decide (k < 16) && imm.getLsbD k) := by
  rw [zimm, BitVec.getLsbD_setWidth]
  by_cases hk : k < 16
  · have hk' : k < 32 := by omega
    rw [decide_eq_true hk, decide_eq_true hk']
  · simp [BitVec.getLsbD_of_ge, hk, Nat.le_of_not_lt hk]

theorem uimm_eq_ofNat : uimm imm = BitVec.ofNat 32 (imm.toNat * 2 ^ 16) := by
  apply BitVec.eq_of_toNat_eq
  have hlt : imm.toNat * 2 ^ 16 < 2 ^ 32 := by omega
  rw [uimm, BitVec.toNat_append, BitVec.toNat_ofNat, Nat.mod_eq_of_lt hlt, Nat.shiftLeft_eq]
  exact Nat.or_zero _

end Immediates

end Sys2Proof.Machine
end

section
/-! PROOF. O11 to O15: the immediate-format ALU instructions (R150 to R157). -/

namespace Sys2Proof.Machine

/-! ## Word arithmetic with an extended immediate -/

section Words
variable (a : Word) (imm : BitVec 16)

/-- The sign test of R142 and the range of the exact sum with the signed immediate. -/
theorem addOverflows_simm_eq_false_iff :
    addOverflows a (simm imm) = false ↔ -2 ^ 31 ≤ a.toInt + imm.toInt ∧ a.toInt + imm.toInt < 2 ^ 31 := by
  rw [addOverflows_eq_false_iff, simm_toInt]

theorem add_simm_eq_ofInt_toInt : a + simm imm = BitVec.ofInt 32 (a.toInt + imm.toInt) := by
  rw [add_eq_ofInt_toInt, simm_toInt]

theorem add_simm_eq_ofInt_toNat : a + simm imm = BitVec.ofInt 32 (a.toNat + imm.toInt) := by
  rw [BitVec.ofInt_add, BitVec.ofInt_natCast, BitVec.ofNat_toNat, BitVec.setWidth_eq, simm_eq_ofInt]

theorem signedLess_simm : signedLess a (simm imm) = decide (a.toInt < imm.toInt) := by
  rw [signedLess, simm_toInt]

theorem unsignedLess_simm : unsignedLess a (simm imm) = decide ((a.toNat : Int) < imm.toInt % 2 ^ 32) := by
  simp only [unsignedLess, ← simm_toNat, Nat.cast_lt]

end Words

/-! ## The claims -/

/-- Settles O11: the overflow test is the range of the exact sum, because sign extension keeps the immediate's signed value. -/
theorem addiExactOrOverflow : Obligations.AddiExactOrOverflow := by
  refine ⟨encodedByOpcode_of_rt_rs_imm fun _ => rfl, ?_⟩
  intro s rt rs imm p
  exact writes_or_trapped rfl rfl (addOverflows_simm_eq_false_iff _ _) (add_simm_eq_ofInt_toInt _ _)

/-- Settles O12: word addition is the integer one modulo 2^32, with the register read as unsigned and the immediate as signed. -/
theorem addiuModulo : Obligations.AddiuModulo := by
  refine ⟨encodedByOpcode_of_rt_rs_imm fun _ => rfl, ?_⟩
  intro s rt rs imm
  exact writes_of_writeResult rfl (add_simm_eq_ofInt_toNat _ _)

/-- Settles O13: the values are the word operations with the zero-extended immediate, read bit by bit. -/
theorem immediateBitwiseResults : Obligations.ImmediateBitwiseResults := by
  refine ⟨encodedByOpcode_of_rt_rs_imm fun _ => rfl, encodedByOpcode_of_rt_rs_imm fun _ => rfl, ?_⟩
  intro s rt rs imm
  refine ⟨s.reg rs &&& zimm imm, s.reg rs ||| zimm imm, writes_of_writeResult rfl rfl, writes_of_writeResult rfl rfl,
    fun k _ => ⟨?_, ?_⟩⟩
  · rw [BitVec.getLsbD_and, zimm_getLsbD]
  · rw [BitVec.getLsbD_or, zimm_getLsbD]

/-- Settles O14: the signed comparison sees the immediate's own value, the unsigned one that value modulo 2^32. -/
theorem immediateCompareResults : Obligations.ImmediateCompareResults := by
  refine ⟨encodedByOpcode_of_rt_rs_imm fun _ => rfl, encodedByOpcode_of_rt_rs_imm fun _ => rfl, ?_⟩
  intro s rt rs imm
  constructor
  · exact writes_of_writeResult rfl (by rw [signedLess_simm, boolWord_decide])
  · exact writes_of_writeResult rfl (by rw [unsignedLess_simm, boolWord_decide])

/-- Settles O15: the concatenation with 16 zeros is the product with 2^16. -/
theorem luiResult : Obligations.LuiResult := by
  refine ⟨encodedByOpcode_of_rt_imm fun _ => rfl, ?_⟩
  intro s rt imm
  exact ⟨writes_of_writeResult rfl (uimm_eq_ofNat imm), rfl⟩

end Sys2Proof.Machine
end

section
/-! PROOF. O22 and O23: the loads and the stores (R170 to R177). -/

namespace Sys2Proof.Machine

/-- The effective address, with the base read as unsigned and the displacement as signed (R170). -/
theorem effectiveAddress_eq_ofInt (base : Word) (imm : BitVec 16) :
    effectiveAddress base imm = BitVec.ofInt 32 (base.toNat + imm.toInt) := add_simm_eq_ofInt_toNat base imm

section Access
variable {s t : State} {sz : AccessSize} {rt rs : RegNum} {imm : BitVec 16}

/-! ## A load -/

/-- What a load leaves: the value of the bytes seen in the register, and of memory only the lines moved (R56, R170). -/
theorem State.load_loaded (h : s.wf) (hl : s.load sz rt rs imm = .next t) :
    Loaded s t rt (bigEndian s (effectiveAddress (s.reg rs) imm) sz.bytes) := by
  have hdata := State.load_dataByte h hl
  obtain ⟨bs, p, hr, rfl⟩ := State.load_next hl
  obtain ⟨-, -, hbytes⟩ := Cache.serveRead_sound (e := s.dcEnv) h.data hr
  have hvalue : valueOfBytes bs = BitVec.ofNat 32 (bigEndian s (effectiveAddress (s.reg rs) imm) sz.bytes) := by
    rw [hbytes]
    exact valueOfBytes_dataBytes ..
  obtain ⟨hreg, hzero, hpc, hnpc, -, hframe⟩ := (s.withData p).setReg_advance_effect rt (valueOfBytes bs)
  refine ⟨fun r => ?_, hzero, hpc, hnpc, hdata, ?_⟩
  · rw [hreg, hvalue]
    rfl
  · rw [hframe]
    rfl

theorem State.load_acceptsAll (h : acceptsAll s.cfg.memValid) : ∃ t, s.load sz rt rs imm = .next t := by
  obtain ⟨⟨bs, p⟩, hr⟩ : ∃ r, Cache.serveRead s.dcEnv (effectiveAddress (s.reg rs) imm) sz.bytes s.dataSide = .ok r :=
    readLoop_acceptsAll h ..
  exact ⟨_, by rw [State.load, hr]; rfl⟩

theorem loads_of_load {i : Instr} (h : s.wf) (hexec : exec i s = s.load sz rt rs imm) :
    loads i s rt (effectiveAddress (s.reg rs) imm) sz.bytes := by
  rw [loads, hexec]
  exact ⟨fun _ ht => State.load_loaded h ht, State.load_acceptsAll⟩

/-! ## A store -/

/-- What a store leaves: its bytes in data memory, and every other byte and every register as before (R57, R170). -/
theorem State.store_storedTo (h : s.wf) (hs : s.store sz rt rs imm = .next t) :
    StoredTo s t (effectiveAddress (s.reg rs) imm) sz.bytes (s.reg rt) := by
  have hbytes := fun k => State.store_dataByte (k := k) h hs
  obtain ⟨hother, -⟩ := State.store_stored h hs
  have hreg := State.store_reg hs
  obtain ⟨p, -, rfl⟩ := State.store_next hs
  exact ⟨hbytes, fun x hx => hother x (by simpa using hx), hreg, rfl, rfl, rfl⟩

theorem State.store_acceptsAll (h : acceptsAll s.cfg.memValid) : ∃ t, s.store sz rt rs imm = .next t := by
  obtain ⟨p, hw⟩ : ∃ p, Cache.serveWrite s.dcEnv (effectiveAddress (s.reg rs) imm) (bytesOfValue sz.bytes (s.reg rt))
      s.dataSide = .ok p := writeLoop_acceptsAll h ..
  exact ⟨_, by rw [State.store, hw]⟩

theorem stores_of_store {i : Instr} (h : s.wf) (hexec : exec i s = s.store sz rt rs imm) :
    stores i s (effectiveAddress (s.reg rs) imm) sz.bytes (s.reg rt) := by
  rw [stores, hexec]
  exact ⟨fun _ ht => State.store_storedTo h ht, State.store_acceptsAll⟩

end Access

/-! ## The claims -/

/-- Settles O22: each instruction is the load of its width, and a whole read delivers the bytes seen. -/
theorem loadsReadDataMemory : Obligations.LoadsReadDataMemory := by
  refine ⟨encodedByOpcode_of_rt_rs_imm fun _ => rfl, encodedByOpcode_of_rt_rs_imm fun _ => rfl,
    encodedByOpcode_of_rt_rs_imm fun _ => rfl, ?_⟩
  intro s rt rs imm h
  exact ⟨effectiveAddress_eq_ofInt _ _, loads_of_load (sz := .word) h rfl, loads_of_load (sz := .byte) h rfl,
    loads_of_load (sz := .half) h rfl⟩

/-- Settles O23: each instruction is the store of its width, and a whole write changes exactly its bytes. -/
theorem storesWriteDataMemory : Obligations.StoresWriteDataMemory := by
  refine ⟨encodedByOpcode_of_rt_rs_imm fun _ => rfl, encodedByOpcode_of_rt_rs_imm fun _ => rfl,
    encodedByOpcode_of_rt_rs_imm fun _ => rfl, ?_⟩
  intro s rt rs imm h
  exact ⟨effectiveAddress_eq_ofInt _ _, stores_of_store (sz := .byte) h rfl, stores_of_store (sz := .half) h rfl,
    stores_of_store (sz := .word) h rfl⟩

end Sys2Proof.Machine
end

section
/-! PROOF. O16 to O19: the control transfers (R190 to R199). -/

namespace Sys2Proof.Machine

/-! ## The rows of the transfers (R102 to R104, R109) -/

theorem targetField_eq_fieldAt (w : Word) : targetField w = fieldAt w 0 26 := extractLsb'_eq_fieldAt w 0 26

/-- A row of the I table with two sources and an immediate. -/
theorem encodedByOpcode_of_rs_rt_imm {opcode : Nat} {mk : RegNum → RegNum → BitVec 16 → Instr}
    (h : ∀ w, classifyOpcode (BitVec.ofNat 6 opcode) w = .ok (mk (rsField w) (rtField w) (immField w))) :
    encodedByOpcode opcode (fun w => mk (fieldAt w 21 5) (fieldAt w 16 5) (fieldAt w 0 16)) :=
  encodedByOpcode_of_row fun w => by rw [h, rsField_eq_fieldAt, rtField_eq_fieldAt, immField_eq_fieldAt]

/-- A row of the I table with one source and an immediate, its second register field ignored (R111). -/
theorem encodedByOpcode_of_rs_imm {opcode : Nat} {mk : RegNum → BitVec 16 → Instr}
    (h : ∀ w, classifyOpcode (BitVec.ofNat 6 opcode) w = .ok (mk (rsField w) (immField w))) :
    encodedByOpcode opcode (fun w => mk (fieldAt w 21 5) (fieldAt w 0 16)) :=
  encodedByOpcode_of_row fun w => by rw [h, rsField_eq_fieldAt, immField_eq_fieldAt]

/-- A row of the J table. -/
theorem encodedByOpcode_of_target {opcode : Nat} {mk : BitVec 26 → Instr}
    (h : ∀ w, classifyOpcode (BitVec.ofNat 6 opcode) w = .ok (mk (targetField w))) :
    encodedByOpcode opcode (fun w => mk (fieldAt w 0 26)) :=
  encodedByOpcode_of_row fun w => by rw [h, targetField_eq_fieldAt]

/-! ## The targets (R105) -/

/-- The branch offset is four times the signed immediate, modulo 2^32. -/
theorem boff_eq_ofInt (imm : BitVec 16) : boff imm = BitVec.ofInt 32 (4 * imm.toInt) := by
  rw [BitVec.ofInt_mul, ← simm_eq_ofInt, boff, BitVec.shiftLeft_eq_mul_twoPow, BitVec.mul_comm]
  rfl

theorem branchTarget_eq_ofInt (pc : Word) (imm : BitVec 16) :
    branchTarget pc imm = BitVec.ofInt 32 (pc.toNat + 4 + 4 * imm.toInt) := by
  rw [BitVec.ofInt_add, BitVec.ofInt_add, BitVec.ofInt_natCast, BitVec.ofNat_toNat, BitVec.setWidth_eq, ← boff_eq_ofInt]
  rfl

/-- The three parts of a jump target as digits: the region, the target field and two zero bits. -/
theorem jumpTarget_eq_ofNat (pc : Word) (target : BitVec 26) :
    jumpTarget pc target = BitVec.ofNat 32 ((pc + 4).toNat / 2 ^ 28 * 2 ^ 28 + target.toNat * 4) := by
  apply BitVec.eq_of_toNat_eq
  have hregion : ((pc + 4).extractLsb' 28 4).toNat = (pc + 4).toNat / 2 ^ 28 := by
    rw [BitVec.extractLsb'_toNat, Nat.shiftRight_eq_div_pow]
    omega
  have hzero : (0 : BitVec 2).toNat = 0 := rfl
  rw [jumpTarget, BitVec.toNat_append, BitVec.toNat_append, ← Nat.shiftLeft_add_eq_or_of_lt target.isLt, hregion, hzero,
    Nat.or_zero, Nat.shiftLeft_eq, Nat.shiftLeft_eq, BitVec.toNat_ofNat]
  omega

theorem linkValue_eq_ofNat (pc : Word) : linkValue pc = BitVec.ofNat 32 (pc.toNat + 8) := BitVec.add_def pc 8

/-! ## The shapes of a transfer (R190) -/

section Shapes
variable {s : State} {i : Instr}

/-- A register write followed by a transfer has exactly the effect of the rules (R22, R190, R196): it differs from one followed by
the next instruction in `npc` alone. -/
theorem State.setReg_transfer_effect (s : State) (rd : RegNum) (v target : Word) :
    Effect s ((s.setReg rd v).transfer target) rd v target := by
  obtain ⟨hreg, hzero, hpc, -, hdata, hframe⟩ := s.setReg_advance_effect rd v
  refine ⟨hreg, hzero, hpc, rfl, hdata, ?_⟩
  exact congrArg (fun t : State => { t with npc := target }) hframe

theorem goesTo_of_transfer {x next : Word} (hexec : exec i s = .next (s.transfer x)) (hx : x = next) : goesTo i s next := by
  subst hx
  exact ⟨_, hexec, s.setReg_transfer_effect 0 0 x⟩

/-- A conditional transfer is one to the target or, when it is not taken, to the next address in sequence. -/
theorem goesTo_of_branchIf {b : Bool} {c : Prop} [Decidable c] {x target : Word} (hexec : exec i s = s.branchIf b x)
    (hb : b = true ↔ c) (hx : x = target) : goesTo i s (if c then target else s.npc + 4) := by
  rw [State.branchIf_eq] at hexec
  by_cases hc : c
  · rw [if_pos hc]
    rw [if_pos (hb.2 hc)] at hexec
    exact goesTo_of_transfer hexec hx
  · rw [if_neg hc]
    rw [if_neg (mt hb.1 hc)] at hexec
    exact goesTo_of_transfer hexec rfl

/-- The same with the condition under which the transfer is not taken. -/
theorem goesTo_of_branchIf_not {b : Bool} {c : Prop} [Decidable c] {x target : Word} (hexec : exec i s = s.branchIf b x)
    (hb : b = true ↔ ¬c) (hx : x = target) : goesTo i s (if c then s.npc + 4 else target) := by
  rw [← ite_not]
  exact goesTo_of_branchIf hexec hb hx

end Shapes

/-! ## The claims -/

/-- Settles O16: the words of two registers are equal exactly when their numbers are. -/
theorem branchOnEquality : Obligations.BranchOnEquality := by
  refine ⟨encodedByOpcode_of_rs_rt_imm fun _ => rfl, encodedByOpcode_of_rs_rt_imm fun _ => rfl, ?_⟩
  intro s rs rt imm
  have heq : (s.reg rs).toNat = (s.reg rt).toNat ↔ s.reg rs = s.reg rt := BitVec.toNat_inj
  constructor
  · exact goesTo_of_branchIf rfl (by rw [heq, decide_eq_true_iff]) (branchTarget_eq_ofInt _ _)
  · exact goesTo_of_branchIf_not rfl (by rw [heq, decide_eq_true_iff]) (branchTarget_eq_ofInt _ _)

/-- Settles O17: the two sign tests are each other's negation. -/
theorem branchOnSign : Obligations.BranchOnSign := by
  refine ⟨encodedByOpcode_of_rs_imm fun _ => rfl, encodedByOpcode_of_rs_imm fun _ => rfl, ?_⟩
  intro s rs imm
  constructor
  · exact goesTo_of_branchIf rfl (by rw [signedNonPositive, decide_eq_true_iff]) (branchTarget_eq_ofInt _ _)
  · exact goesTo_of_branchIf_not rfl (by rw [signedPositive, decide_eq_true_iff, not_le]) (branchTarget_eq_ofInt _ _)

/-- Settles O18: both transfer to the same target, and the link is a register write before the transfer. -/
theorem jumpAndLink : Obligations.JumpAndLink := by
  refine ⟨encodedByOpcode_of_target fun _ => rfl, encodedByOpcode_of_target fun _ => rfl, ?_⟩
  intro s target
  constructor
  · exact goesTo_of_transfer (exec_j target s) (jumpTarget_eq_ofNat _ _)
  · rw [← jumpTarget_eq_ofNat, ← linkValue_eq_ofNat]
    exact ⟨_, exec_jal target s, s.setReg_transfer_effect 31 _ _⟩

/-- Settles O19: the register read is the rules' value, with register 0 reading zero. -/
theorem jumpRegister : Obligations.JumpRegister := by
  constructor
  · exact encodedByFunct_of_row fun w => by rw [← rsField_eq_fieldAt]; rfl
  · intro s rs
    exact goesTo_of_transfer (exec_jr rs s) rfl

end Sys2Proof.Machine
end

section
/-! PROOF. O20 and O21: the sentinel and the illegal words (R210, R212, R285). -/

namespace Sys2Proof.Machine

/-! ## The sentinel (R210) -/

/-- A stopped core has no other instruction step than the one that leaves it as it is (R36, R255). -/
theorem eq_of_instructionStep_of_stopped {t u : State} (ht : t.status ≠ .notHalted) (hu : instructionStep t = .next u) :
    u = t := by
  rw [instructionStep_of_stopped ht] at hu
  exact (Host.Outcome.next.inj hu).symm

/-- Settles O20: the sentinel advances the program counter and stops the core, and a stopped core ignores every step. -/
theorem haltEndsTheRun : Obligations.HaltEndsTheRun := by
  intro s
  refine ⟨{ s.advance with haltSeen := true, status := .halted }, exec_halt s, rfl, rfl, ?regs, rfl, ?data, ?code, rfl, ?_⟩
  case regs => exact s.advance_reg
  case data => exact s.advance_dataByte
  case code => exact fun _ => rfl
  have hstopped : Status.halted ≠ .notHalted := nofun
  exact ⟨fun u => eq_of_instructionStep_of_stopped hstopped, instructionStep_of_stopped hstopped⟩

/-! ## The illegal words (R212) -/

/-- An illegal word takes the exception (R212, R285). -/
theorem State.runWord_of_illegal {s : State} {w : Word} {e : DecodeError} (hd : decode s.cfg.haltWord w = .error e) :
    s.runWord w = .next (s.takeException .illegalInstruction) := by
  simp [State.runWord, execIllegal, hd]

/-- Settles O21: the step is the fetch and then the exception, which changes the program counter alone. -/
theorem illegalWordTraps : Obligations.IllegalWordTraps := by
  intro s s' w e hc hv hl hf hd
  have hcfg : s'.cfg = s.cfg := by rw [State.fetchWhole_frame hf]
  have hstep : step s = .next (s'.takeException .illegalInstruction) := calc
    step s = instructionStep s := step_of_instruction_view hc hv
    _ = s'.runWord w := instructionStep_of_fetch hl hf
    _ = .next (s'.takeException .illegalInstruction) := State.runWord_of_illegal (hcfg ▸ hd)
  exact ⟨_, hstep, s'.takeException_trapped .illegalInstruction⟩

end Sys2Proof.Machine
end

section
/-! PROOF. What a tick leaves in the latches, the program counter and the wait bits (R220 step 7, R246 to R254): one inversion lemma
for `Ticked`, and what its stages answer. -/

namespace Sys2Proof.Machine

/-! ## What the decode stage answers (R241), by the state before the tick -/

@[simp] theorem State.writeBack_loadUse (s : State) : s.writeBack.loadUse = s.loadUse := by simp [State.loadUse]

@[simp] theorem State.writeBack_branchStall (s : State) : s.writeBack.branchStall = s.branchStall := by simp [State.branchStall]

section Decoded
variable (s : State) (f : FetchResult)

theorem State.decoded_illegal : (s.decoded f).illegal = (opOf s.cfg.haltWord s.ifid.word).isNone := by
  simp [State.decoded, State.decodeStage]

theorem State.decoded_taken : (s.decoded f).taken = if s.branchStall then none
    else (opOf s.cfg.haltWord s.ifid.word).bind fun i => resolve i s.ifid.pc s.writeBack.idOperand := by
  simp [State.decoded, State.decodeStage]

theorem State.decoded_slotWait :
    (s.decoded f).slotWait = ((s.decoded f).taken.isSome && !f.word.isSome && !s.haltSeen) := by
  simp [State.decoded, State.decodeStage]

theorem State.decoded_stalls : (s.decoded f).stalls = (s.loadUse || s.branchStall || (s.decoded f).slotWait) := by
  simp [State.decoded, State.decodeStage, DecodeResult.stalls]

theorem State.decoded_illegal_iff : (s.decoded f).illegal = true ↔ opOf s.cfg.haltWord s.ifid.word = none := by
  rw [State.decoded_illegal, Option.isNone_iff_eq_none]

theorem State.decoded_slotWait_iff :
    (s.decoded f).slotWait = true ↔ (s.decoded f).taken.isSome = true ∧ f.word = none ∧ s.haltSeen = false := by
  simp [State.decoded_slotWait, and_assoc]

end Decoded

/-! ## What the execute stage answers (R243) -/

theorem State.executeStage_of_op {s : State} {i : Instr} (h : opOf s.cfg.haltWord s.idex.word = some i) :
    s.writeBack.executeStage = executor i s.idex.pc s.writeBack.exOperand := by
  simp [State.executeStage, h]

theorem State.executeStage_of_illegal {s : State} (h : opOf s.cfg.haltWord s.idex.word = none) :
    s.writeBack.executeStage = .none := by
  simp [State.executeStage, h]

theorem ExOutcome.pending_eq_some_iff (e : ExOutcome) (v : Word) : e.pending = some v ↔ e = .value v := by
  cases e <;> simp [ExOutcome.pending]

/-! ## The end of a tick -/

/-- What a fetch at `pc` latches into `IFID` (R254). -/
def FetchResult.latch (f : FetchResult) (haltWord pc : Word) : Latch :=
  match f.word with
  | some w => mkLatch haltWord w pc none
  | none => .bubble

/-- The state in which the commit of a tick starts (R220 step 6, R255): its registers, caches and store are those of the next state. -/
def State.atCommit (s : State) (f : FetchResult) (m : MemResult) : State := s.writeBack.endOfTick f.side.cache m.side

/-- The states in which a live tick from `s` may end, by the first condition that holds (R246). -/
inductive Committed (s : State) (f : FetchResult) (m : MemResult) : State → Prop
  /-- A memory stall holds everything behind it (R238). -/
  | stalled (hm : m.stalls = true) :
      Committed s f m { s.atCommit f m with memwb := .bubble, memWait := true, ifWait := f.presented || s.ifWait }
  /-- An overflow in `EX` squashes itself and the younger (R246, R284). -/
  | overflowed (hm : m.stalls = false) (ho : s.overflows = true) :
      Committed s f m { s.atCommit f m with
        memwb := mkLatch s.cfg.haltWord s.exmem.word s.exmem.pc m.result, memWait := false,
        exmem := .bubble, idex := .bubble, ifid := .bubble, ifWait := false,
        pc := s.cfg.excVector, npc := s.cfg.excVector + 4 }
  /-- An illegal word in `ID` is squashed with its follower (R253, R281). -/
  | illegal (hm : m.stalls = false) (ho : s.overflows = false) (hi : (s.decoded f).illegal = true) :
      Committed s f m { s.atCommit f m with
        memwb := mkLatch s.cfg.haltWord s.exmem.word s.exmem.pc m.result, memWait := false,
        exmem := mkLatch s.cfg.haltWord s.idex.word s.idex.pc s.writeBack.executeStage.pending,
        idex := .bubble, ifid := .bubble, ifWait := false, pc := s.cfg.excVector, npc := s.cfg.excVector + 4 }
  /-- A decode stall holds `IFID` and the program counter (R237, R253). -/
  | held (hm : m.stalls = false) (ho : s.overflows = false) (hi : (s.decoded f).illegal = false)
      (hd : (s.decoded f).stalls = true) :
      Committed s f m { s.atCommit f m with
        memwb := mkLatch s.cfg.haltWord s.exmem.word s.exmem.pc m.result, memWait := false,
        exmem := mkLatch s.cfg.haltWord s.idex.word s.idex.pc s.writeBack.executeStage.pending,
        idex := .bubble, ifWait := f.presented || s.ifWait }
  /-- Every stage advances (R250 to R254). -/
  | advanced (hm : m.stalls = false) (ho : s.overflows = false) (hi : (s.decoded f).illegal = false)
      (hd : (s.decoded f).stalls = false) (npc : Word) :
      Committed s f m { s.atCommit f m with
        memwb := mkLatch s.cfg.haltWord s.exmem.word s.exmem.pc m.result, memWait := false,
        exmem := mkLatch s.cfg.haltWord s.idex.word s.idex.pc s.writeBack.executeStage.pending,
        idex := mkLatch s.cfg.haltWord s.ifid.word s.ifid.pc none, ifid := f.latch s.cfg.haltWord s.pc,
        haltSeen := s.haltSeen || decide (f.word = some s.cfg.haltWord),
        ifWait := if f.word.isSome || (s.decoded f).taken.isSome then false else f.presented || s.ifWait,
        pc := (s.decoded f).taken.getD (if f.word.isSome then s.pc + 4 else s.pc), npc := npc }

section AtCommit
variable (s : State) (f : FetchResult) (m : MemResult)

@[simp] theorem State.atCommit_cfg : (s.atCommit f m).cfg = s.cfg := by simp [State.atCommit]
@[simp] theorem State.atCommit_pc : (s.atCommit f m).pc = s.pc := by simp [State.atCommit]
@[simp] theorem State.atCommit_ifid : (s.atCommit f m).ifid = s.ifid := by simp [State.atCommit]
@[simp] theorem State.atCommit_idex : (s.atCommit f m).idex = s.idex := by simp [State.atCommit]
@[simp] theorem State.atCommit_exmem : (s.atCommit f m).exmem = s.exmem := by simp [State.atCommit]
@[simp] theorem State.atCommit_haltSeen : (s.atCommit f m).haltSeen = s.haltSeen := by simp [State.atCommit]
@[simp] theorem State.atCommit_ifWait : (s.atCommit f m).ifWait = s.ifWait := by simp [State.atCommit]

end AtCommit

/-- What a live tick can do to the latches, the program counter and the wait bits (R220 step 7, R246). -/
theorem Ticked.committed {s t : State} {f : FetchResult} {m : MemResult} (h : Ticked s t f m) : Committed s f m t := by
  have ht : t = (s.atCommit f m).commit f (s.decoded f) s.writeBack.executeStage m := h.eq_commit
  obtain ⟨hm, hc⟩ | ⟨hm, he, hc⟩ | ⟨hm, he, u, rfl, hc⟩ :=
    (s.atCommit f m).commit_cases f (s.decoded f) s.writeBack.executeStage m
  · have hend : Committed s f m _ := .stalled hm
    simpa [ht, hc] using hend
  · have hend : Committed s f m _ := .overflowed hm (by simp [State.overflows, he])
    simpa [ht, hc] using hend
  · have ho : s.overflows = false := by simp [State.overflows, he]
    obtain ⟨hi, hc⟩ | ⟨hi, hd, hc⟩ | ⟨hi, hd, w, hw, hc⟩ | ⟨hi, hd, hw, target, htaken, hc⟩ | ⟨hi, hd, hw, htaken, hc⟩ := hc
    · have hend : Committed s f m _ := .illegal hm ho hi
      simpa [ht, hc] using hend
    · have hend : Committed s f m _ := .held hm ho hi hd
      simpa [ht, hc] using hend
    · have hend : Committed s f m _ := .advanced hm ho hi hd ((s.decoded f).taken.getD (s.pc + 4) + 4)
      simpa [ht, hc, hw, FetchResult.latch] using hend
    · have hend : Committed s f m _ := .advanced hm ho hi hd (target + 4)
      simpa [ht, hc, hw, htaken, FetchResult.latch] using hend
    · have hend : Committed s f m _ := .advanced hm ho hi hd (s.atCommit f m).npc
      simpa [ht, hc, hw, htaken, FetchResult.latch] using hend

end Sys2Proof.Machine
end

section
/-! PROOF. O44 to O47: the latches, the program counter and the wait bits after a tick (R246 to R254). -/

namespace Sys2Proof.Machine

/-- Settles O44: `MEMWB` is a bubble or the instruction that was in `MEM`, and R263 (b) gives its destination. -/
theorem tickMemoryLatch : Obligations.TickMemoryLatch := by
  intro s t f m h
  have hdest : s.pipelineWf → destOfWord s.cfg.haltWord s.exmem.word = s.exmem.dest := by
    rintro ⟨-, hdests, -⟩
    exact (hdests s.exmem (by simp)).symm
  cases h.committed with
  | stalled hm => simp [hm]
  | overflowed hm | illegal hm | held hm | advanced hm => simpa [hm, mkLatch] using hdest

/-- Settles O45: each latch by the first condition that holds. -/
theorem tickFrontLatches : Obligations.TickFrontLatches := by
  intro s t f m h
  refine ⟨fun i => State.executeStage_of_op, State.executeStage_of_illegal, ?_⟩
  cases h.committed with
  | stalled hm => simp [hm]
  | overflowed hm ho => simp [hm, ho]
  | illegal hm ho hi => simp [hm, ho, hi, mkLatch, ExOutcome.pending_eq_some_iff]
  | held hm ho hi hd => simp [hm, ho, hi, hd, mkLatch, ExOutcome.pending_eq_some_iff]
  | advanced hm ho hi hd =>
    cases hw : f.word <;> simp [hm, ho, hi, hd, hw, mkLatch, FetchResult.latch, ExOutcome.pending_eq_some_iff]

/-- Settles O46: the program counter by the first condition that holds. -/
theorem tickProgramCounter : Obligations.TickProgramCounter := by
  intro s t f m h
  refine ⟨s.decoded_illegal_iff f, s.decoded_taken f, s.decoded_slotWait_iff f, s.decoded_stalls f, ?_⟩
  cases h.committed with
  | stalled hm => simp [hm]
  | overflowed hm ho => simp [hm, ho]
  | illegal hm ho hi => simp [hm, ho, hi]
  | held hm ho hi hd => simp [hm, ho, hi, hd]
  | advanced hm ho hi hd => cases htaken : (s.decoded f).taken <;> simp [hm, ho, hi, hd]

/-- Settles O47: the fetched word enters `IFID` in the tick that advances alone. -/
theorem tickHaltSeenAndFetchWait : Obligations.TickHaltSeenAndFetchWait := by
  intro s t f m h
  cases h.committed with
  | stalled hm => simp [hm]
  | overflowed hm ho => simp [hm, ho]
  | illegal hm ho hi => simp [hm, ho, hi]
  | held hm ho hi hd => simp [hm, ho, hi, hd]
  | advanced hm ho hi hd => simp [hm, ho, hi, hd]

end Sys2Proof.Machine
end

section
/-! PROOF. O52 to O54: the delay slot, and what the two exceptions squash (R236, R281, R284), read off the ticks of O44 to O47. -/

namespace Sys2Proof.Machine

theorem CoreConfig.haltWordFree_of_wellFormed {c : CoreConfig} (h : c.wellFormed = true) : haltWordFree c.haltWord = true := by
  simp only [CoreConfig.wellFormed, Bool.and_eq_true] at h
  obtain ⟨⟨⟨hfree, -⟩, -⟩, -⟩ := h
  exact hfree

theorem opOf_bubbleWord {hw : Word} (h : haltWordFree hw = true) : opOf hw Config.bubbleWord = some (.sll 0 0 0) := opOf_bubble h

/-- A taken transfer is an instruction in `IFID` that resolves (R242). -/
theorem State.resolve_of_taken {s : State} {f : FetchResult} {target : Word} (h : (s.decoded f).taken = some target) :
    ∃ i, opOf s.cfg.haltWord s.ifid.word = some i ∧ resolve i s.ifid.pc s.writeBack.idOperand = some target := by
  rw [State.decoded_taken] at h
  split at h
  · cases h
  · exact Option.bind_eq_some_iff.1 h

/-- Nothing is taken once the sentinel has been seen: `IFID` then holds it or the bubble (R263 (d)), and neither is a transfer. -/
theorem State.haltSeen_of_taken {s : State} {f : FetchResult} {target : Word} (hc : s.cfg.wellFormed = true) (hs : s.pipelineWf)
    (h : (s.decoded f).taken = some target) : s.haltSeen = false := by
  obtain ⟨-, -, -, hseen, -⟩ := hs
  obtain ⟨i, hi, hr⟩ := State.resolve_of_taken h
  by_contra hh
  obtain hw | hw := hseen (by simpa using hh)
  · rw [hw, opOf_haltWord] at hi
    obtain rfl := Option.some.inj hi
    cases hr
  · rw [hw, opOf_bubbleWord (CoreConfig.haltWordFree_of_wellFormed hc)] at hi
    obtain rfl := Option.some.inj hi
    cases hr

/-- Settles O52: nothing is taken once the sentinel has been seen, so the wait holds, and a decode stall holds the front. -/
theorem takenTransferWaitsForItsDelaySlot : Obligations.TakenTransferWaitsForItsDelaySlot := by
  intro s t f m hc hs h htaken hword
  obtain ⟨target, htarget⟩ := Option.isSome_iff_exists.1 htaken
  obtain ⟨i, hop, -⟩ := State.resolve_of_taken htarget
  have hwait : (s.decoded f).slotWait = true :=
    (s.decoded_slotWait_iff f).2 ⟨htaken, hword, State.haltSeen_of_taken hc hs htarget⟩
  refine ⟨hwait, fun hm ho => ?_⟩
  cases h.committed with
  | held => exact ⟨by simp, by simp, rfl⟩
  | stalled hm' => cases hm.symm.trans hm'
  | overflowed _ ho' => cases ho.symm.trans ho'
  | illegal _ _ hi => simp [State.decoded_illegal, hop] at hi
  | advanced _ _ _ hd => simp [State.decoded_stalls, hwait] at hd

/-- Settles O53: the tick is the overflow's own, whatever the decode stage answers. -/
theorem overflowSquashesTheYounger : Obligations.OverflowSquashesTheYounger := by
  intro s t f m h hm ho
  have hreg := State.reg_congr h.regs_eq
  cases h.committed with
  | overflowed => exact ⟨rfl, rfl, rfl, rfl, rfl, rfl, rfl, by simp, hreg⟩
  | stalled hm' => cases hm.symm.trans hm'
  | illegal _ ho' | held _ ho' | advanced _ ho' => cases ho.symm.trans ho'

/-- Settles O54: the tick is the illegal word's own, the decode stage having nothing older to wait for. -/
theorem illegalSquashesItsFollower : Obligations.IllegalSquashesItsFollower := by
  intro s t f m h hm ho hop
  have hi := (s.decoded_illegal_iff f).2 hop
  have hreg := State.reg_congr h.regs_eq
  cases h.committed with
  | illegal => exact ⟨rfl, rfl, rfl, rfl, by simp, rfl, rfl, hreg⟩
  | stalled hm' => cases hm.symm.trans hm'
  | overflowed _ ho' => cases ho.symm.trans ho'
  | held _ _ hi' | advanced _ _ hi' => cases hi.symm.trans hi'

end Sys2Proof.Machine
end

section
/-! PROOF. O40 and O41: the latch invariants of R263, clause by clause over the ends of a tick, and the sentinel's count. -/

namespace Sys2Proof.Machine

/-! ## Latches -/

theorem FetchResult.latch_eq (f : FetchResult) (haltWord pc : Word) :
    f.latch haltWord pc = .bubble ∨ ∃ w, f.word = some w ∧ f.latch haltWord pc = mkLatch haltWord w pc none := by
  unfold FetchResult.latch
  cases f.word with
  | none => exact .inl rfl
  | some w => exact .inr ⟨w, rfl, rfl⟩

@[simp] theorem FetchResult.latch_wval (f : FetchResult) (haltWord pc : Word) : (f.latch haltWord pc).wval = none := by
  obtain h | ⟨w, -, h⟩ := f.latch_eq haltWord pc <;> rw [h] <;> rfl

/-- A latch names the destination of its own word (R263 (b)). -/
def Latch.namesDest (haltWord : Word) (l : Latch) : Prop := l.dest = destOfWord haltWord l.word

theorem mkLatch_namesDest (haltWord w p : Word) (v : Option Word) : (mkLatch haltWord w p v).namesDest haltWord := rfl

theorem bubble_namesDest {hw : Word} (h : haltWordFree hw = true) : Latch.bubble.namesDest hw := (bubble_harmless h).1.symm

theorem FetchResult.latch_namesDest {hw : Word} (h : haltWordFree hw = true) (f : FetchResult) (pc : Word) :
    (f.latch hw pc).namesDest hw := by
  obtain hl | ⟨w, -, hl⟩ := f.latch_eq hw pc
  · exact hl ▸ bubble_namesDest h
  · exact hl ▸ mkLatch_namesDest ..

/-- The sentinels in one latch (R263 (i)). -/
def Latch.sentinels (haltWord : Word) (l : Latch) : Nat := if l.word = haltWord then 1 else 0

theorem bubble_sentinels {hw : Word} (h : haltWordFree hw = true) : Latch.bubble.sentinels hw = 0 := if_neg (haltWord_ne_bubble h)

@[simp] theorem mkLatch_sentinels (hw p : Word) (v : Option Word) (l : Latch) :
    (mkLatch hw l.word p v).sentinels hw = l.sentinels hw := rfl

theorem State.sentinels_eq (s : State) : s.sentinels = s.ifid.sentinels s.cfg.haltWord + s.idex.sentinels s.cfg.haltWord +
    s.exmem.sentinels s.cfg.haltWord + s.memwb.sentinels s.cfg.haltWord := by
  simp only [State.sentinels, ← List.countP_eq_length_filter, List.countP_cons, List.countP_nil, Latch.sentinels,
    decide_eq_true_eq]
  omega

/-- R263 (i) says that a sentinel is in a latch only once `halt_seen` is set, and then at most one. -/
theorem State.sentinels_le_toNat_iff (s : State) :
    s.sentinels ≤ s.haltSeen.toNat ↔ s.sentinels ≤ 1 ∧ (s.haltSeen = false → s.sentinels = 0) := by
  cases s.haltSeen <;> simp; omega

/-- The registers read in the execute stage are among the sources (R110). -/
theorem exSrcs_subset (hw w : Word) : exSrcs hw w ⊆ srcsOfWord hw w := by
  intro r hr
  unfold exSrcs at hr
  unfold srcsOfWord
  cases h : opOf hw w with
  | none => simp [h] at hr
  | some i =>
    rw [h] at hr
    simp only at hr
    split at hr
    · exact hr
    · cases hr

/-! ## One tick -/

theorem ticked_of_live {s t : State} (hl : s.status = .notHalted) (h : tick s = .next t) : ∃ f m, Ticked s t f m := by
  obtain ⟨f, m, hf, hm, -⟩ := State.liveTick_next (tick_of_live hl ▸ h)
  exact ⟨f, m, hl, hf, hm, h⟩

namespace Ticked
variable {s t : State} {f : FetchResult} {m : MemResult}

/-- A fetched word is fetched before the sentinel is seen (R240). -/
theorem haltSeen_of_word {w : Word} (h : Ticked s t f m) (hw : f.word = some w) : s.haltSeen = false := by
  obtain ⟨-, rfl⟩ | ⟨hs, -⟩ := State.fetchStage_ok h.fetchStage_eq
  · cases hw
  · exact hs

/-- Only a load or a store stalls (R245). -/
theorem accessesData_of_stalls (h : Ticked s t f m) (hm : m.stalls = true) :
    accessesData s.cfg.haltWord s.exmem.word = true := by
  obtain ⟨i, sz, rs, imm, r, ho, hi, -⟩ | ⟨i, sz, rt, rs, imm, r, ho, hi, -⟩ | ⟨-, rfl⟩ := State.memoryStage_ok h.memory
  · simp only [State.writeBack_cfg, State.writeBack_exmem] at ho
    simp [accessesData, ho, hi]
  · simp only [State.writeBack_cfg, State.writeBack_exmem] at ho
    simp [accessesData, ho, hi]
  · cases hm

/-- R263 (a): the front latches carry no value; only the execute stage gives one. -/
theorem wval_none (h : Ticked s t f m) (hs : s.ifid.wval = none ∧ s.idex.wval = none) :
    t.ifid.wval = none ∧ t.idex.wval = none := by
  obtain ⟨hifid, hidex⟩ := hs
  cases h.committed with
  | stalled => simp [hifid, hidex]
  | overflowed | illegal | advanced => simp [Latch.bubble, mkLatch]
  | held => simp [hifid, Latch.bubble]

/-- R263 (b): every latch of the next state is one of this state, a bubble, or made with its word's destination. -/
theorem namesDest (h : Ticked s t f m) (hfree : haltWordFree s.cfg.haltWord = true)
    (hs : ∀ l ∈ [s.ifid, s.idex, s.exmem, s.memwb], l.namesDest s.cfg.haltWord) :
    ∀ l ∈ [t.ifid, t.idex, t.exmem, t.memwb], l.namesDest s.cfg.haltWord := by
  have hbubble := bubble_namesDest hfree
  have hmk := mkLatch_namesDest s.cfg.haltWord
  have hfetched := f.latch_namesDest hfree s.pc
  simp only [List.forall_mem_cons, List.not_mem_nil, false_imp_iff, implies_true, and_true] at hs ⊢
  obtain ⟨hifid, hidex, hexmem, -⟩ := hs
  cases h.committed with
  | stalled => simp [*]
  | overflowed | illegal | held | advanced => simp [*]

/-- R263 (c): an illegal word never leaves `ID`. -/
theorem legal (h : Ticked s t f m) (hfree : haltWordFree s.cfg.haltWord = true)
    (hs : ∀ l ∈ [s.idex, s.exmem, s.memwb], opOf s.cfg.haltWord l.word ≠ none) :
    ∀ l ∈ [t.idex, t.exmem, t.memwb], opOf s.cfg.haltWord l.word ≠ none := by
  have hbubble : opOf s.cfg.haltWord Latch.bubble.word ≠ none :=
    fun hn => Option.some_ne_none _ ((opOf_bubbleWord hfree).symm.trans hn)
  simp only [List.forall_mem_cons, List.not_mem_nil, false_imp_iff, implies_true, and_true] at hs ⊢
  obtain ⟨hidex, hexmem, -⟩ := hs
  cases h.committed with
  | stalled => simpa using ⟨hidex, hexmem, hbubble⟩
  | overflowed => exact ⟨hbubble, hbubble, hexmem⟩
  | illegal | held => exact ⟨hbubble, hidex, hexmem⟩
  | advanced _ _ hi =>
    refine ⟨fun hn => ?_, hidex, hexmem⟩
    simp [(s.decoded_illegal_iff f).2 hn] at hi

/-- R263 (d): `halt_seen` is set with the sentinel in `IFID`, and no fetch replaces it but by a bubble. -/
theorem ifid_of_haltSeen (h : Ticked s t f m)
    (hs : s.haltSeen = true → s.ifid.word = s.cfg.haltWord ∨ s.ifid.word = Config.bubbleWord) :
    t.haltSeen = true → t.ifid.word = s.cfg.haltWord ∨ t.ifid.word = Config.bubbleWord := by
  cases h.committed with
  | stalled | held => simpa using hs
  | overflowed | illegal => exact fun _ => .inr rfl
  | advanced =>
    intro ht
    obtain hl | ⟨w, hw, hl⟩ := f.latch_eq s.cfg.haltWord s.pc
    · exact .inr (congrArg Latch.word hl)
    · have hseen : w = s.cfg.haltWord := by simpa [hw, h.haltSeen_of_word hw] using ht
      exact .inl ((congrArg Latch.word hl).trans hseen)

/-- R263 (e): a load leaves `EX` with no user of its result in `ID`, for the load-use stall has held back any (R234). -/
theorem no_load_use (h : Ticked s t f m) (hfree : haltWordFree s.cfg.haltWord = true)
    (hdest : s.idex.namesDest s.cfg.haltWord)
    (hs : isLoadWord s.cfg.haltWord s.exmem.word = true → s.exmem.dest ≠ 0 →
      s.exmem.dest ∉ exSrcs s.cfg.haltWord s.idex.word) :
    isLoadWord s.cfg.haltWord t.exmem.word = true → t.exmem.dest ≠ 0 → t.exmem.dest ∉ exSrcs s.cfg.haltWord t.idex.word := by
  have hbubble : ∀ r ≠ 0, r ∉ exSrcs s.cfg.haltWord Latch.bubble.word := by
    intro r hr
    obtain ⟨-, -, -, hsrcs⟩ := bubble_harmless hfree
    exact hsrcs ▸ (by simpa using hr)
  cases h.committed with
  | stalled => simpa using hs
  | overflowed => exact fun _ => hbubble _
  | illegal | held => exact fun _ => hbubble _
  | advanced _ _ _ hd =>
    intro hload hne hmem
    have hdest : s.idex.dest = destOfWord s.cfg.haltWord s.idex.word := hdest
    have huse : s.loadUse = true := s.loadUse_iff.2 ⟨hload, hdest ▸ hne, hdest ▸ exSrcs_subset _ _ hmem⟩
    simp [State.decoded_stalls, huse] at hd

/-- R263 (f): `mem_wait` is set by a stall of the access in `EXMEM`, which the stall holds there. -/
theorem accessesData_of_memWait (h : Ticked s t f m) :
    t.memWait = true → accessesData s.cfg.haltWord t.exmem.word = true := by
  cases h.committed with
  | stalled hm => simpa using h.accessesData_of_stalls hm
  | overflowed | illegal | held | advanced => simp

/-- A fetch latches a sentinel only where that sets `halt_seen` (R251). -/
theorem latch_sentinels_le (h : Ticked s t f m) (hfree : haltWordFree s.cfg.haltWord = true) :
    (f.latch s.cfg.haltWord s.pc).sentinels s.cfg.haltWord + s.haltSeen.toNat ≤
      (s.haltSeen || decide (f.word = some s.cfg.haltWord)).toNat := by
  obtain hl | ⟨w, hw, hl⟩ := f.latch_eq s.cfg.haltWord s.pc
  · rw [hl, bubble_sentinels hfree]
    cases s.haltSeen <;> simp
  · rw [hl, h.haltSeen_of_word hw, hw]
    by_cases he : w = s.cfg.haltWord <;> simp [he, mkLatch, Latch.sentinels]

/-- A sentinel enters the latches only in a tick that sets `halt_seen` (R251). -/
theorem sentinels_le (h : Ticked s t f m) (hfree : haltWordFree s.cfg.haltWord = true) :
    t.sentinels + s.haltSeen.toNat ≤ s.sentinels + t.haltSeen.toNat := by
  have hbubble := bubble_sentinels hfree
  have hfetched := h.latch_sentinels_le hfree
  rw [State.sentinels_eq, State.sentinels_eq]
  cases h.committed with
  | stalled | held => simp [hbubble]
  | overflowed | illegal =>
    simp [hbubble]
    omega
  | advanced =>
    simp
    omega

theorem haltSeen_of_haltSeen (h : Ticked s t f m) (hs : s.haltSeen = true) : t.haltSeen = true := by
  cases h.committed with
  | stalled | overflowed | illegal | held => simpa using hs
  | advanced => simp [hs]

end Ticked

/-- Settles O40: clause by clause in a live tick; a stopped core stays as it is. -/
theorem everyTickKeepsThePipelineInvariants : Obligations.EveryTickKeepsThePipelineInvariants := by
  intro s t hc hs ht
  obtain ⟨-, rfl⟩ | ⟨hl, -⟩ := tick_next ht
  · exact hs
  · obtain ⟨f, m, h⟩ := ticked_of_live hl ht
    have hfree := CoreConfig.haltWordFree_of_wellFormed hc
    obtain ⟨hwval, hdest, hlegal, hseen, huse, -, hcount⟩ := hs
    have hcount : t.sentinels ≤ t.haltSeen.toNat := by
      have := h.sentinels_le hfree
      have := s.sentinels_le_toNat_iff.2 hcount
      omega
    unfold State.pipelineWf
    rw [h.cfg_eq]
    exact ⟨h.wval_none hwval, h.namesDest hfree hdest, h.legal hfree hlegal, h.ifid_of_haltSeen hseen,
      h.no_load_use hfree (hdest s.idex (by simp)) huse, h.accessesData_of_memWait, t.sentinels_le_toNat_iff.1 hcount⟩

/-- Settles O41: no fetch is made, so no sentinel enters the latches, and none is in write-back. -/
theorem squashedSentinelNeverHalts : Obligations.SquashedSentinelNeverHalts := by
  intro s t hc hseen hnone hl ht
  obtain ⟨f, m, h⟩ := ticked_of_live hl ht
  have hseen' := h.haltSeen_of_haltSeen hseen
  have hcount := h.sentinels_le (CoreConfig.haltWordFree_of_wellFormed hc)
  have hwb : s.memwb.word ≠ s.cfg.haltWord := by
    intro he
    have hone : s.memwb.sentinels s.cfg.haltWord = 1 := if_pos he
    rw [State.sentinels_eq] at hnone
    omega
  obtain ⟨hcycle, hstatus⟩ := tickCountsAndHalts s t f m h
  obtain ⟨hfetch, -⟩ := fetchStopsAtTheSentinel s t f m h
  obtain ⟨-, -, hic⟩ := hfetch hseen
  refine ⟨hseen', ?_, by rw [hstatus, if_neg hwb], hcycle, hic⟩
  rw [hnone, hseen, hseen'] at hcount
  omega

end Sys2Proof.Machine
end

section
/-! PROOF. O37: nothing stops over a store that accepts every address (R53, R258, R264). -/

namespace Sys2Proof.Machine

theorem isNext_of_exists {r : Result} (h : ∃ t, r = .next t) : isNext r = true := by
  obtain ⟨t, rfl⟩ := h
  rfl

/-! ## The stages of a tick -/

theorem State.fetchStage_acceptsAll {s : State} (h : acceptsAll s.cfg.memValid) : ∃ f, s.fetchStage = .ok f := by
  unfold State.fetchStage
  split
  · exact ⟨_, rfl⟩
  · obtain ⟨r, hr⟩ := Cache.read_acceptsAll (e := s.icEnv) h s.pc 4 (!s.ifWait) s.fetchSide
    exact ⟨_, by rw [hr]⟩

theorem State.memoryStage_acceptsAll {s : State} (h : acceptsAll s.cfg.memValid) (mem : Memory) :
    ∃ m, s.memoryStage mem = .ok m := by
  unfold State.memoryStage
  split
  · rename_i sz rs imm _
    obtain ⟨r, hr⟩ := Cache.read_acceptsAll (e := s.dcEnv) h (effectiveAddress (s.memOperand rs) imm) sz.bytes (!s.memWait)
      ⟨s.dc, mem⟩
    exact ⟨_, by rw [hr]⟩
  · rename_i sz rt rs imm _
    obtain ⟨r, hr⟩ := Cache.write_acceptsAll (e := s.dcEnv) h (effectiveAddress (s.memOperand rs) imm)
      (bytesOfValue sz.bytes (s.memOperand rt)) (!s.memWait) ⟨s.dc, mem⟩
    exact ⟨_, by rw [hr]⟩
  · exact ⟨_, rfl⟩

theorem tick_acceptsAll {s : State} (h : acceptsAll s.cfg.memValid) : isNext (tick s) = true := by
  by_cases hl : s.status = .notHalted
  · have hw : acceptsAll s.writeBack.cfg.memValid := s.writeBack_cfg ▸ h
    obtain ⟨f, hf⟩ := State.fetchStage_acceptsAll hw
    obtain ⟨m, hm⟩ := State.memoryStage_acceptsAll hw f.side.mem
    simp only [tick_of_live hl, State.liveTick, hf, hm, isNext]
  · rw [tick_of_stopped hl, isNext]

/-! ## One instruction -/

theorem State.writeTrapping_isNext (s : State) (rd : RegNum) (ov : Bool) (v : Word) :
    isNext (s.writeTrapping rd ov v) = true := by
  cases ov <;> rfl

theorem State.branchIf_isNext (s : State) (taken : Bool) (target : Word) : isNext (s.branchIf taken target) = true := by
  rw [State.branchIf_eq, isNext]

theorem exec_acceptsAll {s : State} (h : acceptsAll s.cfg.memValid) (i : Instr) : isNext (exec i s) = true := by
  cases i with
  | add | sub | addi => exact s.writeTrapping_isNext ..
  | beq | bne | blez | bgtz => exact s.branchIf_isNext ..
  | lw | lbu | lhu => exact isNext_of_exists (State.load_acceptsAll h)
  | sb | sh | sw => exact isNext_of_exists (State.store_acceptsAll h)
  | _ => rfl

theorem State.runWord_acceptsAll {s : State} (h : acceptsAll s.cfg.memValid) (w : Word) : isNext (s.runWord w) = true := by
  obtain ⟨i, -, he⟩ | ⟨e, -, he⟩ := s.runWord_eq w
  · exact he ▸ exec_acceptsAll h i
  · rw [he, isNext]

theorem instructionStep_acceptsAll {s : State} (h : acceptsAll s.cfg.memValid) : isNext (instructionStep s) = true := by
  by_cases hl : s.status = .notHalted
  · obtain ⟨w, s', hf⟩ := State.fetchWhole_acceptsAll h
    have hcfg : s'.cfg = s.cfg := by rw [State.fetchWhole_frame hf]
    rw [instructionStep_of_fetch hl hf]
    exact State.runWord_acceptsAll (hcfg ▸ h) w
  · rw [instructionStep_of_stopped hl, isNext]

/-- Settles O37: by the view for a step, stage by stage for a tick, by its shape for an instruction. -/
theorem acceptingStoreNeverStops : Obligations.AcceptingStoreNeverStops := by
  intro s h
  refine ⟨tick_acceptsAll h, instructionStep_acceptsAll h, fun hc => ?_, exec_acceptsAll h⟩
  cases hv : s.view with
  | cycle => exact step_of_cycle_view hc hv ▸ tick_acceptsAll h
  | instruction => exact step_of_instruction_view hc hv ▸ instructionStep_acceptsAll h

end Sys2Proof.Machine
end
